-- ==== Sys2Proof/Word.lean ====
section
/-! DEFINITION. The word types of the block (10_state.md R21, R25; 30_encoding.md R70, R80). -/

namespace Sys2Proof

/-- A 32-bit unsigned integer, `u32` of 00_scope.md R12. -/
abbrev U32 := BitVec 32

/-- One `NUM` real of the default format: a binary32 bit pattern (30_encoding.md R80). -/
abbrev F32 := BitVec 32

/-- One command word on the command port (30_encoding.md R70). -/
abbrev CommandWord := BitVec 40

end Sys2Proof
end

