-- ==== Sys2Proof/Syntax.lean ====
section
/-! DEFINITION. The six commands, one constructor per row of spec/opcode_table.json (30_encoding.md R72). -/

namespace Sys2Proof

/-- A command with its operand as 30_encoding.md R71 reads it: whole, as a binary32 pattern (`F32`), as a
`u32`, as one bit, or absent. -/
inductive Instr where
  /-- BUILD: fill the kernel store once (40_kernel_build.md R101). -/
  | build
  /-- SETSR: set the sample rate (44_render_and_control.md R180). -/
  | setsr (sr : F32)
  /-- SETALT: set or clear the alternating-polarity flag (44_render_and_control.md R181). -/
  | setalt (b : Bool)
  /-- SETPHASE: load the phase counter (44_render_and_control.md R182). -/
  | setphase (p : U32)
  /-- DESIGN: recompute the filter targets (43_post_filter.md R156). -/
  | design (f0 : F32)
  /-- TICK: render one sample (44_render_and_control.md R184). -/
  | tick (f : F32)
  deriving DecidableEq, Repr

/-- Why a word is illegal (30_encoding.md R74). -/
inductive Illegal where
  /-- `op = 0x00` or `op` in `0x07 .. 0xFF`. -/
  | reservedOpcode
  /-- `op = 0x01` with `arg ≠ 0`. -/
  | buildOperand
  /-- `op = 0x03` with `arg[31:1] ≠ 0`. -/
  | setaltOperand
  deriving DecidableEq, Repr

end Sys2Proof
end

