-- ==== Sys2Proof/WellFormed.lean ====
section
/-! DEFINITION. Well-formedness of commands and of command words. The operand types of `Instr` carry every
constraint 30_encoding.md R71 puts on a legal command (no operand, one bit, a whole u32, a whole pattern), so
each term is well formed; the constraint on words is `legalWord`, the six match and mask patterns of R72. -/

namespace Sys2Proof

/-- Every command term is a legal command: whether a real operand lies in the command's domain is not an
encoding matter (30_encoding.md R74) and is decided by the command's own rule. -/
def wellFormed : Instr → Bool
  | .build => true
  | .setsr _ => true
  | .setalt _ => true
  | .setphase _ => true
  | .design _ => true
  | .tick _ => true

/-- The match and mask of each command (the second table of 30_encoding.md R72), in the opcode map's order. -/
def encodingPatterns : List (CommandWord × CommandWord) :=
  [(0x0100000000#40, 0xFFFFFFFFFF#40),
   (0x0200000000#40, 0xFF00000000#40),
   (0x0300000000#40, 0xFFFFFFFFFE#40),
   (0x0400000000#40, 0xFF00000000#40),
   (0x0500000000#40, 0xFF00000000#40),
   (0x0600000000#40, 0xFF00000000#40)]

/-- `w & mask = match` for one of the six patterns: the word is legal (30_encoding.md R72, R74). -/
def legalWord (w : CommandWord) : Bool :=
  encodingPatterns.any fun p => (w &&& p.2) == p.1

end Sys2Proof
end

