-- ==== Sys2Proof/Decode.lean ====
section
/-! DEFINITION. The decoder of 30_encoding.md R79, total on 40-bit words, and the encoder, its inverse on legal
commands, both from the tables of R70 to R72. -/

namespace Sys2Proof

/-- `op = w[39:32]` (30_encoding.md R70). -/
def opField (w : CommandWord) : BitVec 8 := w.extractLsb' 32 8

/-- `arg = w[31:0]` (30_encoding.md R70). -/
def argField (w : CommandWord) : BitVec 32 := w.extractLsb' 0 32

/-- `{op, arg}` (30_encoding.md R70). -/
def commandWord (op : BitVec 8) (arg : BitVec 32) : CommandWord := op ++ arg

/-- `decode(w)` of 30_encoding.md R79; an illegal word is rejected with its reason (R74). -/
def decode (w : CommandWord) : Except Illegal Instr :=
  let op := opField w
  let arg := argField w
  if op = 0x01#8 then
    if arg = 0#32 then .ok .build else .error .buildOperand
  else if op = 0x02#8 then .ok (.setsr arg)
  else if op = 0x03#8 then
    if arg.extractLsb' 1 31 = 0#31 then .ok (.setalt (arg.getLsbD 0)) else .error .setaltOperand
  else if op = 0x04#8 then .ok (.setphase arg)
  else if op = 0x05#8 then .ok (.design arg)
  else if op = 0x06#8 then .ok (.tick arg)
  else .error .reservedOpcode

/-- `encode(c)` of 30_encoding.md R79, from the opcode map of R72. -/
def encode : Instr → CommandWord
  | .build => commandWord 0x01#8 0#32
  | .setsr sr => commandWord 0x02#8 sr
  | .setalt b => commandWord 0x03#8 (if b then 1#32 else 0#32)
  | .setphase p => commandWord 0x04#8 p
  | .design f0 => commandWord 0x05#8 f0
  | .tick f => commandWord 0x06#8 f

/-- A word of spec/opcode_table.json as the port carries it: bit 0 of the table is bit 0 of the word, and the
bits at and above `nbits` are 0. -/
def tableWord (nbits w : Nat) : CommandWord := BitVec.ofNat 40 (w % 2 ^ nbits)

/-- What the decoder reads from a word of the opcode table. -/
def decodeTableWord (nbits w : Nat) : Option Instr :=
  match decode (tableWord nbits w) with
  | .ok i => some i
  | .error _ => none

end Sys2Proof
end

