-- ==== Sys2Proof/Config.lean ====
section
/-! DEFINITION. The constants of 00_scope.md R9, the parameters of R10 and R11 as types, and the one parameter
that has no value in the spec, the kernel table. -/

namespace Sys2Proof

/-- The functions of the parameter `NUM` (00_scope.md R11), with the constant `π`. -/
structure NumFns (α : Type) where
  /-- The constant `π` (R13). -/
  pi : α
  tan : α → α
  sin : α → α
  cos : α → α
  exp2 : α → α
  log : α → α
  /-- `atan2 y x`. -/
  atan2 : α → α → α
  exp : α → α
  sqrt : α → α

/-- One value on an output port (30_encoding.md R77). -/
inductive PortValue (α : Type) where
  /-- The binary32 pattern the port carries. -/
  | pattern (p : F32)
  /-- "With `NUM` instantiated as the exact reals the value is a real and has no pattern": that case only. -/
  | real (x : α)
  deriving DecidableEq, Repr

/-- The parameter `NUM` (00_scope.md R11, R13): the format of every "real" value, its operations, and its
functions. Every state and every command of the block is written once over any `Num`; the default is binary32
(`Machine.num32`), and `Machine.numExact` is the second instantiation R13 names. -/
structure Num (α : Type) extends NumFns α where
  /-- `x + y`, rounded once. -/
  add : α → α → α
  /-- `x − y`, rounded once. -/
  sub : α → α → α
  /-- `x · y`, rounded once. -/
  mul : α → α → α
  /-- `x / y`, rounded once. -/
  div : α → α → α
  /-- `−x`, exact. -/
  neg : α → α
  /-- `|x|`, exact. -/
  abs : α → α
  /-- `real(n)`: the nearest `NUM` value. -/
  ofNat : Nat → α
  /-- The decimal constant `n / d`, rounded once. -/
  lit : Nat → Nat → α
  /-- `x < y`. -/
  lt : α → α → Bool
  /-- Whether the value is a real number (not an infinity, not a NaN). -/
  isFinite : α → Bool
  /-- The denormal guard (43_post_filter.md R168). -/
  ftz : α → α
  /-- Conversion of a real to u32 (41_phase_accumulator.md R123). -/
  cvtU32 : α → U32
  /-- The `NUM` value a finite binary32 pattern denotes (30_encoding.md R71). -/
  ofPattern : F32 → α
  /-- What the output port carries for a value: its binary32 pattern "whatever `NUM` is" (R77, 92_eei_decisions.md D5),
  a real where there is none. The spec gives no conversion from a wider or narrower format, so it is the `NUM`'s own
  (log entry 21). -/
  toPort : α → PortValue α

/-- A finite binary32 value by its three fields (30_encoding.md R80): an exponent field of 255 cannot be written. -/
structure FiniteF32 where
  sign : Bool
  exponent : Fin 255
  fraction : BitVec 23
  deriving DecidableEq, Repr, Inhabited

/-- Its pattern. -/
def FiniteF32.pattern (x : FiniteF32) : F32 :=
  BitVec.ofBool x.sign ++ (BitVec.ofNat 8 x.exponent ++ x.fraction)

/-- A prototype angle, one `THETA[k]` (00_scope.md R11, 43_post_filter.md R159; log entry 5). -/
inductive Angle where
  /-- The expression `num · π / den`, evaluated where it is used. -/
  | piMultiple (num : Int) (den : Nat)
  /-- A value given outright; every finite value of a binary format is a rational. -/
  | value (x : ℚ)
  deriving DecidableEq, Repr

/-- The construction parameter `FSCALE` (00_scope.md R10): 1 or 2. -/
inductive FScale where
  | one
  | two
  deriving DecidableEq, Repr

/-- The construction parameters of one oscillator (00_scope.md R10, and `DESIGN_MAPPED` of R11;
60_exceptions.md R209: each oscillator has its own). No command changes them. -/
structure OscParams where
  fscale : FScale
  altDefault : Bool
  noteMode : Bool
  designMapped : Bool
  deriving DecidableEq, Repr

namespace Config

/-- `L`, the base kernel length (00_scope.md R9). -/
abbrev baseLen : Nat := 64
/-- `S`, the oversampling factor (R9). -/
abbrev oversample : Nat := 64
/-- `N = L · S`, the length of `IMPULSE` and of `STEP` (R9). -/
abbrev tableLen : Nat := 4096
/-- `M = N · 2`, the length of the builder's buffers (R9). -/
abbrev padLen : Nat := 8192
/-- `VOICES` (R9). -/
abbrev voices : Nat := 8
/-- `NSEC` (R9). -/
abbrev sections : Nat := 3

/-- The default `THETA`, the source's expression `(3k+1)·π/6` for `k = 0, 1, 2` (43_post_filter.md R159). -/
def thetaDefault : Vector Angle 3 :=
  #v[.piMultiple 1 6, .piMultiple 4 6, .piMultiple 7 6]

/-- The alternative `THETA_BW6 = (7π/12, 9π/12, 11π/12)` (43_post_filter.md R159, 93 entry G3). -/
def thetaBw6 : Vector Angle 3 :=
  #v[.piMultiple 7 12, .piMultiple 9 12, .piMultiple 11 12]

/-- The defaults of 95_test_vectors.md: `FSCALE = 1`, `ALT_DEFAULT = 0`, `NOTE_MODE = 0`, `DESIGN_MAPPED = 0`. -/
def oscDefault : OscParams :=
  { fscale := .one, altDefault := false, noteMode := false, designMapped := false }

/-- `KROM.IMPULSE` (00_scope.md R11, 40_kernel_build.md R100): the table BUILD writes, a parameter with no value
in the spec (R104, R109), so it has none here (log entry 4). It is the default `Machine.params32` gives BUILD. -/
opaque kromImpulse : Nat → FiniteF32

/-- `KROM.STEP`, likewise. -/
opaque kromStep : Nat → FiniteF32

end Config

end Sys2Proof
end

