-- ==== Sys2Proof/Machine/Complex.lean ====
section
/-! DEFINITION. The complex arithmetic helper (00_scope.md R2, R15): used by the filter design and the table builder
only. -/

namespace Sys2Proof.Machine

/-- A complex value, a pair of reals (00_scope.md R15). -/
structure Cx (α : Type) where
  re : α
  im : α
  deriving DecidableEq, Repr

/-- `x − y` (R15). -/
def cxSub {α : Type} (N : Num α) (x y : Cx α) : Cx α := { re := N.sub x.re y.re, im := N.sub x.im y.im }

/-- `x · y = (a·c − b·d, a·d + b·c)` (R15). -/
def cxMul {α : Type} (N : Num α) (x y : Cx α) : Cx α :=
  { re := N.sub (N.mul x.re y.re) (N.mul x.im y.im)
    im := N.add (N.mul x.re y.im) (N.mul x.im y.re) }

/-- `x / y = ((a·c + b·d) / (c·c + d·d), (b·c − a·d) / (c·c + d·d))` (R15). -/
def cxDiv {α : Type} (N : Num α) (x y : Cx α) : Cx α :=
  let den := N.add (N.mul y.re y.re) (N.mul y.im y.im)
  { re := N.div (N.add (N.mul x.re y.re) (N.mul x.im y.im)) den
    im := N.div (N.sub (N.mul x.im y.re) (N.mul x.re y.im)) den }

/-- `|x| = sqrt(a·a + b·b)` (R15). -/
def cxAbs {α : Type} (N : Num α) (x : Cx α) : α := N.sqrt (N.add (N.mul x.re x.re) (N.mul x.im x.im))

/-- `unit(t) = (cos t, sin t)` (R15). -/
def cxUnit {α : Type} (N : Num α) (t : α) : Cx α := { re := N.cos t, im := N.sin t }

end Sys2Proof.Machine
end

