-- ==== Sys2Proof/Machine/Binary32.lean ====
section
/-! DEFINITION. IEEE 754 binary32, the default `NUM` (30_encoding.md R80, 43_post_filter.md R174, 00_scope.md R13).
Every finite binary32 value is an integer multiple of 2^-149, so each operation is exact arithmetic on such
integers followed by ONE rounding, to nearest, ties to even, gradual underflow. -/

namespace Sys2Proof.Binary32

/-- Bit 31, the sign (30_encoding.md R80). -/
def signBit (x : F32) : Bool := x.getLsbD 31

/-- Bits 30 to 23, the biased exponent (R80). -/
def expField (x : F32) : Nat := (x.extractLsb' 23 8).toNat

/-- Bits 22 to 0, the fraction (R80). -/
def fracField (x : F32) : Nat := (x.extractLsb' 0 23).toNat

/-- Not an infinity and not a NaN (R80). -/
def isFinite (x : F32) : Bool := expField x != 255

def isNaN (x : F32) : Bool := expField x == 255 && fracField x != 0

def isInf (x : F32) : Bool := expField x == 255 && fracField x == 0

/-- Zero or subnormal exponent with a nonzero fraction: the source's "denormal" (R80). -/
def isSubnormal (x : F32) : Bool := expField x == 0 && fracField x != 0

/-- `|x|` as a multiple of 2^-149, for finite `x` (R80); an infinity gives 2^277, above every finite value. -/
def units (x : F32) : Nat :=
  if expField x = 0 then fracField x else (fracField x + 2 ^ 23) * 2 ^ (expField x - 1)

/-- The value of finite `x` as a multiple of 2^-149. -/
def signedUnits (x : F32) : Int := if signBit x then -(units x : Int) else units x

/-- The value the pattern denotes, for finite `x` (R80). -/
def toRat (x : F32) : ℚ := (signedUnits x : ℚ) / 2 ^ 149

/-- The default NaN; no command ever writes or outputs one (43_post_filter.md R174). -/
def nan : F32 := 0x7FC00000#32

/-- The pattern with the given sign and the given bits 30 to 0. -/
def pack (neg : Bool) (mag : Nat) : F32 := BitVec.ofNat 32 (mag + if neg then 2 ^ 31 else 0)

/-- The infinity of the given sign. -/
def inf (neg : Bool) : F32 := pack neg 0x7F800000

/-- Bits 30 to 0 of the binary32 value nearest to `(n / d) · 2^-149`, ties to even, for `d > 0`. With `sh` the
exponent that leaves 24 significant bits (0 in the subnormal range and just above it), the rounded quotient `q'`
and `sh` make the pattern `sh · 2^23 + q'`, carries included; at or above `0x7F800000` it is the infinity. -/
def roundUnits (n d : Nat) : Nat :=
  let sh := Nat.log2 (n / d) - 23
  let quantum := d * 2 ^ sh
  let q := n / quantum
  let r := n % quantum
  let q' := if quantum < 2 * r ∨ (quantum = 2 * r ∧ q % 2 = 1) then q + 1 else q
  min (sh * 2 ^ 23 + q') 0x7F800000

/-- The binary32 value nearest to `±(n / d)`. -/
def ofRatio (neg : Bool) (n d : Nat) : F32 := pack neg (roundUnits (n * 2 ^ 149) d)

/-- The binary32 value nearest to the rational `x`; an exact zero is `+0`. -/
def ofRat (x : ℚ) : F32 := ofRatio (decide (x.num < 0)) x.num.natAbs x.den

def neg (x : F32) : F32 := x ^^^ 0x80000000#32

def abs (x : F32) : F32 := x &&& 0x7FFFFFFF#32

/-- `x + y` of finite operands. An exact zero is `+0` unless both operands are negative zeros. -/
def addFinite (x y : F32) : F32 :=
  let z := signedUnits x + signedUnits y
  if z = 0 then pack (signBit x && signBit y) 0 else pack (decide (z < 0)) (roundUnits z.natAbs 1)

/-- `x + y` (43_post_filter.md R174). -/
def add (x y : F32) : F32 :=
  if isFinite x then
    if isFinite y then addFinite x y else if isNaN y then nan else y
  else if isNaN x then nan
  else if isFinite y then x
  else if isNaN y || signBit x != signBit y then nan else x

/-- `x − y`. -/
def sub (x y : F32) : F32 := add x (neg y)

/-- `x · y`. -/
def mul (x y : F32) : F32 :=
  let s := signBit x != signBit y
  if isFinite x && isFinite y then pack s (roundUnits (units x * units y) (2 ^ 149))
  else if isNaN x || isNaN y || units x == 0 || units y == 0 then nan
  else inf s

/-- `x / y`. -/
def div (x y : F32) : F32 :=
  let s := signBit x != signBit y
  if isNaN x || isNaN y then nan
  else if isFinite x then
    if !isFinite y then pack s 0
    else if units y == 0 then (if units x == 0 then nan else inf s)
    else pack s (roundUnits (units x * 2 ^ 149) (units y))
  else if isFinite y then inf s else nan

/-- `x < y`; `−0` and `+0` compare equal, a NaN compares false (43_post_filter.md R174). -/
def lt (x y : F32) : Bool := !isNaN x && !isNaN y && decide (signedUnits x < signedUnits y)

/-- `real(n)` (00_scope.md R13). -/
def ofNat (n : Nat) : F32 := ofRatio false n 1

/-- The denormal guard `ftz` (43_post_filter.md R168): a nonzero magnitude below 2^-126 becomes `+0`. -/
def ftz (x : F32) : F32 := if isSubnormal x then 0#32 else x

/-- `cvt_u32` (41_phase_accumulator.md R123): truncate, saturate at 2^32. Only finite `x ≥ 0` is converted by the
block; below 0 the result is 0 (log entry 14). -/
def cvtU32 (x : F32) : U32 :=
  if (2 ^ 32 : Int) * 2 ^ 149 ≤ signedUnits x then 0xFFFFFFFF#32
  else BitVec.ofNat 32 ((signedUnits x).toNat / 2 ^ 149)

end Sys2Proof.Binary32
end

