-- ==== Sys2Proof/Machine/Reference.lean ====
section
/-! DEFINITION. The reference meaning of the functions of `NUM` (00_scope.md R11: "the exact real function"), on
rationals, in fixed point with 512 fraction bits: each value is within about 2^-500 of the exact real one, relative
to the scale of its argument reduction (log entry 2). Exact cases (`sin 0`, `cos 0`, `sin π`, `2^n`, `log 1`, square
roots of squares) come out exact. -/

namespace Sys2Proof.Reference

/-- `π` with 512 fraction bits. -/
def fixPi : Nat := 0x3243f6a8885a308d313198a2e03707344a4093822299f31d0082efa98ec4e6c89452821e638d01377be5466cf34e90c6cc0ac29b7c97c50dd3f84d5b5b5470917

/-- `ln 2` with 512 fraction bits. -/
def fixLn2 : Nat := 0xb17217f7d1cf79abc9e3b39803f2f6af40f343267298b62d8a0d175b8baafa2be7b876206debac98559552fb4afa1b10ed2eae35c138214427573b291169b825

/-- 1 with 512 fraction bits. -/
def fixOne : Nat := 2 ^ 512

/-- `x` with 512 fraction bits, rounded down; exact for every finite binary32 value. -/
def toFix (x : ℚ) : Int := x.num * (fixOne : Int) / (x.den : Int)

/-- The rational `a / 2^512`. -/
def ofFix (a : Int) : ℚ := (a : ℚ) / (fixOne : ℚ)

/-- `Σ (−1)^j t_(k+2j)`, where each term is the one before times `r² / ((k+1)(k+2))`: the sine series from `t = r`,
`k = 1`, the cosine series from `t = 1`, `k = 0`. -/
def trigSeries (r2 : Nat) : Nat → Nat → Nat → Int
  | 0, _, _ => 0
  | fuel + 1, k, t => (t : Int) - trigSeries r2 fuel (k + 2) (t * r2 / fixOne / ((k + 1) * (k + 2)))

/-- `(sin r, cos r)` for `0 ≤ r ≤ π/2`. -/
def fixSinCosQuarter (r : Nat) : Int × Int :=
  let r2 := r * r / fixOne
  (trigSeries r2 64 1 r, trigSeries r2 64 0 fixOne)

/-- `(sin a, cos a)` for any `a ≥ 0`, reduced by quarter turns. -/
def fixSinCos (a : Nat) : Int × Int :=
  let sc := fixSinCosQuarter ((a * 2 % fixPi) / 2)
  match a * 2 / fixPi % 4 with
  | 0 => (sc.1, sc.2)
  | 1 => (sc.2, -sc.1)
  | 2 => (-sc.1, -sc.2)
  | _ => (-sc.2, sc.1)

def sin (x : ℚ) : ℚ :=
  let s := (fixSinCos (toFix |x|).toNat).1
  ofFix (if x < 0 then -s else s)

def cos (x : ℚ) : ℚ := ofFix (fixSinCos (toFix |x|).toNat).2

/-- `sin / cos`; where the reference cosine is 0, log entry 20. -/
def tan (x : ℚ) : ℚ :=
  let sc := fixSinCos (toFix |x|).toNat
  let t := (sc.1 : ℚ) / (sc.2 : ℚ)
  if x < 0 then -t else t

/-- `Σ t_(k+j)`, each term the one before times `r / (k+1)`: the exponential series. -/
def expSeries (r : Nat) : Nat → Nat → Nat → Nat
  | 0, _, _ => 0
  | fuel + 1, k, t => t + expSeries r fuel (k + 1) (t * r / fixOne / (k + 1))

/-- `2^k · (m / 2^512)`; beyond `|k| = 4096`, past every format and every clamp, `k` saturates. -/
def scaleExp (k : Int) (m : Nat) : ℚ :=
  if 0 ≤ k then (m : ℚ) * 2 ^ (min k 4096).toNat / (fixOne : ℚ)
  else (m : ℚ) / ((fixOne : ℚ) * 2 ^ (min (-k) 4096).toNat)

/-- `2^x = 2^⌊x⌋ · e^(frac(x) · ln 2)`. -/
def exp2 (x : ℚ) : ℚ :=
  let a := toFix x
  scaleExp (a / (fixOne : Int)) (expSeries ((a % (fixOne : Int)).toNat * fixLn2 / fixOne) 128 0 fixOne)

/-- `e^x = 2^k · e^(x − k · ln 2)`. -/
def exp (x : ℚ) : ℚ :=
  let a := toFix x
  scaleExp (a / (fixLn2 : Int)) (expSeries (a % (fixLn2 : Int)).toNat 128 0 fixOne)

/-- `Σ z^k / k` over odd `k`, signs alternating when `alt`: the series of `artanh z`, and of `arctan z`. -/
def oddSeries (alt : Bool) (z2 : Nat) : Nat → Nat → Nat → Int
  | 0, _, _ => 0
  | fuel + 1, k, t =>
    let rest := oddSeries alt z2 fuel (k + 2) (t * z2 / fixOne)
    (t / k : Nat) + if alt then -rest else rest

/-- `ln x` for `x > 0` (of another `x`, log entry 20): with `x = m · 2^e`, `1 ≤ m < 4`, `2 · artanh((m − 1)/(m + 1)) + e · ln 2`. -/
def log (x : ℚ) : ℚ :=
  let e : Int := (Nat.log2 x.num.toNat : Int) - (Nat.log2 x.den : Int) - 1
  let m : ℚ := if 0 ≤ e then x / 2 ^ e.toNat else x * 2 ^ (-e).toNat
  let e' : Int := if m < 2 then e else e + 1
  let m' : ℚ := if m < 2 then m else m / 2
  let z := (toFix ((m' - 1) / (m' + 1))).toNat
  ofFix (2 * oddSeries false (z * z / fixOne) 180 1 z + e' * (fixLn2 : Int))

/-- `√x` for `x ≥ 0` (of another `x`, log entry 20). -/
def sqrt (x : ℚ) : ℚ := ofFix (Nat.sqrt ((toFix x).toNat * fixOne) : Nat)

/-- `t / (1 + √(1 + t²))`, the tangent of half the angle. -/
def fixHalfAngle (t : Nat) : Nat := t * fixOne / (fixOne + Nat.sqrt (fixOne * fixOne + t * t))

/-- `arctan t` for `0 ≤ t ≤ 1`, by two halvings of the angle. -/
def fixArctan (t : Nat) : Int :=
  let z := fixHalfAngle (fixHalfAngle t)
  4 * oddSeries true (z * z / fixOne) 128 1 z

/-- `atan2 y x`, the principal value in `(−π, π]` (40_kernel_build.md R104); of two zeros, where there is none, 0 (log
entry 20). -/
def atan2 (y x : ℚ) : ℚ :=
  let a : Int :=
    if |y| ≤ |x| then fixArctan (toFix (|y| / |x|)).toNat
    else ((fixPi / 2 : Nat) : Int) - fixArctan (toFix (|x| / |y|)).toNat
  let b : Int := if x < 0 then (fixPi : Int) - a else a
  ofFix (if y < 0 then -b else b)

/-- The functions of `NUM` by their reference values (00_scope.md R11). -/
def fns : NumFns ℚ :=
  { pi := ofFix fixPi
    tan := tan
    sin := sin
    cos := cos
    exp2 := exp2
    log := log
    atan2 := atan2
    exp := exp
    sqrt := sqrt }

end Sys2Proof.Reference
end

