-- ==== Sys2Proof/Machine/Exact.lean ====
section
/-! DEFINITION. The second instantiation of `NUM` that 00_scope.md R13 names: exact arithmetic, no rounding, `ftz`
the identity. It is over the rationals, which the four operations and every binary32 operand stay inside; the
functions, which do not, are an argument. -/

namespace Sys2Proof.Machine

/-- Exact arithmetic on rationals with the functions `f` (00_scope.md R11, R13; log entry 15). A rational is always
a real number, so every value is finite (44_render_and_control.md R186). -/
def numExact (f : NumFns ℚ) : Num ℚ :=
  { f with
    add := fun x y => x + y
    sub := fun x y => x - y
    mul := fun x y => x * y
    div := fun x y => x / y
    neg := fun x => -x
    abs := fun x => |x|
    ofNat := fun n => (n : ℚ)
    lit := fun n d => (n : ℚ) / d
    lt := fun x y => decide (x < y)
    isFinite := fun _ => true
    ftz := fun x => x
    cvtU32 := fun x => if 2 ^ 32 ≤ x then 0xFFFFFFFF#32 else BitVec.ofNat 32 x.floor.toNat
    ofPattern := Binary32.toRat
    toPort := PortValue.real }

/-- The reference evaluation: exact arithmetic with the reference functions. -/
def numReference : Num ℚ := numExact Reference.fns

end Sys2Proof.Machine
end

