-- ==== Sys2Proof/Machine/Notes.lean ====
section
/-! DEFINITION. The micro-operation MAP and the frequency DESIGN and TICK use (44_render_and_control.md R183, R184;
43_post_filter.md R157), over any `NUM`. -/

namespace Sys2Proof.Machine

variable {α : Type} (N : Num α)

/-- MAP(note) `= 440 · 2^((note − 69)/12)`, evaluated subtract, divide, exp2, multiply (44_render_and_control.md R183). -/
def mapNote (note : α) : α :=
  N.mul (N.ofNat 440) (N.exp2 (N.div (N.sub note (N.ofNat 69)) (N.ofNat 12)))

/-- The frequency in Hz a TICK uses: MAP of the operand in note mode, else the operand (R184). -/
def tickHz (cfg : OscParams) (f : α) : α := if cfg.noteMode then mapNote N f else f

/-- Whether DESIGN converts its operand first: only in note mode with `DESIGN_MAPPED = 1` (43_post_filter.md R157). -/
def designMaps (cfg : OscParams) : Bool := cfg.noteMode && cfg.designMapped

/-- The frequency DESIGN scales (R157; log entry 3). -/
def designHz (mapped : Bool) (f0 : α) : α := if mapped then mapNote N f0 else f0

end Sys2Proof.Machine
end

