-- ==== Sys2Proof/Machine/State.lean ====
section
/-! DEFINITION. The state of the block (10_state.md R20 to R29) over any `NUM`, the machine's state, the outcomes'
reasons (60_exceptions.md R202), and the state after the global reset (10_state.md R31, 70_reset_and_hazards.md R220). -/

namespace Sys2Proof.Machine

/-- One address space of the kernel store (20_memory.md R50): pairs of an entry index and the `NUM` value there,
indices strictly rising. An unlisted entry has no value (10_state.md R32). -/
abbrev Memory (α : Type) := List (Nat × α)

/-- `VOICE[i]` (10_state.md R25). -/
structure Voice (α : Type) where
  /-- `IDX`, index into `IMPULSE` of the next sample this voice contributes. -/
  idx : BitVec 12
  /-- `FRAC`, the interpolation weight. -/
  frac : α
  /-- `AMP`, the polarity scale copied at retarget. -/
  amp : α
  deriving DecidableEq, Repr

/-- The five tunable quantities of a filter section (10_state.md R26). -/
structure Coeffs (α : Type) where
  ar : α
  ai : α
  c0 : α
  c1 : α
  c2 : α
  deriving DecidableEq, Repr

/-- `SEC[j]` (10_state.md R26). -/
structure FilterSection (α : Type) where
  /-- `TGT`, written by DESIGN. -/
  tgt : Coeffs α
  /-- `CUR`, the smoothed copy FILT uses. -/
  cur : Coeffs α
  s1 : α
  s2 : α
  deriving DecidableEq, Repr

/-- One oscillator: everything 10_state.md R20 gives an instance, its construction parameters (log entry 6),
and the values its output port has carried, oldest first (log entry 10). -/
structure Oscillator (α : Type) where
  cfg : OscParams
  /-- `PHASE` (R21). -/
  phase : U32
  /-- `POLSCALE` (R21). -/
  polscale : α
  /-- `NEXTVOICE` (R21). -/
  nextvoice : BitVec 3
  /-- `SR` (R21). -/
  sr : α
  /-- `ALT` (R23). -/
  alt : Bool
  /-- `SRSET` (R23). -/
  srset : Bool
  /-- `VOICE[0 .. 7]` (R25). -/
  voice : Vector (Voice α) 8
  /-- `SEC[0 .. 2]` (R26). -/
  sec : Vector (FilterSection α) 3
  /-- The output port's values so far (30_encoding.md R77); nothing in the block reads it. -/
  output : List (PortValue α)
  deriving DecidableEq, Repr

/-- The kernel store, shared by every oscillator (10_state.md R27). -/
structure KernelStore (α : Type) where
  impulse : Memory α
  step : Memory α
  built : Bool
  deriving DecidableEq, Repr

/-- What reaches the block from outside, in order (70_reset_and_hazards.md R225; log entry 9). -/
inductive Input where
  /-- A command word on the current oscillator's port (30_encoding.md R70). -/
  | command (w : CommandWord)
  /-- The words that follow arrive on the port of oscillator `n` of the bank (60_exceptions.md R209). -/
  | select (n : Nat)
  /-- The reset of the current oscillator (70_reset_and_hazards.md R221). -/
  | oscReset
  /-- The global reset (70_reset_and_hazards.md R220, R221). -/
  | globalReset
  deriving DecidableEq, Repr

/-- The block: all its state, with the parameters that stand beside it (10_state.md R20; log entry 6), over any
`NUM` (00_scope.md R11). -/
structure Block (α : Type) where
  /-- The parameter `THETA` (00_scope.md R11), changed by nothing. -/
  theta : Vector Angle 3
  kernel : KernelStore α
  /-- The oscillator on whose port the next command word arrives. -/
  osc : Oscillator α
  /-- The other oscillators: `NINST` is one more than their number. -/
  bank : List (Oscillator α)
  deriving DecidableEq, Repr

/-- The machine: the block with the default `NUM`, and what the host has still to send, first item first. -/
structure State extends Block F32 where
  inputs : List Input
  deriving DecidableEq, Repr

/-- The model's faults, exactly the table of 60_exceptions.md R202. Each is a stop where the block's behaviour is
not defined, so each is safe: it forbids a conclusion and asserts none. -/
inductive Fault where
  /-- `F_ILLCMD`, raised by `step` on a word that matches no pattern (30_encoding.md R74). Safe. -/
  | illCmd
  /-- `F_NOKERNEL`, raised by TICK with `BUILT = 0`, and by a read of an entry that has no value (log entry 8). Safe. -/
  | noKernel
  /-- `F_NOSR`, raised by DESIGN and TICK with `SRSET = 0`. Safe. -/
  | noSr
  /-- `F_BADSR`, raised by SETSR on an operand `≤ 0`. Safe. -/
  | badSr
  /-- `F_NONFINITE`, raised by SETSR, DESIGN, TICK on a non-finite operand or a non-finite value they would write
  to state or to the output port. Safe. -/
  | nonFinite
  /-- `F_OOB`, raised by TICK on a table index outside `0 .. 4095`. Safe. -/
  | oob
  deriving DecidableEq, Repr

/-- Inputs the model refuses before any command runs. -/
inductive Refusal where
  /-- An instruction with no meaning yet, raised by `exec`. Safe. -/
  | notModelled (mnemonic : String)
  /-- A choice of a port that does not exist, raised by `step` and by a run (log entry 11). Safe. -/
  | noSuchPort
  /-- A `THETA[k]` with sine 0, refused when the block is constructed, and by every step and run of a block that
  holds one (43_post_filter.md R173; log entry 5). Safe. -/
  | illegalTheta
  /-- A `KROM` with an entry that is not finite, refused when the block is constructed, and so by every run with it
  (40_kernel_build.md R109 P6, 93 entry U9; log entry 4). Safe. -/
  | illegalKrom
  deriving DecidableEq, Repr

/-- A voice slot never retargeted since reset (10_state.md R31): `{IDX 4032, FRAC 0, AMP 0}`. -/
def Voice.reset {α : Type} (zero : α) : Voice α := { idx := 4032#12, frac := zero, amp := zero }

/-- All five quantities 0 (10_state.md R31). -/
def Coeffs.reset {α : Type} (zero : α) : Coeffs α := { ar := zero, ai := zero, c0 := zero, c1 := zero, c2 := zero }

/-- Targets, current values and state all 0 (10_state.md R31). -/
def FilterSection.reset {α : Type} (zero : α) : FilterSection α :=
  { tgt := Coeffs.reset zero, cur := Coeffs.reset zero, s1 := zero, s2 := zero }

/-- An oscillator right after its reset (10_state.md R31; 70_reset_and_hazards.md R221), `zero` and `one` the `NUM`
values 0 and 1; `SR` has no value in the spec and holds +0 here (log entry 7). What the host has received is the
host's and is kept. -/
def Oscillator.reset {α : Type} (zero one : α) (cfg : OscParams) (output : List (PortValue α)) : Oscillator α :=
  { cfg := cfg
    phase := 0x00000000#32
    polscale := one
    nextvoice := 7#3
    sr := zero
    alt := cfg.altDefault
    srset := false
    voice := #v[Voice.reset zero, Voice.reset zero, Voice.reset zero, Voice.reset zero,
                Voice.reset zero, Voice.reset zero, Voice.reset zero, Voice.reset zero]
    sec := #v[FilterSection.reset zero, FilterSection.reset zero, FilterSection.reset zero]
    output := output }

/-- The kernel store after the global reset: no entry has a value, `BUILT = 0` (10_state.md R31). -/
def KernelStore.reset {α : Type} : KernelStore α := { impulse := [], step := [], built := false }

/-- The machine right after the global reset: one oscillator with the default parameters, `+0` and `+1` as binary32
patterns, nothing sent. -/
def State.reset : State :=
  { theta := Config.thetaDefault
    kernel := KernelStore.reset
    osc := Oscillator.reset 0x00000000#32 0x3F800000#32 Config.oscDefault []
    bank := []
    inputs := [] }

end Sys2Proof.Machine
end

