-- ==== Sys2Proof/Machine/Flags.lean ====
section
/-! DEFINITION. The three flags (10_state.md R23) and the predicates a command computes and consumes (10_state.md
R23, 44_render_and_control.md R187). None is a condition code. -/

namespace Sys2Proof.Machine

/-- `ALT <- b` (44_render_and_control.md R181). -/
def setAlt {α : Type} (b : Bool) (o : Oscillator α) : Oscillator α := { o with alt := b }

/-- `SR <- sr; SRSET <- 1` (44_render_and_control.md R180). -/
def setRate {α : Type} (sr : α) (o : Oscillator α) : Oscillator α := { o with sr := sr, srset := true }

/-- The wrap test `newPhase < oldPhase`, unsigned (41_phase_accumulator.md R125). -/
def wraps (oldPhase newPhase : U32) : Bool := newPhase.ult oldPhase

/-- The advance test `IDX + S + 1 < N`, without wraparound (42_playback_mixer.md R143). When it fails the voice is
frozen. -/
def advances (idx : BitVec 12) : Bool := decide (idx.toNat + Config.oversample + 1 < Config.tableLen)

end Sys2Proof.Machine
end

