-- ==== Sys2Proof/Machine/Transcendental.lean ====
section
/-! DEFINITION. The functions of the default `NUM` (00_scope.md R11: "the exact real function, then rounded"): the
reference value, rounded once to binary32 (log entry 2). An operand outside a function's domain, an infinity or a
NaN gives NaN, which no command writes; that, and the sign of a zero result, are the model's choice (log entry 20). -/

namespace Sys2Proof.Binary32

/-- The reference function, then one rounding; a zero is returned as it is (`sin`, `tan`, `sqrt` keep its sign). -/
def roundedOdd (f : ℚ → ℚ) (x : F32) : F32 :=
  if isFinite x then (if units x = 0 then x else ofRat (f (toRat x))) else nan

/-- The reference function, then one rounding. -/
def rounded (f : ℚ → ℚ) (x : F32) : F32 := if isFinite x then ofRat (f (toRat x)) else nan

/-- `NUM.tan`. -/
def tan (x : F32) : F32 := roundedOdd Reference.tan x

/-- `NUM.sin`. -/
def sin (x : F32) : F32 := roundedOdd Reference.sin x

/-- `NUM.cos`. -/
def cos (x : F32) : F32 := rounded Reference.cos x

/-- `NUM.exp2`. -/
def exp2 (x : F32) : F32 := rounded Reference.exp2 x

/-- `NUM.exp`. -/
def exp (x : F32) : F32 := rounded Reference.exp x

/-- `NUM.log`; of a zero, which has no logarithm, the negative infinity (log entry 20). -/
def log (x : F32) : F32 :=
  if isFinite x && units x == 0 then inf true else if signBit x then nan else rounded Reference.log x

/-- `NUM.sqrt`. -/
def sqrt (x : F32) : F32 := if signBit x && units x != 0 then nan else roundedOdd Reference.sqrt x

/-- `NUM.atan2 y x`, the principal value in `(−π, π]` (40_kernel_build.md R104): `π` for a zero `y` of either sign and
`x` below 0. For a zero `y` and any other `x` the result is `y` itself, so of zeros the sign of `y`, and that with both
operands zero, where there is no exact value, is the model's choice (log entry 20). -/
def atan2 (y x : F32) : F32 :=
  if isFinite y && isFinite x then
    if units y = 0 then
      if signedUnits x < 0 then ofRat Reference.fns.pi else y
    else ofRat (Reference.atan2 (toRat y) (toRat x))
  else nan

end Sys2Proof.Binary32

namespace Sys2Proof.Machine

/-- The default `NUM` of 00_scope.md R11: IEEE 754 binary32, round to nearest even (log entry 1). -/
def num32 : Num F32 :=
  { pi := Binary32.ofRat Reference.fns.pi
    tan := Binary32.tan
    sin := Binary32.sin
    cos := Binary32.cos
    exp2 := Binary32.exp2
    log := Binary32.log
    atan2 := Binary32.atan2
    exp := Binary32.exp
    sqrt := Binary32.sqrt
    add := Binary32.add
    sub := Binary32.sub
    mul := Binary32.mul
    div := Binary32.div
    neg := Binary32.neg
    abs := Binary32.abs
    ofNat := Binary32.ofNat
    lit := Binary32.ofRatio false
    lt := Binary32.lt
    isFinite := Binary32.isFinite
    ftz := Binary32.ftz
    cvtU32 := Binary32.cvtU32
    ofPattern := fun x => x
    toPort := PortValue.pattern }

end Sys2Proof.Machine
end

