-- ==== Sys2Proof/Machine/Operands.lean ====
section
/-! DEFINITION. The operand types of 30_encoding.md R71 and the domain each puts on a command (44_render_and_control.md R186). -/

namespace Sys2Proof.Machine

variable {α : Type} (N : Num α)

/-- The value a rule writes or outputs must be finite (43_post_filter.md R174); otherwise `F_NONFINITE`. -/
def finiteResult (x : α) : Except Fault α := if N.isFinite x then .ok x else .error .nonFinite

/-- A `real` operand must be finite, and is the `NUM` value its pattern denotes (30_encoding.md R71); otherwise
`F_NONFINITE` (44_render_and_control.md R186). -/
def realOperand (x : F32) : Except Fault α :=
  if Binary32.isFinite x then finiteResult N (N.ofPattern x) else .error .nonFinite

/-- The `real` operand of SETSR: finite, then above zero, `−0` and `+0` excluded (44_render_and_control.md R180, R186). -/
def rateOperand (sr : F32) : Except Fault α :=
  match realOperand N sr with
  | .error e => .error e
  | .ok sr => if N.lt (N.ofNat 0) sr then .ok sr else .error .badSr

/-- The `u32` operand of SETPHASE with bits 5 to 0 cleared (44_render_and_control.md R182). -/
def phaseOperand (p : U32) : U32 := p &&& 0xFFFFFFC0#32

end Sys2Proof.Machine
end

