-- ==== Sys2Proof/Machine/Params.lean ====
section
/-! DEFINITION. The parameters of the block that are functions or tables, in one argument of every command
(00_scope.md R11: "a model takes each as an argument"), and which prototype angles and which tables are legal. The
parameters that are plain data, `THETA` and the construction parameters of R10, stand in the block itself. -/

namespace Sys2Proof.Machine

/-- `NUM` with its functions, `KROM`, and the configuration function of DESIGN (00_scope.md R11; 43_post_filter.md
R164). -/
structure Params (α : Type) extends Num α where
  /-- The map `(f0, SR) ↦ targets`, "one configuration function" (43_post_filter.md R164): given `THETA`, whether the
  operand is converted by MAP first, `SR` and the operand. A target that is no real number is the fault. -/
  designMap : Vector Angle 3 → Bool → α → α → Except Fault (Vector (Coeffs α) 3)
  /-- `KROM.IMPULSE` (40_kernel_build.md R100). -/
  kromImpulse : Nat → α
  /-- `KROM.STEP`. -/
  kromStep : Nat → α

/-- `x = 0`, by the order; a value that no order relates to 0 counts as 0. -/
def isZero {α : Type} (N : Num α) (x : α) : Bool := !N.lt x (N.ofNat 0) && !N.lt (N.ofNat 0) x

/-- `sin(theta) ≠ 0` (43_post_filter.md R173 (a)), decided exactly: `n · π / d` has sine 0 when `d` divides `n`; of the
rationals, only 0 has (log entry 5). With `d = 0` there is no angle. -/
def legalAngle : Angle → Bool
  | .piMultiple n d => d != 0 && n % (d : Int) != 0
  | .value x => x != 0

/-- All three prototype angles are legal (R159, R173). -/
def legalTheta (t : Vector Angle 3) : Bool := legalAngle t[0] && legalAngle t[1] && legalAngle t[2]

/-- Every entry of the table is finite (40_kernel_build.md R109 P6); a model must refuse one that is not (93 entry U9). -/
def legalKrom {α : Type} (P : Params α) : Bool :=
  (List.range Config.tableLen).all fun i => P.isFinite (P.kromImpulse i) && P.isFinite (P.kromStep i)

end Sys2Proof.Machine
end

