-- ==== Sys2Proof/Machine/Ops.lean ====
section
/-! DEFINITION. The named operations over the kernel store, the voice file, the ports and the resets. The block has
no exception, no trap and no return from one (60_exceptions.md R200, R205), so there is no operation that takes an
exception; a model fault (R202) ends the run and leaves no state. -/

namespace Sys2Proof.Machine

variable {α : Type}

/-! ## The kernel store -/

/-- The value at entry `i` of an address space, if it has one. -/
def memRead : Memory α → Nat → Option α
  | [], _ => none
  | (k, v) :: m, i => if i = k then some v else memRead m i

/-- `MemWrite(space, i, v)` (00_scope.md R14), which keeps the indices strictly rising. -/
def memWrite : Memory α → Nat → α → Memory α
  | [], i, v => [(i, v)]
  | (k, w) :: m, i, v =>
    if i < k then (i, v) :: (k, w) :: m
    else if i = k then (i, v) :: m
    else (k, w) :: memWrite m i v

/-- The canonical form: indices strictly rising, every one in `0 .. N−1` (20_memory.md R50, R56). -/
def memWf (m : Memory α) : Bool := decide (m.Pairwise fun a b => a.1 < b.1) && m.all fun c => decide (c.1 < Config.tableLen)

/-- What `for i = 0 to N−1: MemWrite(space, i, f i)` leaves in a space, whatever it held (40_kernel_build.md R101). -/
def filledSpace (f : Nat → α) : Memory α := (List.range Config.tableLen).map fun i => (i, f i)

/-- `MemRead(IMPULSE, i)` (00_scope.md R14): `F_OOB` outside `0 .. N−1` (20_memory.md R54); an entry with no value is
the unbuilt kernel (10_state.md R32; log entry 8). -/
def readImpulse (m : Memory α) (i : Nat) : Except Fault α :=
  if Config.tableLen ≤ i then .error .oob
  else match memRead m i with
    | some v => .ok v
    | none => .error .noKernel

/-- The store after the writes of BUILD: every entry of both spaces, then `BUILT <- 1` (40_kernel_build.md R101,
20_memory.md R58 item 2). -/
def builtStore (P : Params α) : KernelStore α :=
  { impulse := filledSpace P.kromImpulse, step := filledSpace P.kromStep, built := true }

/-! ## The voice file and the filter file -/

/-- Apply `f` to every slot of the voice file. -/
def mapVoices (f : Voice α → Voice α) (v : Vector (Voice α) 8) : Vector (Voice α) 8 := ⟨⟨v.toList.map f⟩, by simp⟩

/-- Overwrite slot `i` of the voice file, `i = 0 .. 7`. -/
def putVoice (v : Vector (Voice α) 8) (i : BitVec 3) (x : Voice α) : Vector (Voice α) 8 := v.set i.toNat x i.isLt

/-- Slot `i` of the voice file. -/
def getVoice (v : Vector (Voice α) 8) (i : BitVec 3) : Voice α := v[i.toNat]'i.isLt

/-- The five quantities are finite. -/
def coeffsFinite (N : Num α) (c : Coeffs α) : Bool :=
  N.isFinite c.ar && N.isFinite c.ai && N.isFinite c.c0 && N.isFinite c.c1 && N.isFinite c.c2

/-- The values FILT writes to a section are finite (43_post_filter.md R174). -/
def sectionFinite (N : Num α) (s : FilterSection α) : Bool :=
  coeffsFinite N s.cur && N.isFinite s.s1 && N.isFinite s.s2

/-- The values FILT writes to the filter file are finite. -/
def sectionsFinite (N : Num α) (v : Vector (FilterSection α) 3) : Bool :=
  sectionFinite N v[0] && sectionFinite N v[1] && sectionFinite N v[2]

/-- The fifteen targets, if DESIGN may store them: each must be finite (44_render_and_control.md R186). -/
def finiteTargets (N : Num α) (t : Vector (Coeffs α) 3) : Except Fault (Vector (Coeffs α) 3) :=
  if coeffsFinite N t[0] && coeffsFinite N t[1] && coeffsFinite N t[2] then .ok t else .error .nonFinite

/-! ## The oscillator, its output port, and outcomes -/

/-- Replace the current oscillator. -/
def withOsc (o : Oscillator α) (b : Block α) : Block α := { b with osc := o }

/-- Replace the kernel store. -/
def withKernel (k : KernelStore α) (b : Block α) : Block α := { b with kernel := k }

/-- What the output port carries is a real number. -/
def portFinite (N : Num α) : PortValue α → Bool
  | .pattern p => Binary32.isFinite p
  | .real x => N.isFinite x

/-- What the output port carries for `v`, the binary32 pattern or with exact reals the real (30_encoding.md R77; log
entry 21); value and pattern must be finite (43_post_filter.md R174). -/
def portValue (N : Num α) (v : α) : Except Fault (PortValue α) :=
  if N.isFinite v && portFinite N (N.toPort v) then .ok (N.toPort v) else .error .nonFinite

/-- `out(v)` (00_scope.md R14), `v` in the port's form: the output port carries one more value (30_encoding.md R77). -/
def emit (v : PortValue α) (o : Oscillator α) : Oscillator α := { o with output := o.output ++ [v] }

/-- The outcome of a command of the machine: the block at the command's end, or its fault and no state
(60_exceptions.md R202, R203). -/
def onBlock (s : State) : Except Fault (Block F32) → Host.Outcome State Fault Refusal
  | .ok b => .next { s with toBlock := b }
  | .error e => .fault e

/-! ## Construction, resets and ports -/

/-- The oscillator's reset (70_reset_and_hazards.md R221): its construction parameters stay. -/
def resetOsc (N : Num α) (o : Oscillator α) : Oscillator α := Oscillator.reset (N.ofNat 0) (N.ofNat 1) o.cfg o.output

/-- The reset of the current oscillator (70_reset_and_hazards.md R221): the store and the parameters stay. -/
def oscReset (N : Num α) (b : Block α) : Block α := { b with osc := resetOsc N b.osc }

/-- The global reset (70_reset_and_hazards.md R220, R221): every oscillator and the store; parameters stay. -/
def globalReset (N : Num α) (b : Block α) : Block α :=
  { b with kernel := KernelStore.reset, osc := resetOsc N b.osc, bank := b.bank.map (resetOsc N) }

/-- The block constructed with the parameters `P`, the prototype angles `theta` and one oscillator for each of `cfg` and
`cfgs` (00_scope.md R10, R11), right after its global reset. An illegal angle is refused (43_post_filter.md R173 (a), 93
entry U8), and then a table with an entry that is not finite (40_kernel_build.md R109 P6, 93 entry U9). -/
def construct (P : Params α) (theta : Vector Angle 3) (cfg : OscParams) (cfgs : List OscParams) :
    Except Refusal (Block α) :=
  if legalTheta theta then
    if legalKrom P then
      .ok { theta := theta
            kernel := KernelStore.reset
            osc := Oscillator.reset (P.ofNat 0) (P.ofNat 1) cfg []
            bank := cfgs.map fun c => Oscillator.reset (P.ofNat 0) (P.ofNat 1) c [] }
    else .error .illegalKrom
  else .error .illegalTheta

/-- The next words arrive on the port of oscillator `n` of the bank, which changes places with the current one
(60_exceptions.md R209; log entry 11). There must be such a port. -/
def choosePort (n : Nat) (b : Block α) : Except Refusal (Block α) :=
  match b.bank[n]? with
  | some o => .ok { b with osc := o, bank := b.bank.set n b.osc }
  | none => .error .noSuchPort

/-- The choice of a port by the machine. -/
def selectPort (n : Nat) (s : State) : Host.Outcome State Fault Refusal :=
  match choosePort n s.toBlock with
  | .ok b => .next { s with toBlock := b }
  | .error r => .refused r

end Sys2Proof.Machine
end

