-- ==== Sys2Proof/Machine/Filter.lean ====
section
/-! DEFINITION. The adaptive post-filter: the micro-operation FILT and the targets DESIGN computes
(43_post_filter.md), over any `NUM`. -/

namespace Sys2Proof.Machine

variable {α : Type} (N : Num α)

/-! ## FILT -/

/-- `CUR.q + 0.05 · (TGT.q − CUR.q)` (43_post_filter.md R166). -/
def smooth (tgt cur : α) : α := N.add cur (N.mul (N.lit 1 20) (N.sub tgt cur))

/-- The five current quantities, each smoothed toward its target (R166). -/
def smoothCoeffs (tgt cur : Coeffs α) : Coeffs α :=
  { ar := smooth N tgt.ar cur.ar
    ai := smooth N tgt.ai cur.ai
    c0 := smooth N tgt.c0 cur.c0
    c1 := smooth N tgt.c1 cur.c1
    c2 := smooth N tgt.c2 cur.c2 }

/-- `y = (C0 · x + C1 · S1) + C2 · S2`, from the old state (R167). -/
def sectionOut (c : Coeffs α) (s1 s2 x : α) : α :=
  N.add (N.add (N.mul c.c0 x) (N.mul c.c1 s1)) (N.mul c.c2 s2)

/-- `n1 = (AR · S1 + AI · S2) + x`, from the old state (R167). -/
def sectionState1 (c : Coeffs α) (s1 s2 x : α) : α :=
  N.add (N.add (N.mul c.ar s1) (N.mul c.ai s2)) x

/-- `n2 = AR · S2 − AI · S1`, from the old state (R167). -/
def sectionState2 (c : Coeffs α) (s1 s2 : α) : α :=
  N.sub (N.mul c.ar s2) (N.mul c.ai s1)

/-- One section on input `x`: smooth, compute from the smoothed values and the old state, guard (R165 to R168). -/
def filtSection (x : α) (s : FilterSection α) : α × FilterSection α :=
  let c := smoothCoeffs N s.tgt s.cur
  (N.ftz (sectionOut N c s.s1 s.s2 x),
   { s with
     cur := c
     s1 := N.ftz (sectionState1 N c s.s1 s.s2 x)
     s2 := N.ftz (sectionState2 N c s.s1 s.s2) })

/-- FILT(x): the three sections in series (R169). -/
def filt (x : α) (v : Vector (FilterSection α) 3) : α × Vector (FilterSection α) 3 :=
  let r0 := filtSection N x v[0]
  let r1 := filtSection N r0.1 v[1]
  let r2 := filtSection N r1.1 v[2]
  (r2.1, #v[r0.2, r1.2, r2.2])

/-! ## The design step -/

/-- `if x < lo then lo else if x > hi then hi else x` (92_eei_decisions.md D36). -/
def clamp (lo hi x : α) : α := if N.lt x lo then lo else if N.lt hi x then hi else x

/-- `EPS = 1e-4` (00_scope.md R9). -/
def designEps : α := N.lit 1 10000

/-- `0.5 − EPS`, computed in `NUM` (43_post_filter.md R157). -/
def designTop : α := N.sub (N.lit 1 2) (designEps N)

/-- The clamped fraction `fc` of a design frequency `g` (R157). -/
def designFraction (sr g : α) : α :=
  clamp N (designEps N) (designTop N) (N.div (N.mul (N.lit 85 100) g) sr)

/-- The prewarp `w = 2 · tan(π · fc)` (R158). -/
def prewarp (fc : α) : α := N.mul (N.ofNat 2) (N.tan (N.mul N.pi fc))

/-- The prototype pole scaled to the cutoff, `s = w · unit(theta)` (R159, R160). -/
def scaledPole (w theta : α) : Cx α :=
  { re := N.mul w (cxUnit N theta).re, im := N.mul w (cxUnit N theta).im }

/-- The bilinear transform `a = (1 + s/2) / (1 − s/2)` (R160, R164). -/
def bilinear (s : Cx α) : Cx α :=
  cxDiv N
    { re := N.add (N.ofNat 1) (N.div s.re (N.ofNat 2)), im := N.div s.im (N.ofNat 2) }
    { re := N.sub (N.ofNat 1) (N.div s.re (N.ofNat 2)), im := N.neg (N.div s.im (N.ofNat 2)) }

/-- `c1 = 2 · (ar − 1)` (R161). -/
def gain1 (ar : α) : α := N.mul (N.ofNat 2) (N.sub ar (N.ofNat 1))

/-- `c2 = ((ar·ar + ai·ai) − 1 − c1·ar) / ai` (R161). -/
def gain2 (ar ai : α) : α :=
  N.div (N.sub (N.sub (N.add (N.mul ar ar) (N.mul ai ai)) (N.ofNat 1)) (N.mul (gain1 N ar) ar)) ai

/-- `G = 4 / ((1 + ar)·(1 + ar) + ai·ai)` (R162). -/
def nyquistGain (ar ai : α) : α :=
  N.div (N.ofNat 4)
    (N.add (N.mul (N.add (N.ofNat 1) ar) (N.add (N.ofNat 1) ar)) (N.mul ai ai))

/-- The section with pole `a`: its gains, each divided by `G` (R161, R162). -/
def poleTargets (a : Cx α) : Coeffs α :=
  let g := nyquistGain N a.re a.im
  { ar := a.re
    ai := a.im
    c0 := N.div (N.ofNat 1) g
    c1 := N.div (gain1 N a.re) g
    c2 := N.div (gain2 N a.re a.im) g }

/-- The targets of the section with prototype angle `theta` at the prewarped frequency `w` (R164). -/
def sectionTargets (w theta : α) : Coeffs α := poleTargets N (bilinear N (scaledPole N w theta))

/-- The fifteen targets of a design frequency `g` at rate `sr`; section `k` gets prototype pole `k` (R163, R164). -/
def designTargets (theta : Vector α 3) (sr g : α) : Vector (Coeffs α) 3 :=
  let w := prewarp N (designFraction N sr g)
  #v[sectionTargets N w theta[0], sectionTargets N w theta[1], sectionTargets N w theta[2]]

/-- Store the targets; `CUR`, `S1` and `S2` are not touched (R163). -/
def putTargets (t : Vector (Coeffs α) 3) (v : Vector (FilterSection α) 3) : Vector (FilterSection α) 3 :=
  #v[{ v[0] with tgt := t[0] }, { v[1] with tgt := t[1] }, { v[2] with tgt := t[2] }]

/-- The value of a prototype angle (43_post_filter.md R159): `num · π / den`, or the value given, rounded once. -/
def angleValue : Angle → α
  | .piMultiple num den =>
    let a := N.div (N.mul (N.ofNat num.natAbs) N.pi) (N.ofNat den)
    if num < 0 then N.neg a else a
  | .value x =>
    let a := N.lit x.num.natAbs x.den
    if x < 0 then N.neg a else a

/-- The three prototype angles as values. -/
def angleValues (t : Vector Angle 3) : Vector α 3 := #v[angleValue N t[0], angleValue N t[1], angleValue N t[2]]

/-! ## The configuration function of DESIGN -/

/-- The five quantities rounded once to binary32. -/
def roundCoeffs (c : Coeffs ℚ) : Coeffs F32 :=
  { ar := Binary32.ofRat c.ar
    ai := Binary32.ofRat c.ai
    c0 := Binary32.ofRat c.c0
    c1 := Binary32.ofRat c.c1
    c2 := Binary32.ofRat c.c2 }

/-- A section's targets, if `c2` is no division by zero (43_post_filter.md R173 (a)). -/
def dividedCoeffs (c : Coeffs α) : Except Fault (Coeffs α) := if isZero N c.ai then .error .nonFinite else .ok c

/-- All three sections' targets, if none has a division by zero. -/
def dividedTargets (t : Vector (Coeffs α) 3) : Except Fault (Vector (Coeffs α) 3) :=
  match dividedCoeffs N t[0] with
  | .error e => .error e
  | .ok c0 =>
    match dividedCoeffs N t[1] with
    | .error e => .error e
    | .ok c1 =>
      match dividedCoeffs N t[2] with
      | .error e => .error e
      | .ok c2 => .ok #v[c0, c1, c2]

/-- `(f0, SR) ↦ targets` evaluated in `NUM`, the formulas of R157 to R164 step by step; a rate of zero has no quotient. -/
def designInNum (theta : Vector Angle 3) (mapped : Bool) (sr f0 : α) : Except Fault (Vector (Coeffs α) 3) :=
  if isZero N sr then .error .nonFinite
  else dividedTargets N (designTargets N (angleValues N theta) sr (designHz N mapped f0))

/-- `(f0, SR) ↦ targets` as the one configuration function 43_post_filter.md R164 makes of it: its reference value,
the formulas in exact arithmetic, each target rounded once to binary32 (log entry 13). A rate or an operand that is not
finite has no value (log entry 12). -/
def designReference (theta : Vector Angle 3) (mapped : Bool) (sr f0 : F32) : Except Fault (Vector (Coeffs F32) 3) :=
  if Binary32.isFinite sr && Binary32.isFinite f0 then
    match designInNum numReference theta mapped (Binary32.toRat sr) (Binary32.toRat f0) with
    | .error e => .error e
    | .ok t => .ok #v[roundCoeffs t[0], roundCoeffs t[1], roundCoeffs t[2]]
  else .error .nonFinite

end Sys2Proof.Machine
end

