-- ==== Sys2Proof/Machine/Defaults.lean ====
section
/-! DEFINITION. The parameters the machine runs with, the defaults of 00_scope.md R11, and those of the second
instantiation R13 names, exact arithmetic. -/

namespace Sys2Proof.Machine

/-- The default parameters: binary32 (R11; log entry 1), the table of `Config` (log entry 4), and DESIGN by its
reference value (43_post_filter.md R164; log entry 13). -/
def params32 : Params F32 :=
  { num32 with
    designMap := designReference
    kromImpulse := fun i => (Config.kromImpulse i).pattern
    kromStep := fun i => (Config.kromStep i).pattern }

/-- Exact arithmetic (R13) with the functions `f` and the tables `impulse` and `step`, DESIGN evaluated in it (log
entry 15). -/
def paramsExact (f : NumFns ℚ) (impulse step : Nat → ℚ) : Params ℚ :=
  { numExact f with
    designMap := designInNum (numExact f)
    kromImpulse := impulse
    kromStep := step }

end Sys2Proof.Machine
end

