-- ==== Sys2Proof/Machine/Control.lean ====
section
/-! DEFINITION. The configuration commands: BUILD (40_kernel_build.md R101), SETSR, SETALT, SETPHASE
(44_render_and_control.md R180 to R182), each over any parameters, and as the machine runs it. -/

namespace Sys2Proof.Machine

variable {α : Type}

/-- BUILD: the first fills the store, every later one changes nothing (40_kernel_build.md R101). -/
def build (P : Params α) (b : Block α) : Except Fault (Block α) :=
  if b.kernel.built then .ok b else .ok (withKernel (builtStore P) b)

/-- SETSR: `SR <- sr`, `SRSET <- 1`, nothing else (44_render_and_control.md R180). -/
def setsr (P : Params α) (sr : F32) (b : Block α) : Except Fault (Block α) :=
  match rateOperand P.toNum sr with
  | .error e => .error e
  | .ok sr => .ok (withOsc (setRate sr b.osc) b)

/-- SETALT: `ALT <- v`, nothing else (44_render_and_control.md R181). -/
def setalt (v : Bool) (b : Block α) : Except Fault (Block α) := .ok (withOsc (setAlt v b.osc) b)

/-- SETPHASE: `PHASE <- P & 0xFFFFFFC0`, nothing else (44_render_and_control.md R182). -/
def setphase (p : U32) (b : Block α) : Except Fault (Block α) :=
  .ok (withOsc { b.osc with phase := phaseOperand p } b)

/-- BUILD of the machine. -/
def execBuild (s : State) : Host.Outcome State Fault Refusal := onBlock s (build params32 s.toBlock)

/-- SETSR of the machine. -/
def execSetsr (sr : F32) (s : State) : Host.Outcome State Fault Refusal := onBlock s (setsr params32 sr s.toBlock)

/-- SETALT of the machine. -/
def execSetalt (b : Bool) (s : State) : Host.Outcome State Fault Refusal := onBlock s (setalt b s.toBlock)

/-- SETPHASE of the machine. -/
def execSetphase (p : U32) (s : State) : Host.Outcome State Fault Refusal := onBlock s (setphase p s.toBlock)

end Sys2Proof.Machine
end

