-- ==== Sys2Proof/Machine/Accumulator.lean ====
section
/-! DEFINITION. The micro-operation ADV: the phase accumulator and the voice retarget (41_phase_accumulator.md), over
any `NUM`. -/

namespace Sys2Proof.Machine

variable {α : Type} (N : Num α)

/-- `phaseIncScale = (2^32 / SR) · FSCALE` (41_phase_accumulator.md R121). A rate that no SETSR stores is not tested for:
at an infinite `SR` the binary32 quotient is 0, and so is the rational one at `SR = 0`, so the increment is 0 and the
TICK completes (the model's choice, in states no run reaches; log entry 12). -/
def phaseIncScale (sr : α) (fscale : FScale) : α :=
  let scale := N.div (N.ofNat (2 ^ 32)) sr
  match fscale with
  | .one => scale
  | .two => N.mul scale (N.ofNat 2)

/-- `increment = |f| · phaseIncScale` (R122). -/
def increment (sr : α) (fscale : FScale) (f : α) : α :=
  N.mul (N.abs f) (phaseIncScale N sr fscale)

/-- `q = cvt_u32(increment) & 0xFFFFFFC0` (R124). -/
def quantizedIncrement (sr : α) (fscale : FScale) (f : α) : U32 :=
  N.cvtU32 (increment N sr fscale f) &&& 0xFFFFFFC0#32

/-- `d = q div 64`, the decimated increment (R127). -/
def decimatedIncrement (q : U32) : Nat := q.toNat / Config.oversample

/-- `newPhase div d` (R127); it is at most 63 on a wrap, so twelve bits hold it. -/
def retargetIdx (newPhase q : U32) : BitVec 12 := BitVec.ofNat 12 (newPhase.toNat / decimatedIncrement q)

/-- `real(newPhase mod d) / real(d)` (R127). -/
def retargetFrac (newPhase q : U32) : α :=
  N.div (N.ofNat (newPhase.toNat % decimatedIncrement q)) (N.ofNat (decimatedIncrement q))

/-- The retarget of one voice slot on a wrap, with the polarity flip after the amplitude is stored
(R126, R127, R128). -/
def retarget (newPhase q : U32) (o : Oscillator α) : Oscillator α :=
  let v := o.nextvoice + 1#3
  { o with
    nextvoice := v
    voice := putVoice o.voice v
      { idx := retargetIdx newPhase q, frac := retargetFrac N newPhase q, amp := o.polscale }
    polscale := if o.alt then N.neg o.polscale else o.polscale }

/-- ADV of an increment already quantised: the add, the wrap test, the retarget, the store (R125 to R128). -/
def advanced (q : U32) (o : Oscillator α) : Oscillator α :=
  let newPhase := o.phase + q
  if wraps o.phase newPhase then { retarget N newPhase q o with phase := newPhase } else { o with phase := newPhase }

/-- The values ADV writes are real numbers: only the amplitude a wrap stores could fail, in a state no run reaches
(43_post_filter.md R174; log entry 12). -/
def advWritesFinite (q : U32) (o : Oscillator α) : Bool :=
  !wraps o.phase (o.phase + q) || N.isFinite o.polscale

/-- ADV(f) (R129). `phaseIncScale` and `increment` must be finite (44_render_and_control.md R186). -/
def adv (f : α) (o : Oscillator α) : Except Fault (Oscillator α) :=
  if N.isFinite (phaseIncScale N o.sr o.cfg.fscale) then
    if N.isFinite (increment N o.sr o.cfg.fscale f) then
      if advWritesFinite N (quantizedIncrement N o.sr o.cfg.fscale f) o then
        .ok (advanced N (quantizedIncrement N o.sr o.cfg.fscale f) o)
      else .error .nonFinite
    else .error .nonFinite
  else .error .nonFinite

end Sys2Proof.Machine
end

