-- ==== Sys2Proof/Machine/Playback.lean ====
section
/-! DEFINITION. The micro-operation MIX: table interpolator and voice mixer (42_playback_mixer.md), over any
`NUM`. -/

namespace Sys2Proof.Machine

variable {α : Type} (N : Num α)

/-- `val = a + FRAC · (b − a)` (42_playback_mixer.md R141). -/
def interpolate (frac a b : α) : α := N.add a (N.mul frac (N.sub b a))

/-- The two reads of one voice, at `IDX` and `IDX + 1` (R141). -/
def voiceReads (m : Memory α) (v : Voice α) : Except Fault (α × α) :=
  match readImpulse m v.idx.toNat with
  | .error e => .error e
  | .ok a =>
    match readImpulse m (v.idx.toNat + 1) with
    | .error e => .error e
    | .ok b => .ok (a, b)

/-- `sum + AMP · val` for one voice (R142). -/
def addVoice (m : Memory α) (sum : α) (v : Voice α) : Except Fault α :=
  match voiceReads m v with
  | .error e => .error e
  | .ok ab => .ok (N.add sum (N.mul v.amp (interpolate N v.frac ab.1 ab.2)))

/-- The sum over voices in slot order (R142). -/
def sumVoices (m : Memory α) : List (Voice α) → α → Except Fault α
  | [], sum => .ok sum
  | v :: vs, sum =>
    match addVoice N m sum v with
    | .error e => .error e
    | .ok sum' => sumVoices m vs sum'

/-- The advance by `S`, or the freeze (R143). -/
def advanceVoice (v : Voice α) : Voice α :=
  if advances v.idx then { v with idx := v.idx + 64#12 } else v

/-- MIX(): the mixer sum and the voice file after it (R144). Voices do not read each other, so all advance at
once. -/
def mix (m : Memory α) (vs : Vector (Voice α) 8) : Except Fault (α × Vector (Voice α) 8) :=
  match sumVoices N m vs.toList (N.ofNat 0) with
  | .error e => .error e
  | .ok sum => .ok (sum, mapVoices advanceVoice vs)

/-- The condition a host may compute for the advisory notice, `SR / 8 < |f| · FSCALE` (42_playback_mixer.md R145,
60_exceptions.md R208). Nothing in the block reads it. -/
def overlapBudgetExceeded (sr : α) (fscale : FScale) (f : α) : Bool :=
  N.lt (N.div sr (N.ofNat 8)) (N.mul (N.abs f) (N.ofNat (match fscale with | .one => 1 | .two => 2)))

end Sys2Proof.Machine
end

