-- ==== Sys2Proof/Machine/Render.lean ====
section
/-! DEFINITION. The data commands DESIGN (43_post_filter.md R156, R164) and TICK (44_render_and_control.md R184), each
over any parameters, and as the machine runs it. -/

namespace Sys2Proof.Machine

variable {α : Type}

/-- The targets a DESIGN stores: the configuration function's, each finite (43_post_filter.md R164,
44_render_and_control.md R186). -/
def targets (P : Params α) (theta : Vector Angle 3) (cfg : OscParams) (sr f0 : α) :
    Except Fault (Vector (Coeffs α) 3) :=
  match P.designMap theta (designMaps cfg) sr f0 with
  | .error e => .error e
  | .ok t => finiteTargets P.toNum t

/-- DESIGN(f0) (43_post_filter.md R164), its end or its fault. -/
def design (P : Params α) (f0 : F32) (b : Block α) : Except Fault (Block α) :=
  if b.osc.srset then
    match realOperand P.toNum f0 with
    | .error e => .error e
    | .ok f0 =>
      match targets P b.theta b.osc.cfg b.osc.sr f0 with
      | .error e => .error e
      | .ok t => .ok (withOsc { b.osc with sec := putTargets t b.osc.sec } b)
  else .error .noSr

/-- FILT of the mixer sum on the oscillator's filter file; every value it writes must be finite (43_post_filter.md
R169, R174). -/
def filtOsc (N : Num α) (x : α) (o : Oscillator α) : Except Fault (α × Oscillator α) :=
  let r := filt N x o.sec
  if sectionsFinite N r.2 then .ok (r.1, { o with sec := r.2 }) else .error .nonFinite

/-- MIX, then FILT, then ADV, then the output `2 · y` (44_render_and_control.md R184), on an oscillator whose
preconditions hold, `hz` the converted operand. -/
def renderSample (N : Num α) (m : Memory α) (hz : α) (o : Oscillator α) : Except Fault (Oscillator α) :=
  match mix N m o.voice with
  | .error e => .error e
  | .ok mv =>
    match filtOsc N mv.1 { o with voice := mv.2 } with
    | .error e => .error e
    | .ok yo =>
      match adv N hz yo.2 with
      | .error e => .error e
      | .ok o' =>
        match portValue N (N.mul (N.ofNat 2) yo.1) with
        | .error e => .error e
        | .ok v => .ok (emit v o')

/-- TICK(f) (44_render_and_control.md R184), its end or its fault; a fault leaves no part of its effect (log entry
17). -/
def tick (P : Params α) (f : F32) (b : Block α) : Except Fault (Block α) :=
  if b.kernel.built then
    if b.osc.srset then
      match realOperand P.toNum f with
      | .error e => .error e
      | .ok f =>
        match finiteResult P.toNum (tickHz P.toNum b.osc.cfg f) with
        | .error e => .error e
        | .ok hz =>
          match renderSample P.toNum b.kernel.impulse hz b.osc with
          | .error e => .error e
          | .ok o => .ok (withOsc o b)
    else .error .noSr
  else .error .noKernel

/-- DESIGN of the machine. -/
def execDesign (f0 : F32) (s : State) : Host.Outcome State Fault Refusal := onBlock s (design params32 f0 s.toBlock)

/-- TICK of the machine. -/
def execTick (f : F32) (s : State) : Host.Outcome State Fault Refusal := onBlock s (tick params32 f s.toBlock)

end Sys2Proof.Machine
end

