-- ==== Sys2Proof/Machine/Dispatch.lean ====
section
/-! DEFINITION. One arm per command. -/

namespace Sys2Proof.Machine

def exec (i : Instr) (s : State) : Host.Outcome State Fault Refusal :=
  match i with
  | .build => Sys2Proof.Machine.execBuild s
  | .setsr sr => Sys2Proof.Machine.execSetsr sr s
  | .setalt b => Sys2Proof.Machine.execSetalt b s
  | .setphase p => Sys2Proof.Machine.execSetphase p s
  | .design f0 => Sys2Proof.Machine.execDesign f0 s
  | .tick f => Sys2Proof.Machine.execTick f s

end Sys2Proof.Machine
end

