-- ==== Sys2Proof/Machine/Stream.lean ====
section
/-! DEFINITION. What reaches the machine from outside, and what it does with each item (log entry 9). -/

namespace Sys2Proof.Machine

/-- A command word, run to completion (30_encoding.md R70); an illegal word is `F_ILLCMD` (R74). -/
def runWord (w : CommandWord) (s : State) : Host.Outcome State Fault Refusal :=
  match decode w with
  | .ok i => exec i s
  | .error _ => .fault .illCmd

/-- What comes next from outside. With nothing sent, the block is idle and holds its state (60_exceptions.md R204,
R210). -/
def takeInput (s : State) : Host.Outcome State Fault Refusal :=
  match s.inputs with
  | [] => .next s
  | .command w :: rest => runWord w { s with inputs := rest }
  | .select n :: rest => selectPort n { s with inputs := rest }
  | .oscReset :: rest => .next { s with toBlock := oscReset num32 s.toBlock, inputs := rest }
  | .globalReset :: rest => .next { s with toBlock := globalReset num32 s.toBlock, inputs := rest }

end Sys2Proof.Machine
end

