-- ==== Sys2Proof/Machine/Step.lean ====
section
/-! DEFINITION. One step: the block takes what comes next from outside (70_reset_and_hazards.md R225). -/

namespace Sys2Proof.Machine

/-- One step. A block whose prototype angles are not legal cannot be constructed, and takes none (43_post_filter.md
R173 (a); log entry 5). -/
def step (s : State) : Host.Outcome State Fault Refusal :=
  if legalTheta s.theta then takeInput s else .refused .illegalTheta

/-- `s` with a word of the opcode table as the next thing the block takes; what follows it in the stream stays. -/
def State.withFetchWord (s : State) (nbits w : Nat) : State :=
  { s with inputs := .command (tableWord nbits w) :: s.inputs.drop 1 }

end Sys2Proof.Machine
end

