-- ==== Sys2Proof/Machine/Builder.lean ====
section
/-! DEFINITION. The table builder's algorithm, steps 1 to 6 (40_kernel_build.md R102 to R108), over any `NUM` and with
the buffer length `m` an argument (`M = 8192` in the block). It defines which table `KROM` means; the machine takes
the table as a parameter and never runs this (R100, R104, R109). How a transform's sum is evaluated is not in the spec
(R103): here, term by term in increasing index (log entry 16). -/

namespace Sys2Proof.Machine

/-- Step 1: the phase `theta` of index `i`, in `[−π, π]`, even and circularly wrapped (R102). -/
def builderTheta {α : Type} (N : Num α) (m i : Nat) : α :=
  if i ≤ m / 2 then N.div (N.mul (N.mul (N.ofNat 2) N.pi) (N.ofNat i)) (N.ofNat m)
  else N.neg (N.div (N.mul (N.mul (N.ofNat 2) N.pi) (N.ofNat (m - i))) (N.ofNat m))

/-- Step 1: `t = theta · NBPERIODS · M / N` with `NBPERIODS = 25.6` and `N = M / 2` (R102). -/
def builderT {α : Type} (N : Num α) (m i : Nat) : α :=
  N.div (N.mul (N.mul (builderTheta N m i) (N.lit 256 10)) (N.ofNat m)) (N.ofNat (m / 2))

/-- Step 1: `sin(t)/t`, assigned 1 at `i = 0` (R102, R110). -/
def builderSinc {α : Type} (N : Num α) (m i : Nat) : α :=
  if i = 0 then N.ofNat 1 else N.div (N.sin (builderT N m i)) (builderT N m i)

/-- Step 1: the Blackman window `0.42 + 0.5·cos(theta) + 0.08·cos(2·theta)` (R102). -/
def builderWindow {α : Type} (N : Num α) (m i : Nat) : α :=
  N.add (N.add (N.lit 42 100) (N.mul (N.lit 1 2) (N.cos (builderTheta N m i))))
    (N.mul (N.lit 8 100) (N.cos (N.mul (N.ofNat 2) (builderTheta N m i))))

/-- Step 1: the windowed sinc, imaginary part zero (R102). -/
def builderSource {α : Type} (N : Num α) (m : Nat) : List (Cx α) :=
  (List.range m).map fun i => { re := N.mul (builderSinc N m i) (builderWindow N m i), im := N.ofNat 0 }

/-- `e^(±2πi·j/M)` with `j = k·n`, the sign `−` when `forward` (R103). That `j` is reduced modulo `M` first, and the
angle then formed as `2·π·j / M` with each operation rounded, is the model's choice (log entry 16): the spec leaves the
evaluation of a transform open, and this one fixes the digits of the table that `Safety.KromIsBuilt` names. -/
def twiddle {α : Type} (N : Num α) (forward : Bool) (m j : Nat) : Cx α :=
  let angle := N.div (N.mul (N.mul (N.ofNat 2) N.pi) (N.ofNat (j % m))) (N.ofNat m)
  cxUnit N (if forward then N.neg angle else angle)

/-- `Σ x[n] · e^(±2πi·k·n/M)`, summed in increasing `n` from index `n0` (R103). -/
def transformSum {α : Type} (N : Num α) (forward : Bool) (m k : Nat) : Nat → List (Cx α) → Cx α → Cx α
  | _, [], acc => acc
  | n, x :: xs, acc =>
    let p := cxMul N x (twiddle N forward m (k * n))
    transformSum N forward m k (n + 1) xs { re := N.add acc.re p.re, im := N.add acc.im p.im }

/-- The unitary transforms `FWD` (`forward`) and `INV` (R103). That `1/√M` is rounded once and multiplies each finished
sum is the model's choice (log entry 16). -/
def transform {α : Type} (N : Num α) (forward : Bool) (x : List (Cx α)) : List (Cx α) :=
  let m := x.length
  let scale := N.div (N.ofNat 1) (N.sqrt (N.ofNat m))
  (List.range m).map fun k =>
    let s := transformSum N forward m k 0 x { re := N.ofNat 0, im := N.ofNat 0 }
    { re := N.mul scale s.re, im := N.mul scale s.im }

/-- Step 2: the complex logarithm per bin, phase kept and not unwrapped (R104). -/
def logBin {α : Type} (N : Num α) (x : Cx α) : Cx α := { re := N.log (cxAbs N x), im := N.atan2 x.im x.re }

/-- Step 3: every coefficient at an index above `M/2` becomes `(0, 0)`; the others are kept unchanged (R105). -/
def dropAntiCausal {α : Type} (N : Num α) (c : List (Cx α)) : List (Cx α) :=
  c.take (c.length / 2 + 1) ++ (c.drop (c.length / 2 + 1)).map fun _ => { re := N.ofNat 0, im := N.ofNat 0 }

/-- Step 4: the complex exponential per bin (R106). -/
def expBin {α : Type} (N : Num α) (x : Cx α) : Cx α :=
  { re := N.mul (N.exp x.re) (N.cos x.im), im := N.mul (N.exp x.re) (N.sin x.im) }

/-- Step 2: the spectrum of step 1 (R104). -/
def builderSpectrum {α : Type} (N : Num α) (m : Nat) : List (Cx α) := transform N true (builderSource N m)

/-- Steps 1 to 4: the length-`M` time-domain kernel (R102 to R106). -/
def builderKernel {α : Type} (N : Num α) (m : Nat) : List (Cx α) :=
  let cepstrum := transform N false ((builderSpectrum N m).map (logBin N))
  transform N false ((transform N true (dropAntiCausal N cepstrum)).map (expBin N))

/-- Step 5: the first `N` real parts (R107). -/
def retainedKernel {α : Type} (N : Num α) (m : Nat) : List α := ((builderKernel N m).take (m / 2)).map Cx.re

/-- Step 5: `Σ k[i]`, summed in increasing `i` (R107). -/
def kernelTotal {α : Type} (N : Num α) (k : List α) : α := k.foldl N.add (N.ofNat 0)

/-- Step 5: each sample divided by the total (R107). -/
def normalized {α : Type} (N : Num α) (k : List α) : List α := k.map fun x => N.div x (kernelTotal N k)

/-- Step 5: `kn`, the normalised kernel (R107). -/
def normalizedKernel {α : Type} (N : Num α) (m : Nat) : List α := normalized N (retainedKernel N m)

/-- Step 5: `impulse[i] = kn[i] · S` (R107). -/
def impulseTable {α : Type} (N : Num α) (kn : List α) : List α := kn.map fun x => N.mul x (N.ofNat Config.oversample)

/-- Step 6: `1 −` the cumulative sum, the entry's own term included (R108). -/
def stepTable {α : Type} (N : Num α) : List α → α → List α
  | [], _ => []
  | x :: xs, acc => N.sub (N.ofNat 1) (N.add acc x) :: stepTable N xs (N.add acc x)

/-- The two tables, or a fault rather than an infinity or a NaN (93 entry U9): where a bin of the spectrum has magnitude
0 (R104), where the retained samples sum to 0 (R107), and where an entry is not finite. The tests for 0 are made on the
operands, so that they hold in exact arithmetic too, whose division and logarithm give some value there (log entry 19). -/
def builtTables {α : Type} (N : Num α) (m : Nat) : Except Fault (List α × List α) :=
  if (builderSpectrum N m).any fun x => isZero N (cxAbs N x) then .error .nonFinite
  else if isZero N (kernelTotal N (retainedKernel N m)) then .error .nonFinite
  else
    let kn := normalizedKernel N m
    let t := (impulseTable N kn, stepTable N kn (N.ofNat 0))
    if t.1.all N.isFinite && t.2.all N.isFinite then .ok t else .error .nonFinite

end Sys2Proof.Machine
end

