-- ==== Sys2Proof/Machine/Pseudo.lean ====
section
/-! DEFINITION. The pseudo-commands (30_encoding.md R78), which expand to commands and have no encoding of their own,
and the listing form of a command (R76). The block does not see any of this. -/

namespace Sys2Proof.Machine

/-- `RENDER sr, f[0], ..., f[n−1]`; the assembler refuses `n = 0` (30_encoding.md R78). -/
def renderPseudo (sr : F32) : List F32 → Option (List Instr)
  | [] => none
  | f :: fs => some (.setsr sr :: .design f :: (f :: fs).map Instr.tick)

/-- `round(v · 2^32) mod 2^32`, to the nearest integer, ties away from zero (R78). -/
def phaseOfFraction (v : ℚ) : U32 := BitVec.ofNat 32 ((v * 2 ^ 32 + 1 / 2).floor.toNat)

/-- `SETPHASE.R v` with `v` in `[0, 1)` (R78). -/
def setphasePseudo (v : ℚ) : Option Instr :=
  if 0 ≤ v ∧ v < 1 then some (.setphase (phaseOfFraction v)) else none

/-- `BLOCK f0` (R78). -/
def blockPseudo (f0 : F32) : Instr := .design f0

/-- The low `k` hexadecimal digits of `n`, most significant first. -/
def hexDigits : Nat → Nat → String
  | 0, _ => ""
  | k + 1, n => hexDigits k (n / 16) ++ ((("0123456789ABCDEF".toList)[n % 16]?).getD '0').toString

/-- The text of a command, real operands by their pattern (R76). -/
def commandText : Instr → String
  | .build => "BUILD"
  | .setsr sr => "SETSR =0x" ++ hexDigits 8 sr.toNat
  | .setalt b => if b then "SETALT 1" else "SETALT 0"
  | .setphase p => "SETPHASE 0x" ++ hexDigits 8 p.toNat
  | .design f0 => "DESIGN =0x" ++ hexDigits 8 f0.toNat
  | .tick f => "TICK =0x" ++ hexDigits 8 f.toNat

/-- A listing line: the word in ten hexadecimal digits, then the text (R76). -/
def listingLine (i : Instr) : String := hexDigits 10 (encode i).toNat ++ "  " ++ commandText i

end Sys2Proof.Machine
end

