-- ==== Sys2Proof/Machine/Run.lean ====
section
/-! DEFINITION. The block over any parameters: one command, one command word on one port, and a run
(70_reset_and_hazards.md R225: "one list per instance and any interleaving of them"). -/

namespace Sys2Proof.Machine

variable {α : Type} (P : Params α)

/-- A command on the current oscillator's port. With the default parameters it is `exec`. -/
def command : Instr → Block α → Except Fault (Block α)
  | .build, b => build P b
  | .setsr sr, b => setsr P sr b
  | .setalt v, b => setalt v b
  | .setphase p, b => setphase p b
  | .design f0, b => design P f0 b
  | .tick f, b => tick P f b

/-- A command word, run to completion (30_encoding.md R70); an illegal word is `F_ILLCMD` (R74). -/
def wordOnBlock (w : CommandWord) (b : Block α) : Except Fault (Block α) :=
  match decode w with
  | .ok i => command P i b
  | .error _ => .error .illCmd

/-- What the output port of every oscillator has carried, the current one first. -/
def Block.outputs (b : Block α) : List (List (PortValue α)) := b.osc.output :: b.bank.map fun o => o.output

/-- What a run gives (70_reset_and_hazards.md R225): the end state, which holds the outputs; or the fault, the port it
came on, how many commands of that port's list completed before it, and the outputs of every port so far. -/
inductive RunResult (α : Type) where
  | done (b : Block α)
  | faulted (f : Fault) (port index : Nat) (outputs : List (List (PortValue α)))
  | refused (r : Refusal)
  deriving DecidableEq, Repr

/-- The word `w` on port `k`: 0 is the current oscillator's, `n + 1` that of oscillator `n` of the bank, which is
current while the command runs (log entry 11). -/
def wordOnPort (k : Nat) (w : CommandWord) (b : Block α) : Except Refusal (Except Fault (Block α)) :=
  match k with
  | 0 => .ok (wordOnBlock P w b)
  | n + 1 =>
    match choosePort n b with
    | .error r => .error r
    | .ok c =>
      match wordOnBlock P w c with
      | .error e => .ok (.error e)
      | .ok d =>
        match choosePort n d with
        | .error r => .error r
        | .ok d' => .ok (.ok d')

/-- The run of a schedule, each word with its port, in the order the words arrive; `ports` are the ports of the
commands already completed. -/
def runFrom : List Nat → List (Nat × CommandWord) → Block α → RunResult α
  | _, [], b => .done b
  | ports, (k, w) :: rest, b =>
    match wordOnPort P k w b with
    | .error r => .refused r
    | .ok (.error f) => .faulted f k (ports.count k) b.outputs
    | .ok (.ok c) => runFrom (ports ++ [k]) rest c

/-- A whole run: the parameters, a reset, a schedule (R225). An illegal prototype angle or an illegal table is refused
before any command (43_post_filter.md R173 (a), 40_kernel_build.md R109 P6, 93 entries U8 and U9). -/
def run (theta : Vector Angle 3) (cfg : OscParams) (cfgs : List OscParams) (schedule : List (Nat × CommandWord)) :
    RunResult α :=
  match construct P theta cfg cfgs with
  | .error r => .refused r
  | .ok b => runFrom P [] schedule b

end Sys2Proof.Machine
end

