-- ==== Sys2Proof/Safety.lean ====
section
/-! DEFINITION. What claims are stated in: the invariants of 10_state.md R30, the domain of each command
(44_render_and_control.md R186), and the properties of the table a claim may assume (40_kernel_build.md R109). -/

namespace Sys2Proof.Safety

open Sys2Proof.Machine

/-! ## Invariants (10_state.md R30) -/

/-- `+1` and `−1`, the only values of `POLSCALE` (R30 I5). -/
def PolarityOne (x : F32) : Prop := x = 0x3F800000#32 ∨ x = 0xBF800000#32

/-- One voice: `IDX ≤ N − 2` (R30 I3), `FRAC` a real number, `AMP` one of `0, +1, −1` (R30 I5). -/
structure VoiceInv (v : Voice F32) : Prop where
  idx_le : v.idx.toNat ≤ 4094
  frac_finite : Binary32.isFinite v.frac = true
  amp_polarity : v.amp = 0#32 ∨ PolarityOne v.amp

/-- Every real of a section is finite (43_post_filter.md R174). -/
structure SectionInv (c : FilterSection F32) : Prop where
  tgt_finite : coeffsFinite num32 c.tgt = true
  written_finite : sectionFinite num32 c = true

/-- One oscillator (R30 I1, I3, I5; `SR` as SETSR leaves it; outputs finite patterns, 30_encoding.md R77). -/
structure OscInv (o : Oscillator F32) : Prop where
  phase_grid : o.phase.toNat % 64 = 0
  polscale_one : PolarityOne o.polscale
  voices : ∀ v ∈ o.voice.toList, VoiceInv v
  filter : ∀ c ∈ o.sec.toList, SectionInv c
  rate : o.srset = true → Binary32.isFinite o.sr = true ∧ Binary32.lt 0#32 o.sr = true
  outputs : ∀ y ∈ o.output, ∃ p, y = .pattern p ∧ Binary32.isFinite p = true

/-- Every entry of a space has a value, and it is finite (20_memory.md R58 item 2, 40_kernel_build.md R109 P6). -/
def SpaceFull (m : Memory F32) : Prop := ∀ i, i < 4096 → ∃ v, memRead m i = some v ∧ Binary32.isFinite v = true

/-- The kernel store: both spaces canonical, and once `BUILT = 1` both full. -/
structure KernelInv (k : KernelStore F32) : Prop where
  impulse_wf : memWf k.impulse = true
  step_wf : memWf k.step = true
  full : k.built = true → SpaceFull k.impulse ∧ SpaceFull k.step

/-- The invariant of the whole machine: the store and every oscillator. -/
structure Inv (s : State) : Prop where
  kernel : KernelInv s.kernel
  osc : OscInv s.osc
  bank : ∀ o ∈ s.bank, OscInv o

/-! ## Reset (10_state.md R31) -/

/-- Every row of the table of R31 that concerns one oscillator and gives a value. -/
structure AtReset (o : Oscillator F32) : Prop where
  phase_zero : o.phase = 0x00000000#32
  polscale_one : o.polscale = 0x3F800000#32
  nextvoice_seven : o.nextvoice = 7#3
  alt_default : o.alt = o.cfg.altDefault
  srset_clear : o.srset = false
  voices_silent : ∀ i : BitVec 3, getVoice o.voice i = { idx := 4032#12, frac := 0#32, amp := 0#32 }
  sections_zero : ∀ c ∈ o.sec.toList,
    c.tgt = { ar := 0#32, ai := 0#32, c0 := 0#32, c1 := 0#32, c2 := 0#32 } ∧
    c.cur = { ar := 0#32, ai := 0#32, c0 := 0#32, c1 := 0#32, c2 := 0#32 } ∧ c.s1 = 0#32 ∧ c.s2 = 0#32

/-- A store in which no entry has a value, and `BUILT = 0`. -/
structure StoreAtReset (k : KernelStore F32) : Prop where
  not_built : k.built = false
  impulse_none : ∀ i, memRead k.impulse i = none
  step_none : ∀ i, memRead k.step i = none

/-- No DESIGN since reset: all targets and current values are 0 (70_reset_and_hazards.md R222). -/
def Undesigned (o : Oscillator F32) : Prop := ∀ c ∈ o.sec.toList, c.tgt = Coeffs.reset 0#32 ∧ c.cur = Coeffs.reset 0#32

/-! ## Domains (44_render_and_control.md R186) -/

/-- The mixer sum a TICK computes, where every table read succeeds. -/
def mixerSum (s : State) : Except Fault F32 :=
  sumVoices num32 s.kernel.impulse s.osc.voice.toList (num32.ofNat 0)

/-- The filter file and the filtered sample of a TICK whose mixer sum is `m`. -/
def filtered (s : State) (m : F32) : F32 × Vector (FilterSection F32) 3 := filt num32 m s.osc.sec

/-- The targets a DESIGN computes. -/
def designedTargets (f0 : F32) (s : State) : Except Fault (Vector (Coeffs F32) 3) :=
  targets params32 s.theta s.osc.cfg s.osc.sr f0

/-- The domain of each command, row by row of 44_render_and_control.md R186, for states that meet `Inv`. -/
def InDomain : Instr → State → Prop
  | .build, _ => True
  | .setsr sr, _ => Binary32.isFinite sr = true ∧ Binary32.lt 0#32 sr = true
  | .setalt _, _ => True
  | .setphase _, _ => True
  | .design f0, s =>
    s.osc.srset = true ∧ Binary32.isFinite f0 = true ∧ ∃ t, designedTargets f0 s = .ok t
  | .tick f, s =>
    s.kernel.built = true ∧ s.osc.srset = true ∧ Binary32.isFinite f = true ∧
    Binary32.isFinite (tickHz num32 s.osc.cfg f) = true ∧
    Binary32.isFinite (phaseIncScale num32 s.osc.sr s.osc.cfg.fscale) = true ∧
    Binary32.isFinite (increment num32 s.osc.sr s.osc.cfg.fscale (tickHz num32 s.osc.cfg f)) = true ∧
    ∃ m, mixerSum s = .ok m ∧
      sectionsFinite num32 (filtered s m).2 = true ∧
      Binary32.isFinite (num32.mul (num32.ofNat 2) (filtered s m).1) = true

/-! ## The table (40_kernel_build.md R109) -/

/-- P1: `|Σ impulse[i] / S − 1| ≤ 1e-3`. A hypothesis a claim may name; the model does not assume it. -/
def DcNormalized : Prop :=
  |((List.range 4096).map fun i => Binary32.toRat (params32.kromImpulse i)).sum / 64 - 1| ≤ 1 / 1000

/-- P2: `step[i] ≈ 1 − Σ_{k≤i} impulse[k]/S` within `1e-4`. A hypothesis a claim may name. -/
def StepConsistent : Prop :=
  ∀ i, i < 4096 →
    |Binary32.toRat (params32.kromStep i) -
      (1 - ((List.range (i + 1)).map fun k => Binary32.toRat (params32.kromImpulse k)).sum / 64)| ≤ 1 / 10000

/-- The table is the one the builder's algorithm gives in binary32, summed in increasing order
(40_kernel_build.md R102 to R108). A hypothesis a claim may name. -/
def KromIsBuilt : Prop :=
  ∃ t, builtTables num32 Config.padLen = .ok t ∧
    ∀ i, i < 4096 → t.1[i]? = some (params32.kromImpulse i) ∧ t.2[i]? = some (params32.kromStep i)

end Sys2Proof.Safety
end

