-- ==== Sys2Proof/Certificates/Slice0/Obligations.lean ====
section
/-! DEFINITION. The statements for the provers. Each docstring names the rule of spec/ it formalises; a clause that
rests on a choice of the model names the log entry. -/

open Sys2Proof Sys2Proof.Machine Sys2Proof.Safety

/-! ## Encoding -/

/-- 30_encoding.md R79: the decoder as a table over the numeric fields, and the two round trips, which the rule marks as
its own inference ("`decode(encode(c)) = c` for every legal command `c`, and `encode(decode(w)) = w` for every legal
word `w`"). -/
def Obligations.DecodeAndEncodeAgree : Prop :=
  (∀ i : Instr, wellFormed i = true → decode (encode i) = .ok i) ∧
  (∀ (w : CommandWord) (i : Instr), decode w = .ok i → encode i = w) ∧
  (∀ w : CommandWord,
    let op := w.toNat / 2 ^ 32
    let arg := w.toNat % 2 ^ 32
    if op = 1 ∧ arg = 0 then decode w = .ok .build
    else if op = 2 then decode w = .ok (.setsr (BitVec.ofNat 32 arg))
    else if op = 3 ∧ arg / 2 = 0 then decode w = .ok (.setalt (decide (arg % 2 = 1)))
    else if op = 4 then decode w = .ok (.setphase (BitVec.ofNat 32 arg))
    else if op = 5 then decode w = .ok (.design (BitVec.ofNat 32 arg))
    else if op = 6 then decode w = .ok (.tick (BitVec.ofNat 32 arg))
    else ∃ e, decode w = .error e)

/-- 30_encoding.md R72: a word decodes exactly when it matches a pattern of the table, and no word matches two. -/
def Obligations.LegalWordsMatchOnePattern : Prop :=
  (∀ w : CommandWord, legalWord w = true ↔ ∃ i, decode w = .ok i) ∧
  encodingPatterns.Pairwise fun p q => ∀ w : CommandWord, w &&& p.2 = p.1 → w &&& q.2 ≠ q.1

/-- 30_encoding.md R74: which words are illegal, and that taking one is `F_ILLCMD`, and taking a legal one never. -/
def Obligations.IllegalWordsFault : Prop :=
  (∀ w : CommandWord,
    let op := w.toNat / 2 ^ 32
    let arg := w.toNat % 2 ^ 32
    (∃ e, decode w = .error e) ↔
      op = 0 ∨ (7 ≤ op ∧ op ≤ 255) ∨ (op = 1 ∧ arg ≠ 0) ∨ (op = 3 ∧ arg / 2 ≠ 0)) ∧
  (∀ (s : State) (w : CommandWord), runWord w s = .fault .illCmd ↔ ∃ e, decode w = .error e) ∧
  (∃ e, decode 0x0000000000#40 = .error e) ∧ (∃ e, decode 0xFFFFFFFFFF#40 = .error e)

/-- Words of 95_test_vectors.md V2, at least one a command, decode to the commands they stand for. -/
def Obligations.SpecWordsDecode : Prop :=
  decode 0x0100000000#40 = .ok .build ∧
  decode 0x02473B8000#40 = .ok (.setsr 0x473B8000#32) ∧
  decode 0x0300000000#40 = .ok (.setalt false) ∧
  decode 0x0300000001#40 = .ok (.setalt true) ∧
  decode 0x04FFFFFF00#40 = .ok (.setphase 0xFFFFFF00#32) ∧
  decode 0x0542C80000#40 = .ok (.design 0x42C80000#32) ∧
  decode 0x06C3DC0000#40 = .ok (.tick 0xC3DC0000#32) ∧
  decode 0x0100000001#40 = .error .buildOperand ∧
  decode 0x0300000002#40 = .error .setaltOperand ∧
  decode 0x0700000000#40 = .error .reservedOpcode

/-! ## Steps and runs -/

/-- A step on a command word is `exec` of the decoded command, the word taken from the stream (30_encoding.md R70), or
`F_ILLCMD`; `withFetchWord` puts a word there (the stream is the model's own, log entry 9); and a machine with an illegal
prototype angle takes no step (43_post_filter.md R173 (a), log entry 5). `exec` is the block's command with the default
parameters, and leaves the stream alone. -/
def Obligations.StepRunsDecodedCommand : Prop :=
  (∀ (s : State) (w : CommandWord) (rest : List Input) (i : Instr), legalTheta s.theta = true →
    s.inputs = .command w :: rest → decode w = .ok i → step s = exec i { s with inputs := rest }) ∧
  (∀ (s : State) (w : CommandWord) (rest : List Input) (e : Illegal), legalTheta s.theta = true →
    s.inputs = .command w :: rest → decode w = .error e → step s = .fault .illCmd) ∧
  (∀ (s : State) (w : CommandWord) (i : Instr), legalTheta s.theta = true → decode w = .ok i →
    step (s.withFetchWord 40 w.toNat) = exec i { s with inputs := s.inputs.drop 1 }) ∧
  (∀ s : State, legalTheta s.theta = false → step s = .refused .illegalTheta) ∧
  (∀ (i : Instr) (s : State),
    exec i s = match command params32 i s.toBlock with
      | .ok b => .next { s with toBlock := b }
      | .error e => .fault e)

/-- With nothing sent the block holds its state (60_exceptions.md R204, R210); a reset item is the reset
(log entry 9); the choice of a port swaps the current oscillator with one of the bank, or is refused where there is
none (log entry 11). The stream and its items are the model's own; the prototype angles are legal (log entry 5). -/
def Obligations.IdleResetAndSelectSteps : Prop :=
  (∀ s : State, legalTheta s.theta = true → s.inputs = [] → step s = .next s) ∧
  (∀ (s : State) (rest : List Input), legalTheta s.theta = true → s.inputs = .oscReset :: rest →
    step s = .next { s with toBlock := oscReset num32 s.toBlock, inputs := rest }) ∧
  (∀ (s : State) (rest : List Input), legalTheta s.theta = true → s.inputs = .globalReset :: rest →
    step s = .next { s with toBlock := globalReset num32 s.toBlock, inputs := rest }) ∧
  (∀ (s : State) (n : Nat) (rest : List Input) (o : Oscillator F32), legalTheta s.theta = true →
    s.inputs = .select n :: rest → s.bank[n]? = some o →
    step s = .next { s with osc := o, bank := s.bank.set n s.osc, inputs := rest }) ∧
  (∀ (s : State) (n : Nat) (rest : List Input), legalTheta s.theta = true → s.inputs = .select n :: rest →
    s.bank.length ≤ n → step s = .refused .noSuchPort)

/-- 70_reset_and_hazards.md R225, for any parameters: a run of one schedule after another is the run of the two joined; a
run that faults names the first command that faults, by its port and by how many commands of that port came before it,
and carries the outputs every port gave before it; a port that does not exist is refused (log entry 11). -/
def Obligations.RunStopsAtFirstFault : Prop :=
  ∀ (α : Type) (P : Params α) (ports : List Nat) (b : Block α),
    (∀ (ws vs : List (Nat × CommandWord)) (c : Block α), runFrom P ports ws b = .done c →
      runFrom P ports (ws ++ vs) b = runFrom P (ports ++ ws.map Prod.fst) vs c) ∧
    (∀ (ws : List (Nat × CommandWord)) (f : Fault) (k n : Nat) (out : List (List (PortValue α))),
      runFrom P ports ws b = .faulted f k n out →
      ∃ j w c, ws[j]? = some (k, w) ∧ runFrom P ports (ws.take j) b = .done c ∧
        wordOnPort P k w c = .ok (.error f) ∧ n = (ports ++ (ws.take j).map Prod.fst).count k ∧ out = c.outputs) ∧
    (∀ (ws : List (Nat × CommandWord)) (k : Nat) (w : CommandWord), b.bank.length < k →
      runFrom P ports ((k, w) :: ws) b = .refused .noSuchPort)

/-- 30_encoding.md R77, for any parameters: over a whole run each output port carries one value per TICK on its port and
nothing for any other command, after what it had carried before; each is finite, and by the default `NUM` a binary32
pattern, with exact reals a real (another `NUM` brings its own conversion, log entry 21). -/
def Obligations.OneOutputPerTick : Prop :=
  (∀ v : F32, num32.toPort v = .pattern v) ∧ (∀ (fns : NumFns ℚ) (v : ℚ), (numExact fns).toPort v = .real v) ∧
  ∀ (α : Type) (P : Params α) (ports : List Nat) (ws : List (Nat × CommandWord)) (b c : Block α),
    runFrom P ports ws b = .done c →
    c.outputs.length = b.outputs.length ∧
    ∀ (k : Nat) (before : List (PortValue α)), b.outputs[k]? = some before →
      ∃ ys : List (PortValue α), c.outputs[k]? = some (before ++ ys) ∧
        ys.length = ws.countP (fun x => decide (x.1 = k ∧ x.2.toNat / 2 ^ 32 = 6)) ∧
        ∀ y ∈ ys, portFinite P.toNum y = true ∧ ∃ v, P.isFinite v = true ∧ y = P.toPort v

/-! ## Reset and invariants -/

/-- 10_state.md R31: the state after the global reset, every row of the table that gives a value. -/
def Obligations.ResetValues : Prop :=
  AtReset State.reset.osc ∧ StoreAtReset State.reset.kernel ∧ ∀ o ∈ State.reset.bank, AtReset o

/-- 70_reset_and_hazards.md R221: what the instance reset and the global reset set, and what each leaves alone. -/
def Obligations.ResetScopes : Prop :=
  (∀ b : Block F32,
    AtReset (oscReset num32 b).osc ∧ (oscReset num32 b).kernel = b.kernel ∧ (oscReset num32 b).bank = b.bank ∧
    (oscReset num32 b).osc.cfg = b.osc.cfg ∧ (oscReset num32 b).theta = b.theta) ∧
  (∀ b : Block F32,
    AtReset (globalReset num32 b).osc ∧ StoreAtReset (globalReset num32 b).kernel ∧
    (∀ o ∈ (globalReset num32 b).bank, AtReset o) ∧ (globalReset num32 b).osc.cfg = b.osc.cfg ∧
    (globalReset num32 b).bank.map (fun o => o.cfg) = b.bank.map (fun o => o.cfg) ∧
    (globalReset num32 b).theta = b.theta)

/-- The invariant holds after reset (10_state.md R30). -/
def Obligations.ResetMeetsInvariant : Prop := Inv State.reset

/-- 10_state.md R30 I1, I3, I5, with the finiteness of 43_post_filter.md R174 and the canonical form of the store:
every step keeps the invariant, from every state that meets it. -/
def Obligations.InvariantKeptByStep : Prop :=
  ∀ s t : State, Inv s → step s = .next t → Inv t

/-- 10_state.md R30 I6: once `BUILT = 1` the store never changes, and once `SRSET = 1` it stays 1. -/
def Obligations.BuiltStoreAndRateFlagStay : Prop :=
  ∀ (i : Instr) (s t : State), exec i s = .next t →
    (s.kernel.built = true → t.kernel = s.kernel) ∧ (s.osc.srset = true → t.osc.srset = true)

/-! ## BUILD, SETSR, SETALT, SETPHASE -/

/-- 40_kernel_build.md R101, R109 P3: from a state with `BUILT = 0`, BUILD writes the same full store in every run
and nothing else; with `BUILT = 1` it changes nothing. -/
def Obligations.BuildFillsStoreOnce : Prop :=
  encode .build = 0x0100000000#40 ∧
  (∀ s : State, s.kernel.built = true → exec .build s = .next s) ∧
  ∃ k : KernelStore F32, k.built = true ∧
    (∀ i, i < 4096 → memRead k.impulse i = some (params32.kromImpulse i) ∧ memRead k.step i = some (params32.kromStep i)) ∧
    (∀ i, 4096 ≤ i → memRead k.impulse i = none ∧ memRead k.step i = none) ∧
    ∀ s : State, s.kernel.built = false →
      exec .build s = .next { s with kernel := k } ∧
      exec .build { s with kernel := k } = .next { s with kernel := k }

/-- 44_render_and_control.md R180: SETSR on every operand, by the value the pattern denotes. -/
def Obligations.SetsrLoadsRateOrFaults : Prop :=
  ∀ (sr : F32) (s : State),
    encode (.setsr sr) = 0x02#8 ++ sr ∧
    (Binary32.isFinite sr = false → exec (.setsr sr) s = .fault .nonFinite) ∧
    (Binary32.isFinite sr = true → Binary32.toRat sr ≤ 0 → exec (.setsr sr) s = .fault .badSr) ∧
    (Binary32.isFinite sr = true → 0 < Binary32.toRat sr →
      exec (.setsr sr) s = .next { s with osc := { s.osc with sr := sr, srset := true } })

/-- 44_render_and_control.md R181: SETALT writes `ALT` and nothing else, and never faults; `ALT` acts only through the
polarity flip of a retarget, after the new voice is stored: a TICK with another `ALT` gives the same state but for `ALT`
and `POLSCALE`, or the same fault, and the other commands do not read it; its reset value is `ALT_DEFAULT`. -/
def Obligations.SetaltWritesFlagOnly : Prop :=
  (∀ (b : Bool) (s : State),
    encode (.setalt b) = 0x03#8 ++ (if b then 1#32 else 0#32) ∧
    exec (.setalt b) s = .next { s with osc := { s.osc with alt := b } }) ∧
  (∀ (b : Bool) (p q : U32) (o : Oscillator F32),
    retarget num32 p q { o with alt := b } =
      { retarget num32 p q o with alt := b, polscale := if b then Binary32.neg o.polscale else o.polscale }) ∧
  (∀ (b : Bool) (f : F32) (s t : State), exec (.tick f) s = .next t →
    exec (.tick f) { s with osc := { s.osc with alt := b } } =
      .next { t with
        osc := { t.osc with
          alt := b
          polscale := if b = true ∧ wraps s.osc.phase t.osc.phase = true then Binary32.neg s.osc.polscale
            else s.osc.polscale } }) ∧
  (∀ (b : Bool) (i : Instr) (s t : State), (∀ f, i ≠ .tick f) → (∀ c, i ≠ .setalt c) → exec i s = .next t →
    exec i { s with osc := { s.osc with alt := b } } = .next { t with osc := { t.osc with alt := b } }) ∧
  (∀ (b : Bool) (i : Instr) (s : State) (e : Fault), exec i s = .fault e →
    exec i { s with osc := { s.osc with alt := b } } = .fault e) ∧
  (∀ (z one : F32) (cfg : OscParams) (out : List (PortValue F32)), (Oscillator.reset z one cfg out).alt = cfg.altDefault)

/-- 44_render_and_control.md R182: SETPHASE loads the operand rounded down to a multiple of 64, writes nothing else
and never faults. -/
def Obligations.SetphaseClearsLowSixBits : Prop :=
  ∀ (p : U32) (s : State),
    encode (.setphase p) = 0x04#8 ++ p ∧
    ∃ t, exec (.setphase p) s = .next t ∧ t = { s with osc := { s.osc with phase := t.osc.phase } } ∧
      t.osc.phase.toNat = p.toNat - p.toNat % 64

/-! ## DESIGN -/

/-- 43_post_filter.md R156, R163: where every target is finite (44_render_and_control.md R186), DESIGN stores them,
section `k` from prototype pole `k`, and touches nothing else. -/
def Obligations.DesignWritesTargets : Prop :=
  ∀ (f0 : F32) (s : State) (tg : Vector (Coeffs F32) 3),
    s.osc.srset = true → Binary32.isFinite s.osc.sr = true → 0 < Binary32.toRat s.osc.sr →
    Binary32.isFinite f0 = true → designedTargets f0 s = .ok tg →
    exec (.design f0) s = .next { s with
      osc := { s.osc with
        sec := #v[{ s.osc.sec[0] with tgt := tg[0] }, { s.osc.sec[1] with tgt := tg[1] },
          { s.osc.sec[2] with tgt := tg[2] }] } }

/-- 60_exceptions.md R203: the order in which the faults before execution are reported. -/
def Obligations.PreconditionFaultOrder : Prop :=
  (∀ (f : F32) (s : State), s.kernel.built = false → exec (.tick f) s = .fault .noKernel) ∧
  (∀ (f : F32) (s : State), s.kernel.built = true → s.osc.srset = false → exec (.tick f) s = .fault .noSr) ∧
  (∀ (f : F32) (s : State), s.kernel.built = true → s.osc.srset = true → Binary32.isFinite f = false →
    exec (.tick f) s = .fault .nonFinite) ∧
  (∀ (f0 : F32) (s : State), s.osc.srset = false → exec (.design f0) s = .fault .noSr) ∧
  (∀ (f0 : F32) (s : State), s.osc.srset = true → Binary32.isFinite f0 = false →
    exec (.design f0) s = .fault .nonFinite)

/-- 43_post_filter.md R164: the targets of section `k` by the rule's own lines, in exact arithmetic with the reference
functions (log entry 2), each rounded once to binary32 (log entry 13). -/
def Obligations.DesignTargetsFollowFormula : Prop :=
  ∀ (f0 : F32) (s : State) (tg : Vector (Coeffs F32) 3), designedTargets f0 s = .ok tg →
    ∀ (k : Nat) (hk : k < 3),
      let rate := Binary32.toRat s.osc.sr
      let raw := Binary32.toRat f0
      let g := if s.osc.cfg.noteMode = true ∧ s.osc.cfg.designMapped = true then
          440 * Reference.exp2 ((raw - 69) / 12) else raw
      let x := (85 / 100 * g) / rate
      let fc := if x < 1 / 10000 then 1 / 10000 else if 1 / 2 - 1 / 10000 < x then 1 / 2 - 1 / 10000 else x
      let w := 2 * Reference.tan (Reference.fns.pi * fc)
      let theta := match s.theta[k] with
        | .piMultiple num den => (num : ℚ) * Reference.fns.pi / (den : ℚ)
        | .value x => x
      let sr := w * Reference.cos theta
      let si := w * Reference.sin theta
      let nr := 1 + sr / 2
      let ni := si / 2
      let dr := 1 - sr / 2
      let di := -(si / 2)
      let den := dr * dr + di * di
      let ar := (nr * dr + ni * di) / den
      let ai := (ni * dr - nr * di) / den
      let c1 := 2 * (ar - 1)
      let c2 := ((ar * ar + ai * ai) - 1 - c1 * ar) / ai
      let gain := 4 / ((1 + ar) * (1 + ar) + ai * ai)
      ai ≠ 0 ∧ coeffsFinite num32 tg[k] = true ∧
      tg[k] = { ar := Binary32.ofRat ar, ai := Binary32.ofRat ai, c0 := Binary32.ofRat (1 / gain),
                c1 := Binary32.ofRat (c1 / gain), c2 := Binary32.ofRat (c2 / gain) }

/-- 43_post_filter.md R157, R173 (b), in exact arithmetic: the clamp, its two ends, and that it is exact between. -/
def Obligations.DesignFractionClamped : Prop :=
  ∀ (fns : NumFns ℚ) (sr g : ℚ), 0 < sr →
    (1 / 10000 ≤ designFraction (numExact fns) sr g ∧ designFraction (numExact fns) sr g ≤ 4999 / 10000) ∧
    (g ≤ 0 → designFraction (numExact fns) sr g = 1 / 10000) ∧
    (sr / 2 / (85 / 100) ≤ g → designFraction (numExact fns) sr g = 4999 / 10000) ∧
    (sr / 10000 ≤ 85 / 100 * g → 85 / 100 * g ≤ 4999 / 10000 * sr →
      designFraction (numExact fns) sr g = 85 / 100 * g / sr)

/-- 43_post_filter.md R160, in exact arithmetic: the section pole is inside the unit circle exactly when the scaled
prototype pole is in the left half plane, and `ai` has the sign of `s.im`. -/
def Obligations.PoleInsideCircleIffLeftHalf : Prop :=
  ∀ (fns : NumFns ℚ) (s : Cx ℚ), ¬(s.re = 2 ∧ s.im = 0) →
    let a := bilinear (numExact fns) s
    (a.re * a.re + a.im * a.im < 1 ↔ s.re < 0) ∧ (0 < a.im ↔ 0 < s.im) ∧ (a.im = 0 ↔ s.im = 0)

/-- 43_post_filter.md R161, R162, in exact arithmetic: with the gains of a pole the numerator of the transfer function
of R170 is `C0 · (1 − z⁻¹)²`, so it is 0 at `z = 1`, and at `z = −1` it equals the denominator. -/
def Obligations.SectionZeroAtDcUnityAtNyquist : Prop :=
  ∀ (fns : NumFns ℚ) (a : Cx ℚ), a.im ≠ 0 →
    let c := poleTargets (numExact fns) a
    let n1 := c.c1 - 2 * c.c0 * c.ar
    let n2 := c.c0 * (c.ar * c.ar + c.ai * c.ai) - c.c1 * c.ar - c.c2 * c.ai
    c.ar = a.re ∧ c.ai = a.im ∧ n1 = -2 * c.c0 ∧ n2 = c.c0 ∧ c.c0 + n1 + n2 = 0 ∧
    c.c0 - n1 + n2 = 1 + 2 * c.ar + (c.ar * c.ar + c.ai * c.ai)

/-- 43_post_filter.md R173 (a), 93 entry U8: a `THETA` with an angle of sine 0 is refused. The test is exact; a block
with such a `THETA` is not constructed, no step and no run starts under it, and no DESIGN completes under an angle whose
reference sine is 0 (log entry 5). 40_kernel_build.md R109 P6 (which the rule marks as its own inference), 93 entry U9: a
table with an entry that is not finite is refused likewise, and the machine's has none (log entry 4). -/
def Obligations.IllegalParametersAreRefused : Prop :=
  (∀ (n : Int) (d : Nat), legalAngle (.piMultiple n d) = true ↔ Real.sin ((n : ℝ) * Real.pi / (d : ℝ)) ≠ 0) ∧
  (∀ x : ℚ, legalAngle (.value x) = true ↔ Real.sin (x : ℝ) ≠ 0) ∧
  (∀ (theta : Vector Angle 3) (k : Nat) (hk : k < 3), legalAngle theta[k] = false →
    (∀ (α : Type) (P : Params α) (cfg : OscParams) (cfgs : List OscParams) (ws : List (Nat × CommandWord)),
      construct P theta cfg cfgs = .error .illegalTheta ∧
      run P theta cfg cfgs ws = .refused .illegalTheta) ∧
    (∀ s : State, s.theta = theta → step s = .refused .illegalTheta)) ∧
  (∀ (f0 : F32) (s t : State) (k : Nat) (hk : k < 3),
    Reference.sin (angleValue numReference s.theta[k]) = 0 → exec (.design f0) s ≠ .next t) ∧
  (∀ i, Binary32.isFinite (params32.kromImpulse i) = true ∧ Binary32.isFinite (params32.kromStep i) = true) ∧
  (∀ (α : Type) (P : Params α) (theta : Vector Angle 3) (cfg : OscParams) (cfgs : List OscParams)
    (ws : List (Nat × CommandWord)) (i : Nat), legalTheta theta = true → i < 4096 →
    (P.isFinite (P.kromImpulse i) = false ∨ P.isFinite (P.kromStep i) = false) →
    construct P theta cfg cfgs = .error .illegalKrom ∧ run P theta cfg cfgs ws = .refused .illegalKrom)

/-! ## TICK -/

/-- 44_render_and_control.md R184, R186: inside its domain a TICK answers the state that MIX, FILT, ADV and the output
give, in that order. -/
def Obligations.TickRendersSample : Prop :=
  ∀ (f m : F32) (s : State),
    let hz := if s.osc.cfg.noteMode = true then mapNote num32 f else f
    let q := quantizedIncrement num32 s.osc.sr s.osc.cfg.fscale hz
    let r := filt num32 m s.osc.sec
    let y := Binary32.mul 0x40000000#32 r.1
    s.kernel.built = true → s.osc.srset = true → Binary32.isFinite f = true → Binary32.isFinite hz = true →
    Binary32.isFinite (phaseIncScale num32 s.osc.sr s.osc.cfg.fscale) = true →
    Binary32.isFinite (increment num32 s.osc.sr s.osc.cfg.fscale hz) = true →
    Binary32.isFinite s.osc.polscale = true →
    mixerSum s = .ok m → sectionsFinite num32 r.2 = true → Binary32.isFinite y = true →
    exec (.tick f) s = .next { s with
      osc := { advanced num32 q { s.osc with voice := mapVoices advanceVoice s.osc.voice, sec := r.2 } with
        output := s.osc.output ++ [.pattern y] } }

/-- 20_memory.md R54: in every state that meets the invariant, with the kernel built, every table read of a TICK is in
bounds and has a value. -/
def Obligations.TableReadsStayInBounds : Prop :=
  ∀ s : State, Inv s → s.kernel.built = true →
    (∃ m, mixerSum s = .ok m) ∧
    (∀ (f : F32) (e : Fault), s.osc.srset = true → exec (.tick f) s = .fault e → e = .nonFinite)

/-- 20_memory.md R54, 60_exceptions.md R202: a table index outside `0 .. 4095` is `F_OOB`, not a wrapped index. -/
def Obligations.TableIndexOutOfRangeFaults : Prop :=
  ∀ (f : F32) (s : State), s.kernel.built = true → s.osc.srset = true → Binary32.isFinite f = true →
    Binary32.isFinite (tickHz num32 s.osc.cfg f) = true → SpaceFull s.kernel.impulse →
    (∃ v ∈ s.osc.voice.toList, v.idx = 4095#12) → exec (.tick f) s = .fault .oob

/-- 10_state.md R33: what each command leaves unchanged whenever it answers a next state. -/
def Obligations.CommandWriteSets : Prop :=
  ∀ (i : Instr) (s t : State), exec i s = .next t →
    t.theta = s.theta ∧ t.bank = s.bank ∧ t.inputs = s.inputs ∧ t.osc.cfg = s.osc.cfg ∧
    match i with
    | .build => t.osc = s.osc ∧ (s.kernel.built = true → t.kernel = s.kernel)
    | .setsr _ => t.kernel = s.kernel ∧ t.osc = { s.osc with sr := t.osc.sr, srset := t.osc.srset }
    | .setalt _ => t.kernel = s.kernel ∧ t.osc = { s.osc with alt := t.osc.alt }
    | .setphase _ => t.kernel = s.kernel ∧ t.osc = { s.osc with phase := t.osc.phase }
    | .design _ => t.kernel = s.kernel ∧ t.osc = { s.osc with sec := t.osc.sec } ∧
        ∀ (k : Nat) (hk : k < 3), t.osc.sec[k] = { s.osc.sec[k] with tgt := t.osc.sec[k].tgt }
    | .tick f =>
        (∀ a, memRead t.kernel.impulse a = memRead s.kernel.impulse a ∧
          memRead t.kernel.step a = memRead s.kernel.step a) ∧
        t.kernel = s.kernel ∧ t.osc.sr = s.osc.sr ∧ t.osc.alt = s.osc.alt ∧ t.osc.srset = s.osc.srset ∧
        (∀ (k : Nat) (hk : k < 3), t.osc.sec[k].tgt = s.osc.sec[k].tgt) ∧
        (∃ y, Binary32.isFinite y = true ∧ t.osc.output = s.osc.output ++ [.pattern y]) ∧
        (∀ j : BitVec 3, j ≠ s.osc.nextvoice + 1#3 →
          getVoice t.osc.voice j = { getVoice s.osc.voice j with idx := (getVoice t.osc.voice j).idx }) ∧
        (s.osc.phase.toNat +
            (quantizedIncrement num32 s.osc.sr s.osc.cfg.fscale (tickHz num32 s.osc.cfg f)).toNat < 2 ^ 32 →
          t.osc.nextvoice = s.osc.nextvoice ∧ t.osc.polscale = s.osc.polscale ∧
          ∀ j : BitVec 3,
            getVoice t.osc.voice j = { getVoice s.osc.voice j with idx := (getVoice t.osc.voice j).idx }) ∧
        (s.osc.alt = false → t.osc.polscale = s.osc.polscale)

/-- 44_render_and_control.md R184: the output of a TICK, and the filter file it leaves, do not depend on that TICK's
own operand. -/
def Obligations.TickOutputIgnoresItsOperand : Prop :=
  ∀ (f g : F32) (s t u : State), exec (.tick f) s = .next t → exec (.tick g) s = .next u →
    t.osc.output = u.osc.output ∧ t.osc.sec = u.osc.sec

/-! ## The phase accumulator -/

/-- 41_phase_accumulator.md R131: only `|f|` enters; the phase decreases only by wrapping; `−0` behaves as `+0`;
playback never reverses. -/
def Obligations.SignOfFrequencyIrrelevant : Prop :=
  (∀ (f : F32) (o : Oscillator F32), adv num32 (Binary32.neg f) o = adv num32 f o) ∧
  (∀ (f : F32) (s : State), s.osc.cfg.noteMode = false →
    exec (.tick (Binary32.neg f)) s = exec (.tick f) s) ∧
  (∀ (s : State), s.osc.cfg.noteMode = false → exec (.tick 0x80000000#32) s = exec (.tick 0x00000000#32) s) ∧
  (∀ (f : F32) (o o' : Oscillator F32), adv num32 f o = .ok o' → o'.phase.toNat < o.phase.toNat →
    2 ^ 32 ≤ o.phase.toNat + (quantizedIncrement num32 o.sr o.cfg.fscale f).toNat) ∧
  (∀ v : Voice F32, v.idx.toNat ≤ (advanceVoice v).idx.toNat)

/-- 41_phase_accumulator.md R125: the add modulo 2^32, and that the wrap test is its carry. -/
def Obligations.WrapIsCarry : Prop :=
  (∀ (q : U32) (o : Oscillator F32), (advanced num32 q o).phase.toNat = (o.phase.toNat + q.toNat) % 2 ^ 32) ∧
  (∀ p q : U32, wraps p (p + q) = true ↔ 2 ^ 32 ≤ p.toNat + q.toNat) ∧
  (∀ p : U32, wraps p (p + 0#32) = false)

/-- 41_phase_accumulator.md R122 to R124: at a positive rate the increment is never negative, its conversion truncates
and saturates, and the quantised increment is the multiple of 64 below. -/
def Obligations.IncrementTruncatedAndQuantized : Prop :=
  ∀ (sr f : F32) (fscale : FScale), Binary32.isFinite sr = true → 0 < Binary32.toRat sr →
    let x := increment num32 sr fscale f
    let c := if 2 ^ 32 ≤ Binary32.toRat x then 2 ^ 32 - 1 else (Binary32.toRat x).floor.toNat
    Binary32.isFinite x = true →
      0 ≤ Binary32.toRat x ∧ (Binary32.cvtU32 x).toNat = c ∧
      (quantizedIncrement num32 sr fscale f).toNat = c - c % 64

/-- 41_phase_accumulator.md R130: `q = 0` exactly when the increment is below 64, and then ADV moves nothing and
retargets no voice. -/
def Obligations.TinyFrequencyMovesNothing : Prop :=
  ∀ (f : F32) (o o' : Oscillator F32), Binary32.isFinite o.sr = true → 0 < Binary32.toRat o.sr → adv num32 f o = .ok o' →
    (quantizedIncrement num32 o.sr o.cfg.fscale f = 0#32 ↔
      Binary32.toRat (increment num32 o.sr o.cfg.fscale f) < 64) ∧
    (Binary32.toRat (increment num32 o.sr o.cfg.fscale f) < 64 → o' = o)

/-- 41_phase_accumulator.md R132: at and above 2^32 the increment saturates, the phase moves back by 64, and it wraps
exactly when the old phase is at least 64. -/
def Obligations.SaturatedFrequencySteps : Prop :=
  ∀ (f : F32) (o o' : Oscillator F32), adv num32 f o = .ok o' →
    (2 : ℚ) ^ 32 ≤ Binary32.toRat (increment num32 o.sr o.cfg.fscale f) →
    o'.phase = o.phase - 64#32 ∧
    (64 ≤ o.phase.toNat → o'.nextvoice = o.nextvoice + 1#3) ∧
    (o.phase.toNat < 64 → o'.nextvoice = o.nextvoice ∧ o'.voice = o.voice)

/-- 41_phase_accumulator.md R126 to R128: the whole effect of a TICK on the accumulator and the voice file, on a wrap
and without one. -/
def Obligations.TickRetargetsNextSlotOnWrap : Prop :=
  ∀ (f : F32) (s t : State), exec (.tick f) s = .next t →
    let q := quantizedIncrement num32 s.osc.sr s.osc.cfg.fscale (tickHz num32 s.osc.cfg f)
    let d := q.toNat / 64
    let p := (s.osc.phase.toNat + q.toNat) % 2 ^ 32
    t.osc.phase.toNat = p ∧
    (2 ^ 32 ≤ s.osc.phase.toNat + q.toNat →
      t.osc.nextvoice.toNat = (s.osc.nextvoice.toNat + 1) % 8 ∧
      getVoice t.osc.voice t.osc.nextvoice =
        { idx := BitVec.ofNat 12 (p / d)
          frac := Binary32.div (Binary32.ofNat (p % d)) (Binary32.ofNat d)
          amp := s.osc.polscale } ∧
      (∀ j, j ≠ t.osc.nextvoice → getVoice t.osc.voice j = advanceVoice (getVoice s.osc.voice j)) ∧
      t.osc.polscale = if s.osc.alt = true then Binary32.neg s.osc.polscale else s.osc.polscale) ∧
    (s.osc.phase.toNat + q.toNat < 2 ^ 32 →
      t.osc.nextvoice = s.osc.nextvoice ∧ t.osc.polscale = s.osc.polscale ∧
      ∀ j, getVoice t.osc.voice j = advanceVoice (getVoice s.osc.voice j))

/-- 41_phase_accumulator.md R127, 10_state.md R30 I2: on a wrap the divisor is at least 1, the new phase is below the
increment, and the new index is at most 63. -/
def Obligations.RetargetStaysInFirstSample : Prop :=
  ∀ p q : U32, q.toNat % 64 = 0 → 2 ^ 32 ≤ p.toNat + q.toNat →
    64 ≤ q.toNat ∧ 1 ≤ decimatedIncrement q ∧ (p + q).toNat < q.toNat ∧
    (p + q).toNat / decimatedIncrement q ≤ 63 ∧
    (retargetIdx (p + q) q).toNat = (p + q).toNat / decimatedIncrement q ∧
    (p + q).toNat % decimatedIncrement q < decimatedIncrement q

/-- 41_phase_accumulator.md R127: the rounded fraction is a real number from 0 to 1, 1 included. -/
def Obligations.RetargetFractionInUnit : Prop :=
  ∀ p q : U32, 64 ≤ q.toNat →
    Binary32.isFinite (retargetFrac num32 p q) = true ∧
    0 ≤ Binary32.toRat (retargetFrac num32 p q) ∧ Binary32.toRat (retargetFrac num32 p q) ≤ 1

/-- 41_phase_accumulator.md R134: with a constant increment `q > 0`, the next wrap after a wrap comes after
`floor(2^32 / q)` or `ceil(2^32 / q)` samples, and none comes before it. -/
def Obligations.WrapGapIsFloorOrCeil : Prop :=
  ∀ p q : U32, q ≠ 0#32 → wraps p (p + q) = true →
    let phaseAfter : Nat → U32 := fun k => p + q + q * BitVec.ofNat 32 k
    ∃ k : Nat, 1 ≤ k ∧ (k = 2 ^ 32 / q.toNat ∨ k = (2 ^ 32 + q.toNat - 1) / q.toNat) ∧
      wraps (phaseAfter (k - 1)) (phaseAfter (k - 1) + q) = true ∧
      ∀ j, j + 1 < k → wraps (phaseAfter j) (phaseAfter j + q) = false

/-- 41_phase_accumulator.md R126, R128: over any number of wraps the slots are taken round-robin, and with `ALT` held
at 1 the amplitudes alternate in sign, with it held at 0 they are all alike. -/
def Obligations.RetargetsRoundRobinAlternating : Prop :=
  ∀ (ws : List (U32 × U32)) (w : U32 × U32) (o : Oscillator F32),
    let before := ws.foldl (fun o w => retarget num32 w.1 w.2 o) o
    let after := retarget num32 w.1 w.2 before
    after.nextvoice.toNat = (o.nextvoice.toNat + ws.length + 1) % 8 ∧
    (getVoice after.voice after.nextvoice).amp =
      (if o.alt = true ∧ ws.length % 2 = 1 then Binary32.neg o.polscale else o.polscale) ∧
    after.polscale =
      (if o.alt = true ∧ (ws.length + 1) % 2 = 1 then Binary32.neg o.polscale else o.polscale)

/-! ## Playback and mixing -/

/-- 42_playback_mixer.md R141, R142: the mixer sum starts at `+0` and takes the voices in slot order, each with its own
two reads, one subtraction, one multiplication and one addition, then its amplitude. -/
def Obligations.MixerSumsInSlotOrder : Prop :=
  ∀ s : State, SpaceFull s.kernel.impulse → (∀ v ∈ s.osc.voice.toList, v.idx.toNat ≤ 4094) →
    mixerSum s = .ok (s.osc.voice.toList.foldl (fun sum v =>
      let a := (memRead s.kernel.impulse v.idx.toNat).getD 0#32
      let b := (memRead s.kernel.impulse (v.idx.toNat + 1)).getD 0#32
      Binary32.add sum (Binary32.mul v.amp (Binary32.add a (Binary32.mul v.frac (Binary32.sub b a)))))
      0x00000000#32)

/-- 42_playback_mixer.md R143: the advance by 64 or the freeze of each voice, which keeps the index in bounds, and that
MIX does it to every slot. -/
def Obligations.VoiceAdvancesOrFreezes : Prop :=
  (∀ v : Voice F32, v.idx.toNat + 64 + 1 < 4096 →
    (advanceVoice v).idx.toNat = v.idx.toNat + 64 ∧ (advanceVoice v).frac = v.frac ∧ (advanceVoice v).amp = v.amp) ∧
  (∀ v : Voice F32, 4096 ≤ v.idx.toNat + 64 + 1 → advanceVoice v = v) ∧
  (∀ v : Voice F32, v.idx.toNat ≤ 4094 → (advanceVoice v).idx.toNat ≤ 4094) ∧
  (∀ (m : Memory F32) (vs vs' : Vector (Voice F32) 8) (x : F32), mix num32 m vs = .ok (x, vs') →
    ∀ j : BitVec 3, getVoice vs' j = advanceVoice (getVoice vs j))

/-- 42_playback_mixer.md R146: from a start index up to 62 a voice advances 63 times and freezes 4032 further on; from
63 it advances 62 times and freezes at 4031. -/
def Obligations.VoiceLifetime : Prop :=
  ∀ (v : Voice F32) (k : Nat), v.idx.toNat ≤ 63 →
    (advanceVoice^[k] v).idx.toNat =
      (if v.idx.toNat ≤ 62 then v.idx.toNat + 64 * min k 63 else 63 + 64 * min k 62) ∧
    (advanceVoice^[k] v).frac = v.frac ∧ (advanceVoice^[k] v).amp = v.amp

/-- 42_playback_mixer.md R147: without wraps the mixer output is constant from the 63rd MIX on, whatever the voices and
the table. -/
def Obligations.MixSettlesToConstant : Prop :=
  ∀ (m : Memory F32) (vs : Vector (Voice F32) 8) (k : Nat), 63 ≤ k →
    mix num32 m ((mapVoices advanceVoice)^[k] vs) = mix num32 m ((mapVoices advanceVoice)^[63] vs)

/-- 42_playback_mixer.md R142, R147: slots with amplitude 0 add nothing: if every amplitude is `+0` and every
interpolated value is a real number, the mixer sum is exactly `+0`. -/
def Obligations.SilentVoicesMixToZero : Prop :=
  ∀ s : State, SpaceFull s.kernel.impulse →
    (∀ v ∈ s.osc.voice.toList, v.idx.toNat ≤ 4094 ∧ v.amp = 0#32 ∧
      ∀ a b, memRead s.kernel.impulse v.idx.toNat = some a → memRead s.kernel.impulse (v.idx.toNat + 1) = some b →
        Binary32.isFinite (interpolate num32 v.frac a b) = true) →
    mixerSum s = .ok 0x00000000#32

/-! ## The filter -/

/-- 43_post_filter.md R165 to R169, in binary32: one section line by line, and the three in series. -/
def Obligations.FilterSectionEquations : Prop :=
  (∀ (x : F32) (s : FilterSection F32),
    let sm := fun (tgt cur : F32) =>
      Binary32.add cur (Binary32.mul 0x3D4CCCCD#32 (Binary32.sub tgt cur))
    let c : Coeffs F32 :=
      { ar := sm s.tgt.ar s.cur.ar, ai := sm s.tgt.ai s.cur.ai, c0 := sm s.tgt.c0 s.cur.c0,
        c1 := sm s.tgt.c1 s.cur.c1, c2 := sm s.tgt.c2 s.cur.c2 }
    let y := Binary32.add (Binary32.add (Binary32.mul c.c0 x) (Binary32.mul c.c1 s.s1)) (Binary32.mul c.c2 s.s2)
    let n1 := Binary32.add (Binary32.add (Binary32.mul c.ar s.s1) (Binary32.mul c.ai s.s2)) x
    let n2 := Binary32.sub (Binary32.mul c.ar s.s2) (Binary32.mul c.ai s.s1)
    filtSection num32 x s =
      (Binary32.ftz y, { tgt := s.tgt, cur := c, s1 := Binary32.ftz n1, s2 := Binary32.ftz n2 })) ∧
  (∀ (x : F32) (v : Vector (FilterSection F32) 3),
    let r0 := filtSection num32 x v[0]
    let r1 := filtSection num32 r0.1 v[1]
    let r2 := filtSection num32 r1.1 v[2]
    filt num32 x v = (r2.1, #v[r0.2, r1.2, r2.2]))

/-- 43_post_filter.md R170, in exact arithmetic: with constant coefficients three successive samples satisfy the
difference equation whose transfer function the rule gives, and a section with `AI`, `C2`, `S2` negated gives the same
output and `S1`. -/
def Obligations.SectionDifferenceEquation : Prop :=
  (∀ (fns : NumFns ℚ) (c : Coeffs ℚ) (s1 s2 x0 x1 x2 : ℚ),
    let r0 := filtSection (numExact fns) x0 { tgt := c, cur := c, s1 := s1, s2 := s2 }
    let r1 := filtSection (numExact fns) x1 r0.2
    let r2 := filtSection (numExact fns) x2 r1.2
    let norm := c.ar * c.ar + c.ai * c.ai
    r2.1 - 2 * c.ar * r1.1 + norm * r0.1 =
      c.c0 * x2 + (c.c1 - 2 * c.c0 * c.ar) * x1 + (c.c0 * norm - c.c1 * c.ar - c.c2 * c.ai) * x0) ∧
  (∀ (fns : NumFns ℚ) (c : Coeffs ℚ) (s1 s2 x : ℚ),
    let c' : Coeffs ℚ := { c with ai := -c.ai, c2 := -c.c2 }
    let r := filtSection (numExact fns) x { tgt := c, cur := c, s1 := s1, s2 := s2 }
    let r' := filtSection (numExact fns) x { tgt := c', cur := c', s1 := s1, s2 := -s2 }
    r'.1 = r.1 ∧ r'.2.s1 = r.2.s1 ∧ r'.2.s2 = -r.2.s2)

/-- 43_post_filter.md R172, R173 (d), in exact arithmetic: with no input a section's squared state is multiplied by
`|a|²` per sample; and a smoothing step between two poles inside the unit circle stays inside it. -/
def Obligations.PoleGovernsSectionState : Prop :=
  (∀ (fns : NumFns ℚ) (c : Coeffs ℚ) (s1 s2 : ℚ),
    let r := filtSection (numExact fns) 0 { tgt := c, cur := c, s1 := s1, s2 := s2 }
    r.2.s1 * r.2.s1 + r.2.s2 * r.2.s2 = (c.ar * c.ar + c.ai * c.ai) * (s1 * s1 + s2 * s2)) ∧
  (∀ (fns : NumFns ℚ) (t c : Coeffs ℚ), t.ar * t.ar + t.ai * t.ai < 1 → c.ar * c.ar + c.ai * c.ai < 1 →
    let b := smoothCoeffs (numExact fns) t c
    b.ar * b.ar + b.ai * b.ai < 1)

/-- 43_post_filter.md R166, R171, in exact arithmetic: the distance to the target is multiplied by 0.95 per sample. -/
def Obligations.SmoothingIsGeometric : Prop :=
  ∀ (fns : NumFns ℚ) (tgt cur : ℚ) (k : Nat),
    (smooth (numExact fns) tgt)^[k] cur - tgt = (19 / 20) ^ k * (cur - tgt)

/-- 43_post_filter.md R166, in binary32: at the target the update leaves the current value unchanged (a current value
of `−0` becomes `+0`, which R174 calls equal). -/
def Obligations.SmoothingKeepsReachedTarget : Prop :=
  ∀ c : F32, Binary32.isFinite c = true →
    smooth num32 c c = if c = 0x80000000#32 then 0x00000000#32 else c

/-- 43_post_filter.md R168: what the guard does to a value, and that the three values every section computes, on every
input, have passed it. -/
def Obligations.FilterNeverStoresDenormal : Prop :=
  (∀ v : F32, Binary32.isFinite v = true →
    Binary32.ftz v =
      if Binary32.toRat v ≠ 0 ∧ |Binary32.toRat v| < 1 / 2 ^ 126 then 0x00000000#32 else v) ∧
  (∀ (x : F32) (s : FilterSection F32),
    Binary32.isSubnormal (filtSection num32 x s).1 = false ∧
    Binary32.isSubnormal (filtSection num32 x s).2.s1 = false ∧
    Binary32.isSubnormal (filtSection num32 x s).2.s2 = false) ∧
  (∀ (x : F32) (v : Vector (FilterSection F32) 3),
    Binary32.isSubnormal (filt num32 x v).1 = false ∧
    ∀ (k : Nat) (hk : k < 3),
      Binary32.isSubnormal ((filt num32 x v).2[k]).s1 = false ∧
      Binary32.isSubnormal ((filt num32 x v).2[k]).s2 = false) ∧
  (∀ (fns : NumFns ℚ) (x : ℚ), (numExact fns).ftz x = x)

/-- 70_reset_and_hazards.md R222: with no DESIGN since reset, no command but DESIGN changes that, and every output a
TICK gives denotes 0. -/
def Obligations.UndesignedFilterIsSilent : Prop :=
  ∀ (i : Instr) (s t : State), Inv s → Undesigned s.osc → (∀ f0, i ≠ .design f0) → exec i s = .next t →
    Undesigned t.osc ∧
    (t.osc.output = s.osc.output ∨ ∃ y, t.osc.output = s.osc.output ++ [.pattern y] ∧ Binary32.toRat y = 0)

/-! ## Numbers -/

/-- 30_encoding.md R80: the value a binary32 pattern denotes, and which patterns denote none. -/
def Obligations.PatternDenotesValue : Prop :=
  ∀ x : F32,
    let s : Nat := x.toNat / 2 ^ 31
    let e : Nat := x.toNat / 2 ^ 23 % 256
    let f : Nat := x.toNat % 2 ^ 23
    (1 ≤ e ∧ e ≤ 254 → Binary32.isFinite x = true ∧
      Binary32.toRat x = (-1 : ℚ) ^ s * (2 : ℚ) ^ ((e : ℤ) - 127) * (1 + (f : ℚ) / 2 ^ 23)) ∧
    (e = 0 → Binary32.isFinite x = true ∧
      Binary32.toRat x = (-1 : ℚ) ^ s * (2 : ℚ) ^ (-126 : ℤ) * ((f : ℚ) / 2 ^ 23)) ∧
    (e = 255 → Binary32.isFinite x = false ∧ Binary32.isInf x = decide (f = 0) ∧
      Binary32.isNaN x = decide (f ≠ 0)) ∧
    (Binary32.isSubnormal x = decide (e = 0 ∧ f ≠ 0))

/-- 43_post_filter.md R174, 00_scope.md R13: the one rounding picks a nearest binary32 value, the one with an even last
bit where two are equally near, and overflows exactly where round to nearest does. -/
def Obligations.RoundingIsNearestEven : Prop :=
  (∀ x : F32, Binary32.isFinite x = true → x ≠ 0x80000000#32 → Binary32.ofRat (Binary32.toRat x) = x) ∧
  (∀ q : ℚ, Binary32.isFinite (Binary32.ofRat q) = true ↔ |q| < 2 ^ 128 - 2 ^ 103) ∧
  (∀ (q : ℚ) (y : F32), Binary32.isFinite (Binary32.ofRat q) = true → Binary32.isFinite y = true →
    |Binary32.toRat (Binary32.ofRat q) - q| ≤ |Binary32.toRat y - q| ∧
    (|Binary32.toRat (Binary32.ofRat q) - q| = |Binary32.toRat y - q| →
      Binary32.toRat y ≠ Binary32.toRat (Binary32.ofRat q) → (Binary32.ofRat q).getLsbD 0 = false))

/-- 00_scope.md R13: each operation on finite operands is the exact real result, rounded once; negation and absolute
value are exact. -/
def Obligations.ArithmeticExactThenRounded : Prop :=
  ∀ x y : F32, Binary32.isFinite x = true → Binary32.isFinite y = true →
    let a := Binary32.toRat x
    let b := Binary32.toRat y
    (a + b ≠ 0 → Binary32.add x y = Binary32.ofRat (a + b)) ∧
    (a + b = 0 → Binary32.toRat (Binary32.add x y) = 0) ∧
    (a - b ≠ 0 → Binary32.sub x y = Binary32.ofRat (a - b)) ∧
    (a - b = 0 → Binary32.toRat (Binary32.sub x y) = 0) ∧
    (a * b ≠ 0 → Binary32.mul x y = Binary32.ofRat (a * b)) ∧
    (a * b = 0 → Binary32.toRat (Binary32.mul x y) = 0) ∧
    (a ≠ 0 → b ≠ 0 → Binary32.div x y = Binary32.ofRat (a / b)) ∧
    (a = 0 → b ≠ 0 → Binary32.toRat (Binary32.div x y) = 0) ∧
    Binary32.toRat (Binary32.neg x) = -a ∧ Binary32.toRat (Binary32.abs x) = |a| ∧
    (Binary32.lt x y = true ↔ a < b)

/-! ## Domains, faults, independence -/

/-- 44_render_and_control.md R186: in every state that meets the invariant, a command answers a next state exactly
inside the domain the table gives it, and a fault of its row outside. -/
def Obligations.CommandDomains : Prop :=
  ∀ (i : Instr) (s : State), Inv s →
    (InDomain i s ↔ ∃ t, exec i s = .next t) ∧
    (¬InDomain i s → ∃ e, exec i s = .fault e ∧
      match i with
      | .build => False
      | .setsr _ => e = .nonFinite ∨ e = .badSr
      | .setalt _ => False
      | .setphase _ => False
      | .design _ => e = .noSr ∨ e = .nonFinite
      | .tick _ => e = .noKernel ∨ e = .noSr ∨ e = .nonFinite)

/-- 60_exceptions.md R202: from every state, which faults each command can raise; no command is refused. -/
def Obligations.FaultsByCommand : Prop :=
  ∀ (i : Instr) (s : State),
    (∀ r, exec i s ≠ .refused r) ∧
    (∀ e, exec i s = .fault e →
      match i with
      | .build => False
      | .setsr _ => e = .nonFinite ∨ e = .badSr
      | .setalt _ => False
      | .setphase _ => False
      | .design _ => e = .noSr ∨ e = .nonFinite
      | .tick _ => e = .noKernel ∨ e = .noSr ∨ e = .nonFinite ∨ e = .oob)

/-- 20_memory.md R58 item 4, 60_exceptions.md R209: with the kernel built, a command on one port and a command on
another give the same state in either order. The bank and the choice of a port are the model's own (log entry 11). -/
def Obligations.OscillatorsIndependent : Prop :=
  ∀ (i j : Instr) (n : Nat) (s s1 s2 s3 s4 : State), s.kernel.built = true →
    exec i s = .next s1 → selectPort n s1 = .next s2 → exec j s2 = .next s3 → selectPort n s3 = .next s4 →
    ∃ u1 u2 u3, selectPort n s = .next u1 ∧ exec j u1 = .next u2 ∧ selectPort n u2 = .next u3 ∧
      exec i u3 = .next s4

/-! ## Notes, pseudo-commands, the builder -/

/-- 44_render_and_control.md R183, in exact arithmetic: MAP's formula, and that it is exact on whole octaves from note
69, the reference `exp2` being exact on integers (log entry 2). -/
def Obligations.MapExactOnOctaves : Prop :=
  (∀ (fns : NumFns ℚ) (note : ℚ), mapNote (numExact fns) note = 440 * fns.exp2 ((note - 69) / 12)) ∧
  (∀ k : ℤ, -4096 ≤ k → k ≤ 4096 → mapNote numReference (69 + 12 * k) = 440 * (2 : ℚ) ^ k)

/-- 30_encoding.md R78: what each pseudo-command expands to. -/
def Obligations.PseudoCommandsExpand : Prop :=
  (∀ (sr f : F32) (fs : List F32),
    renderPseudo sr (f :: fs) = some (.setsr sr :: .design f :: .tick f :: fs.map Instr.tick)) ∧
  (∀ sr : F32, renderPseudo sr [] = none) ∧
  (∀ f0 : F32, blockPseudo f0 = .design f0) ∧
  (∀ v : ℚ, (v < 0 ∨ 1 ≤ v) → setphasePseudo v = none) ∧
  (∀ (v : ℚ) (n : Nat), 0 ≤ v → v < 1 → |v * 2 ^ 32 - n| ≤ 1 / 2 → v * 2 ^ 32 ≠ n + 1 / 2 →
    setphasePseudo v = some (.setphase (BitVec.ofNat 32 n)))

/-- 40_kernel_build.md R102, R105, R107, R108, in exact arithmetic: step 1 entry by entry, and that its buffer is even;
step 3 keeps the coefficients up to `M/2` and zeroes the rest; step 5 divides the first `M/2` real parts by their sum and
scales each entry by 64; step 6 stores 1 minus the cumulative sum. A bin of magnitude 0 and a sum of 0 are faults (93
entry U9; which fault is the model's choice, log entry 19). -/
def Obligations.BuilderStepsAsWritten : Prop :=
  (∀ (fns : NumFns ℚ) (m i : Nat), i < m →
    let theta : ℚ := if i ≤ m / 2 then 2 * fns.pi * i / m else 2 * fns.pi * ((i : ℚ) - m) / m
    let t := theta * (256 / 10) * m / ((m / 2 : Nat) : ℚ)
    let sinc := if i = 0 then 1 else fns.sin t / t
    (builderSource (numExact fns) m)[i]? =
      some { re := sinc * (42 / 100 + 1 / 2 * fns.cos theta + 8 / 100 * fns.cos (2 * theta)), im := 0 }) ∧
  (∀ (m i : Nat), 1 ≤ i → 2 * i < m →
    builderSinc numReference m (m - i) * builderWindow numReference m (m - i) =
      builderSinc numReference m i * builderWindow numReference m i) ∧
  (∀ (fns : NumFns ℚ) (cs : List (Cx ℚ)) (k : Nat), k < cs.length →
    (dropAntiCausal (numExact fns) cs)[k]? = if cs.length / 2 < k then some { re := 0, im := 0 } else cs[k]?) ∧
  (∀ (fns : NumFns ℚ) (m : Nat),
    let k := ((builderKernel (numExact fns) m).take (m / 2)).map Cx.re
    normalizedKernel (numExact fns) m = k.map (fun x => x / k.sum) ∧
    (k.sum ≠ 0 → (normalizedKernel (numExact fns) m).sum = 1)) ∧
  (∀ (fns : NumFns ℚ) (kn : List ℚ),
    (∀ k : Nat, k < kn.length → (impulseTable (numExact fns) kn)[k]? = some (64 * kn.getD k 0)) ∧
    (impulseTable (numExact fns) kn).length = kn.length ∧ (impulseTable (numExact fns) kn).sum = 64 * kn.sum) ∧
  (∀ (fns : NumFns ℚ) (kn : List ℚ) (k : Nat), k < kn.length →
    (stepTable (numExact fns) kn 0)[k]? = some (1 - (kn.take (k + 1)).sum)) ∧
  (∀ (fns : NumFns ℚ) (m : Nat),
    ((∃ x ∈ builderSpectrum (numExact fns) m, cxAbs (numExact fns) x = 0) ∨
      (((builderKernel (numExact fns) m).take (m / 2)).map Cx.re).sum = 0) →
    builtTables (numExact fns) m = .error .nonFinite)
end

