-- ==== Sys2Proof/Laws/Binary32.lean ====
section
/-! SUPPORT. What the binary32 arithmetic does: the fields of a packed pattern, the bounds and the exact cases of
its one rounding, and sign changes. Proofs about reals cite these instead of unfolding the arithmetic. -/

namespace Sys2Proof.Binary32

/-! ## Fields -/

theorem expField_eq (x : F32) : expField x = x.toNat / 2 ^ 23 % 256 := by
  simp [expField, BitVec.extractLsb'_toNat, Nat.shiftRight_eq_div_pow]

theorem fracField_eq (x : F32) : fracField x = x.toNat % 2 ^ 23 := by
  simp [fracField, BitVec.extractLsb'_toNat]

theorem signBit_eq (x : F32) : signBit x = decide (2 ^ 31 ≤ x.toNat) := by
  have h := BitVec.msb_eq_decide x
  simpa [BitVec.msb_eq_getLsbD_last, signBit] using h

theorem toNat_pack (s : Bool) {m : Nat} (h : m < 2 ^ 31) : (pack s m).toNat = m + if s then 2 ^ 31 else 0 := by
  unfold pack
  rw [BitVec.toNat_ofNat]
  cases s <;> simp <;> omega

@[simp] theorem signBit_pack (s : Bool) {m : Nat} (h : m < 2 ^ 31) : signBit (pack s m) = s := by
  rw [signBit_eq, toNat_pack s h]
  cases s
  · simpa using h
  · simp

theorem expField_pack (s : Bool) {m : Nat} (h : m < 2 ^ 31) : expField (pack s m) = m / 2 ^ 23 := by
  rw [expField_eq, toNat_pack s h]
  cases s <;> simp <;> omega

theorem fracField_pack (s : Bool) {m : Nat} (h : m < 2 ^ 31) : fracField (pack s m) = m % 2 ^ 23 := by
  rw [fracField_eq, toNat_pack s h]
  cases s
  · simp
  · simp
    omega

theorem isFinite_pack (s : Bool) {m : Nat} (h : m ≤ 0x7F800000) :
    isFinite (pack s m) = decide (m < 0x7F800000) := by
  have hm : m / 2 ^ 23 = 255 ↔ ¬ m < 0x7F800000 := by omega
  unfold isFinite
  rw [expField_pack s (by omega)]
  by_cases h2 : m < 0x7F800000 <;> simp_all [bne, BEq.beq]

/-- A pattern is its sign and its bits 30 to 0. -/
theorem pack_signBit (x : F32) : pack (signBit x) (x.toNat % 2 ^ 31) = x := by
  apply BitVec.eq_of_toNat_eq
  rw [toNat_pack _ (by omega), signBit_eq]
  have hx := x.isLt
  by_cases h : 2 ^ 31 ≤ x.toNat
  · rw [if_pos (by simpa using h)]
    omega
  · rw [if_neg (by simpa using h)]
    omega

/-! ## The value of a magnitude -/

/-- The value of the magnitude bits `m`, a multiple of 2^-149. -/
def unitsOfBits (m : Nat) : Nat :=
  if m / 2 ^ 23 = 0 then m % 2 ^ 23 else (m % 2 ^ 23 + 2 ^ 23) * 2 ^ (m / 2 ^ 23 - 1)

theorem units_pack (s : Bool) {m : Nat} (h : m < 2 ^ 31) : units (pack s m) = unitsOfBits m := by
  rw [units, expField_pack s h, fracField_pack s h, unitsOfBits]

theorem units_eq (x : F32) : units x = unitsOfBits (x.toNat % 2 ^ 31) := by
  conv_lhs => rw [← pack_signBit x]
  exact units_pack _ (by omega)

/-- Exponent and mantissa recombine: `sh · 2^23 + q` has the value `q · 2^sh`. -/
theorem unitsOfBits_combine {sh q : Nat} (h : q ≤ 2 ^ 24) (h' : sh = 0 ∨ 2 ^ 23 ≤ q) :
    unitsOfBits (sh * 2 ^ 23 + q) = q * 2 ^ sh := by
  unfold unitsOfBits
  rcases Nat.lt_or_ge q (2 ^ 23) with hq | hq
  · obtain rfl : sh = 0 := by omega
    rw [if_pos (by omega)]
    omega
  · rcases Nat.lt_or_ge q (2 ^ 24) with hq2 | hq2
    · have he : (sh * 2 ^ 23 + q) / 2 ^ 23 = sh + 1 := by omega
      rw [if_neg (by omega), he]
      have hf : (sh * 2 ^ 23 + q) % 2 ^ 23 = q - 2 ^ 23 := by omega
      rw [hf, Nat.sub_add_cancel hq, Nat.add_sub_cancel]
    · obtain rfl : q = 2 ^ 24 := by omega
      have he : (sh * 2 ^ 23 + 2 ^ 24) / 2 ^ 23 = sh + 2 := by omega
      have hf : (sh * 2 ^ 23 + 2 ^ 24) % 2 ^ 23 = 0 := by omega
      rw [if_neg (by omega), he, hf]
      have : 2 ^ (sh + 2 - 1) = 2 ^ sh * 2 := by rw [show sh + 2 - 1 = sh + 1 by omega, pow_succ]
      rw [this]
      omega

/-! ## The rounding -/

/-- The exponent the rounding picks. -/
def roundShift (n d : Nat) : Nat := Nat.log2 (n / d) - 23

/-- The rounded 24-bit quotient. -/
def roundQuot (n d : Nat) : Nat :=
  if d * 2 ^ roundShift n d < 2 * (n % (d * 2 ^ roundShift n d)) ∨
      (d * 2 ^ roundShift n d = 2 * (n % (d * 2 ^ roundShift n d)) ∧ n / (d * 2 ^ roundShift n d) % 2 = 1) then
    n / (d * 2 ^ roundShift n d) + 1
  else n / (d * 2 ^ roundShift n d)

theorem roundUnits_eq (n d : Nat) : roundUnits n d = min (roundShift n d * 2 ^ 23 + roundQuot n d) 0x7F800000 := rfl

theorem roundUnits_le (n d : Nat) : roundUnits n d ≤ 0x7F800000 := Nat.min_le_right _ _

theorem roundUnits_lt_pow (n d : Nat) : roundUnits n d < 2 ^ 31 :=
  Nat.lt_of_le_of_lt (roundUnits_le n d) (by decide)

/-- The truncated quotient has 24 bits at most, and exactly 24 above the smallest exponent. -/
theorem quot_bounds (n d : Nat) :
    n / (d * 2 ^ roundShift n d) < 2 ^ 24 ∧
      (roundShift n d = 0 ∨ 2 ^ 23 ≤ n / (d * 2 ^ roundShift n d)) := by
  rw [← Nat.div_div_eq_div_mul]
  unfold roundShift
  generalize n / d = q0
  rcases Nat.eq_zero_or_pos q0 with h0 | h0
  · subst h0
    simp
  · have hlo : 2 ^ Nat.log2 q0 ≤ q0 := Nat.log2_self_le (by omega)
    have hhi : q0 < 2 ^ (Nat.log2 q0 + 1) := Nat.lt_log2_self
    generalize Nat.log2 q0 = l at *
    rcases Nat.lt_or_ge l 24 with hl | hl
    · have h1 : l - 23 = 0 := by omega
      rw [h1]
      refine ⟨?_, Or.inl rfl⟩
      have : 2 ^ (l + 1) ≤ 2 ^ 24 := Nat.pow_le_pow_right (by decide) (by omega)
      simpa using Nat.lt_of_lt_of_le hhi this
    · have hl2 : 2 ^ (l + 1) = 2 ^ 24 * 2 ^ (l - 23) := by rw [← pow_add]; congr 1; omega
      have hl3 : 2 ^ l = 2 ^ 23 * 2 ^ (l - 23) := by rw [← pow_add]; congr 1; omega
      refine ⟨?_, Or.inr ?_⟩
      · exact Nat.div_lt_of_lt_mul (by rw [Nat.mul_comm, ← hl2]; exact hhi)
      · exact (Nat.le_div_iff_mul_le (Nat.two_pow_pos _)).2 (by rw [← hl3]; exact hlo)

theorem roundQuot_bounds (n d : Nat) :
    roundQuot n d ≤ 2 ^ 24 ∧ (roundShift n d = 0 ∨ 2 ^ 23 ≤ roundQuot n d) := by
  obtain ⟨h1, h2⟩ := quot_bounds n d
  unfold roundQuot
  split <;> constructor <;> omega

/-- The value of the rounded pattern, where it is below the infinity. -/
theorem unitsOfBits_roundUnits {n d : Nat} (h : roundUnits n d < 0x7F800000) :
    unitsOfBits (roundUnits n d) = roundQuot n d * 2 ^ roundShift n d := by
  obtain ⟨h1, h2⟩ := roundQuot_bounds n d
  rw [roundUnits_eq] at h ⊢
  rw [Nat.min_eq_left (by omega)]
  exact unitsOfBits_combine h1 h2

/-- A ratio below `2^276` units, half the largest power of two the format has, does not round to the infinity. -/
theorem roundUnits_lt {n d : Nat} (h : n / d < 2 ^ 276) : roundUnits n d < 0x7F800000 := by
  obtain ⟨h1, -⟩ := roundQuot_bounds n d
  have hs : roundShift n d ≤ 252 := by
    unfold roundShift
    rcases Nat.eq_zero_or_pos (n / d) with h0 | h0
    · simp [h0]
    · have := (Nat.log2_lt (by omega)).2 h
      omega
  rw [roundUnits_eq]
  omega

/-- A positive integer number of units `n` rounds to at least the largest power of two below it. -/
theorem le_unitsOfBits_roundUnits {n k : Nat} (h : 2 ^ k ≤ n) (hk : 23 ≤ k) (hf : roundUnits n 1 < 0x7F800000) :
    2 ^ k ≤ unitsOfBits (roundUnits n 1) := by
  rw [unitsOfBits_roundUnits hf]
  obtain ⟨-, h2⟩ := roundQuot_bounds n 1
  have hl : k ≤ Nat.log2 n := (Nat.le_log2 (by have := Nat.two_pow_pos k; omega)).2 h
  have hs : roundShift n 1 = Nat.log2 n - 23 := by unfold roundShift; rw [Nat.div_one]
  rcases Nat.eq_or_lt_of_le hk with rfl | hk'
  · rcases h2 with h0 | h2
    · rw [h0]
      have : n / (1 * 2 ^ roundShift n 1) = n := by rw [h0]; simp
      have hq : n ≤ roundQuot n 1 := by
        unfold roundQuot
        split <;> omega
      omega
    · calc 2 ^ 23 ≤ roundQuot n 1 * 1 := by omega
        _ ≤ _ := Nat.mul_le_mul_left _ (Nat.two_pow_pos _)
  · rcases h2 with h0 | h2
    · omega
    · calc 2 ^ k = 2 ^ 23 * 2 ^ (k - 23) := by rw [← pow_add]; congr 1; omega
        _ ≤ roundQuot n 1 * 2 ^ roundShift n 1 := by
          apply Nat.mul_le_mul h2
          exact Nat.pow_le_pow_right (by decide) (by omega)

/-- An exact multiple of the quantum is not changed. -/
theorem roundQuot_of_dvd {n d : Nat} (h : n % (d * 2 ^ roundShift n d) = 0) (hd : 0 < d) :
    roundQuot n d = n / (d * 2 ^ roundShift n d) := by
  have : 0 < d * 2 ^ roundShift n d := Nat.mul_pos hd (Nat.two_pow_pos _)
  unfold roundQuot
  rw [h, if_neg (by omega)]

theorem unitsOfBits_pos {m : Nat} (h : 2 ^ 23 ≤ m) :
    unitsOfBits m = (m % 2 ^ 23 + 2 ^ 23) * 2 ^ (m / 2 ^ 23 - 1) := by
  unfold unitsOfBits
  rw [if_neg (by omega)]

/-- What is written by its fields is finite. -/
theorem isFinite_pattern (x : FiniteF32) : isFinite x.pattern = true := by
  have h : expField x.pattern = x.exponent.val := by
    have h1 : x.pattern.extractLsb' 23 8 = BitVec.ofNat 8 x.exponent := by
      unfold FiniteF32.pattern
      apply BitVec.eq_of_getLsbD_eq
      intro i hi
      simp only [BitVec.getLsbD_extractLsb', BitVec.getLsbD_append, hi]
      simp [show ¬ 23 + i < 23 by omega, show 23 + i < 31 by omega, show 23 + i - 23 = i by omega]
    rw [expField, h1, BitVec.toNat_ofNat]
    omega
  simp only [isFinite, h, bne_iff_ne]
  omega

/-- Rounding a representable value gives it back. -/
theorem roundUnits_unitsOfBits {m : Nat} (h : m < 0x7F800000) : roundUnits (unitsOfBits m) 1 = m := by
  rcases Nat.lt_or_ge m (2 ^ 24) with hm | hm
  · have hu : unitsOfBits m = m := by
      have := unitsOfBits_combine (sh := 0) (q := m) (by omega) (Or.inl rfl)
      simpa using this
    have hs : roundShift m 1 = 0 := by
      unfold roundShift
      rw [Nat.div_one]
      rcases Nat.eq_zero_or_pos m with h0 | h0
      · simp [h0]
      · have := (Nat.log2_lt (by omega)).2 hm
        omega
    rw [hu, roundUnits_eq, roundQuot_of_dvd (by rw [hs]; simp [Nat.mod_one]) (by decide), hs]
    simp
    omega
  · obtain ⟨sh, q, rfl, hq1, hq2⟩ : ∃ sh q, m = sh * 2 ^ 23 + q ∧ 2 ^ 23 ≤ q ∧ q < 2 ^ 24 :=
      ⟨m / 2 ^ 23 - 1, m % 2 ^ 23 + 2 ^ 23, by omega, by omega, by omega⟩
    rw [unitsOfBits_combine (by omega) (Or.inr hq1)]
    have hlog : Nat.log2 (q * 2 ^ sh) = 23 + sh := by
      have hp := Nat.two_pow_pos sh
      have h1 : 2 ^ (23 + sh) ≤ q * 2 ^ sh := by rw [pow_add]; exact Nat.mul_le_mul_right _ hq1
      have h2 : q * 2 ^ sh < 2 ^ (24 + sh) := by rw [pow_add]; exact Nat.mul_lt_mul_of_pos_right hq2 hp
      have h3 := (Nat.le_log2 (k := 23 + sh) (n := q * 2 ^ sh) (by positivity)).2 h1
      have h4 := (Nat.log2_lt (k := 24 + sh) (n := q * 2 ^ sh) (by positivity)).2 h2
      omega
    have hs : roundShift (q * 2 ^ sh) 1 = sh := by
      unfold roundShift
      rw [Nat.div_one, hlog]
      omega
    rw [roundUnits_eq, roundQuot_of_dvd (by rw [hs]; simp) (by decide), hs, Nat.one_mul,
      Nat.mul_div_cancel _ (Nat.two_pow_pos _)]
    omega

theorem isFinite_eq (x : F32) : isFinite x = decide (x.toNat % 2 ^ 31 < 0x7F800000) := by
  have h : x.toNat / 2 ^ 23 % 256 = 255 ↔ ¬ x.toNat % 2 ^ 31 < 0x7F800000 := by omega
  unfold isFinite
  rw [expField_eq]
  by_cases h2 : x.toNat % 2 ^ 31 < 0x7F800000 <;> simp_all [bne, BEq.beq]

/-- `roundUnits` of a finite value's own units is its magnitude bits. -/
theorem roundUnits_units {x : F32} (h : isFinite x = true) : roundUnits (units x) 1 = x.toNat % 2 ^ 31 := by
  rw [units_eq]
  rw [isFinite_eq] at h
  exact roundUnits_unitsOfBits (by simpa using h)

/-! ## Conversions -/

theorem isFinite_pack_roundUnits {s : Bool} {n d : Nat} (h : n / d < 2 ^ 276) :
    isFinite (pack s (roundUnits n d)) = true := by
  rw [isFinite_pack _ (roundUnits_le n d)]
  simpa using roundUnits_lt h

theorem isFinite_ofNat {n : Nat} (h : n < 2 ^ 127) : isFinite (ofNat n) = true := by
  apply isFinite_pack_roundUnits
  rw [Nat.div_one]
  calc n * 2 ^ 149 < 2 ^ 127 * 2 ^ 149 := Nat.mul_lt_mul_of_pos_right h (Nat.two_pow_pos _)
    _ = 2 ^ 276 := (pow_add 2 127 149).symm

theorem units_ofNat_lt {n k : Nat} (h : n < 2 ^ k) (hk : k ≤ 126) : units (ofNat n) < 2 ^ (k + 150) := by
  have hn : n * 2 ^ 149 < 2 ^ (k + 149) := by
    rw [pow_add]
    exact Nat.mul_lt_mul_of_pos_right h (Nat.two_pow_pos _)
  have hf : roundUnits (n * 2 ^ 149) 1 < 0x7F800000 := by
    apply roundUnits_lt
    rw [Nat.div_one]
    exact Nat.lt_of_lt_of_le hn (Nat.pow_le_pow_right (by decide) (by omega))
  unfold ofNat ofRatio
  rw [units_pack _ (roundUnits_lt_pow _ _), unitsOfBits_roundUnits hf]
  obtain ⟨h1, -⟩ := roundQuot_bounds (n * 2 ^ 149) 1
  have hs : roundShift (n * 2 ^ 149) 1 ≤ k + 125 := by
    unfold roundShift
    rw [Nat.div_one]
    rcases Nat.eq_zero_or_pos (n * 2 ^ 149) with h0 | h0
    · rw [h0, Nat.log2_zero]
      omega
    · have := (Nat.log2_lt (by omega)).2 hn
      omega
  calc _ ≤ 2 ^ 24 * 2 ^ (k + 125) := Nat.mul_le_mul h1 (Nat.pow_le_pow_right (by decide) hs)
    _ = 2 ^ (k + 149) := by rw [← pow_add]; congr 1; omega
    _ < _ := Nat.pow_lt_pow_right (by decide) (by omega)

theorem le_units_ofNat {n : Nat} (h : 1 ≤ n) (h' : n < 2 ^ 127) : 2 ^ 149 ≤ units (ofNat n) := by
  have hf : roundUnits (n * 2 ^ 149) 1 < 0x7F800000 := by
    apply roundUnits_lt
    rw [Nat.div_one]
    calc n * 2 ^ 149 < 2 ^ 127 * 2 ^ 149 := Nat.mul_lt_mul_of_pos_right h' (Nat.two_pow_pos _)
      _ = 2 ^ 276 := (pow_add 2 127 149).symm
  unfold ofNat ofRatio
  rw [units_pack _ (roundUnits_lt_pow _ _)]
  exact le_unitsOfBits_roundUnits (Nat.le_mul_of_pos_left _ h) (by decide) hf

@[simp] theorem signBit_ofNat (n : Nat) : signBit (ofNat n) = false := signBit_pack _ (roundUnits_lt_pow _ _)

theorem isNaN_of_isFinite {x : F32} (h : isFinite x = true) : isNaN x = false := by
  simp only [isFinite, bne_iff_ne] at h
  simp [isNaN, h]

/-- A quotient of two integers below 2^32, the divisor not 0, is finite. -/
theorem isFinite_div_ofNat {n d : Nat} (hn : n < 2 ^ 32) (hd : 1 ≤ d) (hd' : d < 2 ^ 32) :
    isFinite (div (ofNat n) (ofNat d)) = true := by
  have fn : isFinite (ofNat n) = true := isFinite_ofNat (by omega)
  have fd : isFinite (ofNat d) = true := isFinite_ofNat (by omega)
  have hu : 2 ^ 149 ≤ units (ofNat d) := le_units_ofNat hd (by omega)
  have hm : units (ofNat n) < 2 ^ (32 + 150) := units_ofNat_lt hn (by decide)
  have hne : units (ofNat d) ≠ 0 := by have := Nat.two_pow_pos 149; omega
  simp only [div, isNaN_of_isFinite fn, isNaN_of_isFinite fd, fn, fd, Bool.or_self, if_true, Bool.not_true,
    beq_eq_false_iff_ne.2 hne, Bool.false_eq_true, if_false]
  apply isFinite_pack_roundUnits
  calc units (ofNat n) * 2 ^ 149 / units (ofNat d) ≤ units (ofNat n) * 2 ^ 149 / 2 ^ 149 :=
        Nat.div_le_div_left hu (Nat.two_pow_pos _)
    _ = units (ofNat n) := Nat.mul_div_cancel _ (Nat.two_pow_pos _)
    _ < 2 ^ 276 := Nat.lt_trans hm (Nat.pow_lt_pow_right (by decide) (by decide))

/-! ## Signs -/

theorem expField_neg (x : F32) : expField (neg x) = expField x := by
  unfold expField neg
  rw [BitVec.extractLsb'_xor, show BitVec.extractLsb' 23 8 0x80000000#32 = 0#8 by decide, BitVec.xor_zero]

theorem fracField_neg (x : F32) : fracField (neg x) = fracField x := by
  unfold fracField neg
  rw [BitVec.extractLsb'_xor, show BitVec.extractLsb' 0 23 0x80000000#32 = 0#23 by decide, BitVec.xor_zero]

@[simp] theorem isFinite_neg (x : F32) : isFinite (neg x) = isFinite x := by simp [isFinite, expField_neg]

@[simp] theorem units_neg (x : F32) : units (neg x) = units x := by simp [units, expField_neg, fracField_neg]

@[simp] theorem signBit_neg (x : F32) : signBit (neg x) = !signBit x := by
  unfold signBit neg
  rw [BitVec.getLsbD_xor, show (0x80000000#32).getLsbD 31 = true by decide, Bool.xor_true]

@[simp] theorem neg_neg (x : F32) : neg (neg x) = x := by simp [neg]

end Sys2Proof.Binary32
end

