-- ==== Sys2Proof/Laws/Memory.lean ====
section
/-! SUPPORT. The kernel store: read after write, the canonical form kept by every memory operation, and that the
filled space is what the loop of writes leaves (20_memory.md R50 to R58, 40_kernel_build.md R101). -/

namespace Sys2Proof.Machine

variable {α : Type}

@[simp] theorem memRead_nil (i : Nat) : memRead ([] : Memory α) i = none := rfl

theorem memRead_memWrite_same (m : Memory α) (i : Nat) (v : α) : memRead (memWrite m i v) i = some v := by
  induction m with
  | nil => simp [memWrite, memRead]
  | cons c m ih =>
    obtain ⟨k, w⟩ := c
    unfold memWrite
    split
    · simp [memRead]
    · split
      · simp [memRead]
      · simp only [memRead]
        rw [if_neg ‹_›]
        exact ih

theorem memRead_memWrite_other (m : Memory α) {i j : Nat} (v : α) (h : j ≠ i) :
    memRead (memWrite m i v) j = memRead m j := by
  induction m with
  | nil => simp [memWrite, memRead, h]
  | cons c m ih =>
    obtain ⟨k, w⟩ := c
    unfold memWrite
    split
    · simp [memRead, h]
    · split
      · subst_vars
        simp [memRead, h]
      · simp only [memRead, ih]

theorem memWf_iff (m : Memory α) :
    memWf m = true ↔ m.Pairwise (fun a b => a.1 < b.1) ∧ ∀ c ∈ m, c.1 < 4096 := by
  simp [memWf, List.all_eq_true]

theorem mem_memWrite {m : Memory α} {i : Nat} {v : α} {c : Nat × α} (h : c ∈ memWrite m i v) :
    c = (i, v) ∨ c ∈ m := by
  induction m with
  | nil => simpa [memWrite] using h
  | cons d m ih =>
    obtain ⟨k, w⟩ := d
    unfold memWrite at h
    split at h
    · simp only [List.mem_cons] at h ⊢
      tauto
    · split at h
      · simp only [List.mem_cons] at h ⊢
        tauto
      · simp only [List.mem_cons] at h ⊢
        rcases h with h | h
        · tauto
        · rcases ih h with h | h <;> tauto

/-- A write inside the address space keeps the canonical form. -/
theorem memWf_memWrite {m : Memory α} {i : Nat} (v : α) (hm : memWf m = true) (hi : i < 4096) :
    memWf (memWrite m i v) = true := by
  rw [memWf_iff] at hm ⊢
  obtain ⟨hp, hb⟩ := hm
  refine ⟨?_, fun c hc => ?_⟩
  · clear hb
    induction m with
    | nil => simp [memWrite]
    | cons d m ih =>
      obtain ⟨k, w⟩ := d
      rw [List.pairwise_cons] at hp
      unfold memWrite
      split
      · refine List.pairwise_cons.2 ⟨fun c hc => ?_, List.pairwise_cons.2 hp⟩
        rcases List.mem_cons.1 hc with rfl | hc
        · assumption
        · exact Nat.lt_trans ‹_› (hp.1 c hc)
      · split
        · subst_vars
          exact List.pairwise_cons.2 hp
        · refine List.pairwise_cons.2 ⟨fun c hc => ?_, ih hp.2⟩
          rcases mem_memWrite hc with rfl | hc
          · simp only
            omega
          · exact hp.1 c hc
  · rcases mem_memWrite hc with rfl | hc
    · exact hi
    · exact hb c hc

theorem memRead_map_range' (f : Nat → α) (i s n : Nat) :
    memRead ((List.range' s n).map fun i => (i, f i)) i = if s ≤ i ∧ i < s + n then some (f i) else none := by
  induction n generalizing s with
  | zero => simp
  | succ n ih =>
    rw [List.range'_succ, List.map_cons]
    simp only [memRead, ih]
    by_cases h : i = s
    · subst h
      simp
    · rw [if_neg h]
      congr 1
      exact propext ⟨fun h => ⟨by omega, by omega⟩, fun h => ⟨by omega, by omega⟩⟩

/-- Entry `i` of a filled space. -/
theorem memRead_filledSpace (f : Nat → α) (i : Nat) :
    memRead (filledSpace f) i = if i < 4096 then some (f i) else none := by
  have h := memRead_map_range' f i 0 4096
  rw [← List.range_eq_range'] at h
  simpa [filledSpace] using h

theorem memWf_filledSpace (f : Nat → α) : memWf (filledSpace f) = true := by
  rw [memWf_iff]
  refine ⟨?_, fun c hc => ?_⟩
  · rw [filledSpace, List.pairwise_map]
    exact List.pairwise_lt_range
  · obtain ⟨i, hi, rfl⟩ := List.mem_map.1 hc
    exact List.mem_range.1 hi

/-- Two canonical spaces that read alike everywhere are equal. -/
theorem memWf_ext {m n : Memory α} (hm : memWf m = true) (hn : memWf n = true)
    (h : ∀ i, memRead m i = memRead n i) : m = n := by
  have key : ∀ {m : Memory α}, m.Pairwise (fun a b => a.1 < b.1) → ∀ c, c ∈ m ↔ memRead m c.1 = some c.2 := by
    intro m hp c
    induction m with
    | nil => simp
    | cons d m ih =>
      obtain ⟨k, w⟩ := d
      obtain ⟨hd, hp⟩ := List.pairwise_cons.1 hp
      simp only [memRead, List.mem_cons]
      by_cases hk : c.1 = k
      · rw [if_pos hk]
        constructor
        · rintro (rfl | hc)
          · rfl
          · exact absurd (hd c hc) (by simp [hk])
        · intro hw
          left
          obtain ⟨c1, c2⟩ := c
          simp_all
      · rw [if_neg hk, ← ih hp]
        constructor
        · rintro (rfl | hc)
          · exact absurd rfl hk
          · exact hc
        · exact Or.inr
  obtain ⟨pm, -⟩ := (memWf_iff m).1 hm
  obtain ⟨pn, -⟩ := (memWf_iff n).1 hn
  refine List.Perm.eq_of_pairwise (le := fun a b => a.1 < b.1) ?_ pm pn ?_
  · intro a b _ _ h1 h2
    omega
  · rw [List.perm_ext_iff_of_nodup]
    · intro c
      rw [key pm, key pn, h]
    · exact pm.imp fun {a b} h => by rintro rfl; omega
    · exact pn.imp fun {a b} h => by rintro rfl; omega

/-- The loop of 40_kernel_build.md R101 over one space leaves the filled space. -/
theorem filledSpace_eq_loop (f : Nat → α) {m : Memory α} (hm : memWf m = true) :
    (List.range 4096).foldl (fun m i => memWrite m i (f i)) m = filledSpace f := by
  have loop : ∀ n, n ≤ 4096 →
      memWf ((List.range n).foldl (fun m i => memWrite m i (f i)) m) = true ∧
      ∀ i, memRead ((List.range n).foldl (fun m i => memWrite m i (f i)) m) i =
        if i < n then some (f i) else memRead m i := by
    intro n
    induction n with
    | zero => exact fun _ => ⟨hm, fun i => by simp⟩
    | succ n ih =>
      intro hn
      obtain ⟨h1, h2⟩ := ih (by omega)
      rw [List.range_succ, List.foldl_append]
      refine ⟨memWf_memWrite _ h1 (by omega), fun i => ?_⟩
      by_cases hi : i = n
      · subst hi
        simp [memRead_memWrite_same]
      · have := memRead_memWrite_other ((List.range n).foldl (fun m i => memWrite m i (f i)) m) (f n) hi
        simp only [List.foldl_cons, List.foldl_nil]
        rw [this, h2]
        congr 1
        exact propext ⟨by omega, by omega⟩
  obtain ⟨h1, h2⟩ := loop 4096 le_rfl
  refine memWf_ext h1 (memWf_filledSpace f) fun i => ?_
  rw [h2, memRead_filledSpace]
  split
  · rfl
  · rename_i hi
    obtain ⟨-, hb⟩ := (memWf_iff m).1 hm
    clear h1 h2 loop hm
    induction m with
    | nil => rfl
    | cons d m ih =>
      obtain ⟨k, w⟩ := d
      have hk := hb (k, w) (by simp)
      simp only [memRead]
      rw [if_neg (by simp only at hk; omega)]
      exact ih fun c hc => hb c (List.mem_cons_of_mem _ hc)

/-- What a table read can answer. -/
theorem readImpulse_cases (m : Memory α) (i : Nat) :
    (4096 ≤ i ∧ readImpulse m i = .error .oob) ∨
    (i < 4096 ∧ ∃ v, memRead m i = some v ∧ readImpulse m i = .ok v) ∨
    (i < 4096 ∧ memRead m i = none ∧ readImpulse m i = .error .noKernel) := by
  unfold readImpulse
  by_cases h : 4096 ≤ i
  · simp [h]
  · rw [if_neg h]
    cases hr : memRead m i <;> simp <;> omega

end Sys2Proof.Machine
end

