-- ==== Sys2Proof/Laws/State.lean ====
section
/-! SUPPORT. One lemma per field per update of the state, true by rfl, so that no proof unfolds a record update. -/

namespace Sys2Proof.Machine

variable {α : Type} (N : Num α) (s : Block α) (o : Oscillator α) (k : KernelStore α)

@[simp] theorem withOsc_theta : (withOsc o s).theta = s.theta := rfl
@[simp] theorem withOsc_kernel : (withOsc o s).kernel = s.kernel := rfl
@[simp] theorem withOsc_osc : (withOsc o s).osc = o := rfl
@[simp] theorem withOsc_bank : (withOsc o s).bank = s.bank := rfl

@[simp] theorem withKernel_theta : (withKernel k s).theta = s.theta := rfl
@[simp] theorem withKernel_kernel : (withKernel k s).kernel = k := rfl
@[simp] theorem withKernel_osc : (withKernel k s).osc = s.osc := rfl
@[simp] theorem withKernel_bank : (withKernel k s).bank = s.bank := rfl

@[simp] theorem emit_output (v : PortValue α) : (emit v o).output = o.output ++ [v] := rfl
@[simp] theorem emit_cfg (v : PortValue α) : (emit v o).cfg = o.cfg := rfl
@[simp] theorem emit_phase (v : PortValue α) : (emit v o).phase = o.phase := rfl
@[simp] theorem emit_polscale (v : PortValue α) : (emit v o).polscale = o.polscale := rfl
@[simp] theorem emit_nextvoice (v : PortValue α) : (emit v o).nextvoice = o.nextvoice := rfl
@[simp] theorem emit_sr (v : PortValue α) : (emit v o).sr = o.sr := rfl
@[simp] theorem emit_alt (v : PortValue α) : (emit v o).alt = o.alt := rfl
@[simp] theorem emit_srset (v : PortValue α) : (emit v o).srset = o.srset := rfl
@[simp] theorem emit_voice (v : PortValue α) : (emit v o).voice = o.voice := rfl
@[simp] theorem emit_sec (v : PortValue α) : (emit v o).sec = o.sec := rfl

@[simp] theorem setAlt_alt (b : Bool) : (setAlt b o).alt = b := rfl
@[simp] theorem setAlt_cfg (b : Bool) : (setAlt b o).cfg = o.cfg := rfl
@[simp] theorem setAlt_phase (b : Bool) : (setAlt b o).phase = o.phase := rfl
@[simp] theorem setAlt_polscale (b : Bool) : (setAlt b o).polscale = o.polscale := rfl
@[simp] theorem setAlt_nextvoice (b : Bool) : (setAlt b o).nextvoice = o.nextvoice := rfl
@[simp] theorem setAlt_sr (b : Bool) : (setAlt b o).sr = o.sr := rfl
@[simp] theorem setAlt_srset (b : Bool) : (setAlt b o).srset = o.srset := rfl
@[simp] theorem setAlt_voice (b : Bool) : (setAlt b o).voice = o.voice := rfl
@[simp] theorem setAlt_sec (b : Bool) : (setAlt b o).sec = o.sec := rfl
@[simp] theorem setAlt_output (b : Bool) : (setAlt b o).output = o.output := rfl

@[simp] theorem setRate_sr (x : α) : (setRate x o).sr = x := rfl
@[simp] theorem setRate_srset (x : α) : (setRate x o).srset = true := rfl
@[simp] theorem setRate_cfg (x : α) : (setRate x o).cfg = o.cfg := rfl
@[simp] theorem setRate_phase (x : α) : (setRate x o).phase = o.phase := rfl
@[simp] theorem setRate_polscale (x : α) : (setRate x o).polscale = o.polscale := rfl
@[simp] theorem setRate_nextvoice (x : α) : (setRate x o).nextvoice = o.nextvoice := rfl
@[simp] theorem setRate_alt (x : α) : (setRate x o).alt = o.alt := rfl
@[simp] theorem setRate_voice (x : α) : (setRate x o).voice = o.voice := rfl
@[simp] theorem setRate_sec (x : α) : (setRate x o).sec = o.sec := rfl
@[simp] theorem setRate_output (x : α) : (setRate x o).output = o.output := rfl

@[simp] theorem reset_cfg (z one : α) (c : OscParams) (y : List (PortValue α)) : (Oscillator.reset z one c y).cfg = c := rfl
@[simp] theorem reset_output (z one : α) (c : OscParams) (y : List (PortValue α)) : (Oscillator.reset z one c y).output = y := rfl
@[simp] theorem reset_alt (z one : α) (c : OscParams) (y : List (PortValue α)) :
    (Oscillator.reset z one c y).alt = c.altDefault := rfl
@[simp] theorem reset_srset (z one : α) (c : OscParams) (y : List (PortValue α)) : (Oscillator.reset z one c y).srset = false := rfl

@[simp] theorem resetOsc_cfg : (resetOsc N o).cfg = o.cfg := rfl
@[simp] theorem resetOsc_output : (resetOsc N o).output = o.output := rfl

@[simp] theorem oscReset_theta : (oscReset N s).theta = s.theta := rfl
@[simp] theorem oscReset_kernel : (oscReset N s).kernel = s.kernel := rfl
@[simp] theorem oscReset_osc : (oscReset N s).osc = resetOsc N s.osc := rfl
@[simp] theorem oscReset_bank : (oscReset N s).bank = s.bank := rfl

@[simp] theorem globalReset_theta : (globalReset N s).theta = s.theta := rfl
@[simp] theorem globalReset_kernel : (globalReset N s).kernel = KernelStore.reset := rfl
@[simp] theorem globalReset_osc : (globalReset N s).osc = resetOsc N s.osc := rfl
@[simp] theorem globalReset_bank : (globalReset N s).bank = s.bank.map (resetOsc N) := rfl

@[simp] theorem retarget_cfg (p q : U32) : (retarget N p q o).cfg = o.cfg := rfl
@[simp] theorem retarget_phase (p q : U32) : (retarget N p q o).phase = o.phase := rfl
@[simp] theorem retarget_nextvoice (p q : U32) : (retarget N p q o).nextvoice = o.nextvoice + 1#3 := rfl
@[simp] theorem retarget_polscale (p q : U32) :
    (retarget N p q o).polscale = if o.alt then N.neg o.polscale else o.polscale := rfl
@[simp] theorem retarget_sr (p q : U32) : (retarget N p q o).sr = o.sr := rfl
@[simp] theorem retarget_alt (p q : U32) : (retarget N p q o).alt = o.alt := rfl
@[simp] theorem retarget_srset (p q : U32) : (retarget N p q o).srset = o.srset := rfl
@[simp] theorem retarget_sec (p q : U32) : (retarget N p q o).sec = o.sec := rfl
@[simp] theorem retarget_output (p q : U32) : (retarget N p q o).output = o.output := rfl

@[simp] theorem portFinite_pattern (p : F32) : portFinite N (.pattern p) = Binary32.isFinite p := rfl
@[simp] theorem portFinite_real (x : α) : portFinite N (.real x) = N.isFinite x := rfl

/-- The default `NUM` is binary32, operation by operation. -/
@[simp] theorem num32_add : num32.add = Binary32.add := rfl
@[simp] theorem num32_sub : num32.sub = Binary32.sub := rfl
@[simp] theorem num32_mul : num32.mul = Binary32.mul := rfl
@[simp] theorem num32_div : num32.div = Binary32.div := rfl
@[simp] theorem num32_neg : num32.neg = Binary32.neg := rfl
@[simp] theorem num32_abs : num32.abs = Binary32.abs := rfl
@[simp] theorem num32_ofNat : num32.ofNat = Binary32.ofNat := rfl
@[simp] theorem num32_lit : num32.lit = Binary32.ofRatio false := rfl
@[simp] theorem num32_lt : num32.lt = Binary32.lt := rfl
@[simp] theorem num32_isFinite : num32.isFinite = Binary32.isFinite := rfl
@[simp] theorem num32_ftz : num32.ftz = Binary32.ftz := rfl
@[simp] theorem num32_cvtU32 : num32.cvtU32 = Binary32.cvtU32 := rfl
@[simp] theorem num32_toPort (x : F32) : num32.toPort x = .pattern x := rfl
@[simp] theorem num32_ofPattern (x : F32) : num32.ofPattern x = x := rfl

/-- The parameters of the machine, field by field. -/
@[simp] theorem params32_toNum : params32.toNum = num32 := rfl
@[simp] theorem params32_kromImpulse (i : Nat) : params32.kromImpulse i = (Config.kromImpulse i).pattern := rfl
@[simp] theorem params32_kromStep (i : Nat) : params32.kromStep i = (Config.kromStep i).pattern := rfl
@[simp] theorem params32_designMap : params32.designMap = designReference := rfl
@[simp] theorem paramsExact_toNum (f : NumFns ℚ) (i s : Nat → ℚ) : (paramsExact f i s).toNum = numExact f := rfl
@[simp] theorem paramsExact_designMap (f : NumFns ℚ) (i s : Nat → ℚ) :
    (paramsExact f i s).designMap = designInNum (numExact f) := rfl

/-- Exact arithmetic is the field's, operation by operation. -/
@[simp] theorem numExact_add (f : NumFns ℚ) (x y : ℚ) : (numExact f).add x y = x + y := rfl
@[simp] theorem numExact_sub (f : NumFns ℚ) (x y : ℚ) : (numExact f).sub x y = x - y := rfl
@[simp] theorem numExact_mul (f : NumFns ℚ) (x y : ℚ) : (numExact f).mul x y = x * y := rfl
@[simp] theorem numExact_div (f : NumFns ℚ) (x y : ℚ) : (numExact f).div x y = x / y := rfl
@[simp] theorem numExact_neg (f : NumFns ℚ) (x : ℚ) : (numExact f).neg x = -x := rfl
@[simp] theorem numExact_abs (f : NumFns ℚ) (x : ℚ) : (numExact f).abs x = |x| := rfl
@[simp] theorem numExact_ofNat (f : NumFns ℚ) (n : Nat) : (numExact f).ofNat n = (n : ℚ) := rfl
@[simp] theorem numExact_lit (f : NumFns ℚ) (n d : Nat) : (numExact f).lit n d = (n : ℚ) / d := rfl
@[simp] theorem numExact_lt (f : NumFns ℚ) (x y : ℚ) : (numExact f).lt x y = decide (x < y) := rfl
@[simp] theorem numExact_pi (f : NumFns ℚ) : (numExact f).pi = f.pi := rfl
@[simp] theorem numExact_tan (f : NumFns ℚ) : (numExact f).tan = f.tan := rfl
@[simp] theorem numExact_sin (f : NumFns ℚ) : (numExact f).sin = f.sin := rfl
@[simp] theorem numExact_cos (f : NumFns ℚ) : (numExact f).cos = f.cos := rfl
@[simp] theorem numExact_exp2 (f : NumFns ℚ) : (numExact f).exp2 = f.exp2 := rfl
@[simp] theorem numExact_log (f : NumFns ℚ) : (numExact f).log = f.log := rfl
@[simp] theorem numExact_atan2 (f : NumFns ℚ) : (numExact f).atan2 = f.atan2 := rfl
@[simp] theorem numExact_exp (f : NumFns ℚ) : (numExact f).exp = f.exp := rfl
@[simp] theorem numExact_sqrt (f : NumFns ℚ) : (numExact f).sqrt = f.sqrt := rfl
@[simp] theorem numExact_ftz (f : NumFns ℚ) (x : ℚ) : (numExact f).ftz x = x := rfl
@[simp] theorem numExact_toPort (f : NumFns ℚ) (x : ℚ) : (numExact f).toPort x = .real x := rfl
@[simp] theorem numExact_ofPattern (f : NumFns ℚ) (x : F32) : (numExact f).ofPattern x = Binary32.toRat x := rfl
@[simp] theorem numExact_isFinite (f : NumFns ℚ) (x : ℚ) : (numExact f).isFinite x = true := rfl

/-- In exact arithmetic the test for 0 is equality with 0. -/
@[simp] theorem isZero_numExact (f : NumFns ℚ) (x : ℚ) : isZero (numExact f) x = decide (x = 0) := by
  simp only [isZero, numExact_lt, numExact_ofNat, Nat.cast_zero, ← decide_not, ← Bool.decide_and, not_lt]
  exact decide_eq_decide.2 ⟨fun h => le_antisymm h.2 h.1, fun h => h ▸ ⟨le_rfl, le_rfl⟩⟩

end Sys2Proof.Machine
end

