-- ==== Sys2Proof/Laws/Commands.lean ====
section
/-! SUPPORT. Once for each shared operation, everything it can do: what the voice file operations return, when the
table reads, the mixer, the filter and ADV succeed and with what, and when a command answers a next state and
which. Proofs about commands cite these instead of unfolding them. -/

namespace Sys2Proof.Machine

variable {α : Type} {N : Num α} {P : Params α}

/-! ## The voice file -/

@[simp] theorem toList_mapVoices (f : Voice α → Voice α) (v : Vector (Voice α) 8) :
    (mapVoices f v).toList = v.toList.map f := rfl

@[simp] theorem getElem_mapVoices (f : Voice α → Voice α) (v : Vector (Voice α) 8) (i : Nat) (h : i < 8) :
    (mapVoices f v)[i] = f v[i] := by simp [mapVoices]

theorem getVoice_mapVoices (f : Voice α → Voice α) (v : Vector (Voice α) 8) (i : BitVec 3) :
    getVoice (mapVoices f v) i = f (getVoice v i) := getElem_mapVoices f v _ i.isLt

theorem getVoice_putVoice_same (v : Vector (Voice α) 8) (i : BitVec 3) (x : Voice α) : getVoice (putVoice v i x) i = x := by
  simp [getVoice, putVoice]

theorem getVoice_putVoice_other (v : Vector (Voice α) 8) {i j : BitVec 3} (x : Voice α) (h : j ≠ i) :
    getVoice (putVoice v i x) j = getVoice v j := by
  have : i.toNat ≠ j.toNat := fun hc => h (BitVec.eq_of_toNat_eq hc.symm)
  simp [getVoice, putVoice, this]

/-- A slot of the voice file is one of its entries, and every entry is a slot. -/
theorem forall_mem_voices (Q : Voice α → Prop) (v : Vector (Voice α) 8) :
    (∀ x ∈ v.toList, Q x) ↔ ∀ i : BitVec 3, Q (getVoice v i) := by
  constructor
  · intro h i
    exact h _ (by simp [getVoice])
  · intro h x hx
    obtain ⟨i, hi, rfl⟩ := List.getElem_of_mem hx
    have hi' : i < 8 := by simpa using hi
    have := h (BitVec.ofNat 3 i)
    simpa [getVoice, BitVec.toNat_ofNat, Nat.mod_eq_of_lt hi'] using this

theorem toNat_advanceVoice_idx (v : Voice α) :
    (advanceVoice v).idx.toNat = if v.idx.toNat ≤ 4030 then v.idx.toNat + 64 else v.idx.toNat := by
  unfold advanceVoice advances
  have := v.idx.isLt
  by_cases h : v.idx.toNat + 64 + 1 < 4096
  · simp only [Config.oversample, Config.tableLen, h, decide_true, if_true]
    rw [if_pos (by omega), BitVec.toNat_add, BitVec.toNat_ofNat]
    omega
  · simp only [Config.oversample, Config.tableLen, h, decide_false, Bool.false_eq_true, if_false]
    rw [if_neg (by omega)]

@[simp] theorem advanceVoice_frac (v : Voice α) : (advanceVoice v).frac = v.frac := by
  unfold advanceVoice
  split <;> rfl

@[simp] theorem advanceVoice_amp (v : Voice α) : (advanceVoice v).amp = v.amp := by
  unfold advanceVoice
  split <;> rfl

/-! ## MIX -/

theorem mix_eq_ok {m : Memory α} {vs vs' : Vector (Voice α) 8} {x : α} :
    mix N m vs = .ok (x, vs') ↔
      sumVoices N m vs.toList (N.ofNat 0) = .ok x ∧ vs' = mapVoices advanceVoice vs := by
  unfold mix
  cases sumVoices N m vs.toList (N.ofNat 0) <;> simp [eq_comm]

theorem mix_eq_error {m : Memory α} {vs : Vector (Voice α) 8} {e : Fault} :
    mix N m vs = .error e ↔ sumVoices N m vs.toList (N.ofNat 0) = .error e := by
  unfold mix
  cases sumVoices N m vs.toList (N.ofNat 0) <;> simp

/-- Where every voice's two reads succeed, the sum is a value. -/
theorem sumVoices_ok {m : Memory α} {vs : List (Voice α)} (h : ∀ v ∈ vs, ∃ ab, voiceReads m v = .ok ab) (x : α) :
    ∃ y, sumVoices N m vs x = .ok y := by
  induction vs generalizing x with
  | nil => exact ⟨x, rfl⟩
  | cons v vs ih =>
    obtain ⟨ab, hab⟩ := h v (by simp)
    obtain ⟨y, hy⟩ := ih (fun v hv => h v (by simp [hv]))
      (N.add x (N.mul v.amp (interpolate N v.frac ab.1 ab.2)))
    exact ⟨y, by simp only [sumVoices, addVoice, hab]; exact hy⟩

/-- A full space answers both reads of a voice whose index is at most 4094. -/
theorem voiceReads_ok {m : Memory F32} (hm : Safety.SpaceFull m) {v : Voice F32} (hv : v.idx.toNat ≤ 4094) :
    ∃ ab, voiceReads m v = .ok ab := by
  obtain ⟨a, ha, -⟩ := hm v.idx.toNat (by omega)
  obtain ⟨b, hb, -⟩ := hm (v.idx.toNat + 1) (by omega)
  refine ⟨(a, b), ?_⟩
  unfold voiceReads readImpulse
  rw [if_neg (show ¬ Config.tableLen ≤ v.idx.toNat by simp only [Config.tableLen]; omega), ha]
  simp only
  rw [if_neg (show ¬ Config.tableLen ≤ v.idx.toNat + 1 by simp only [Config.tableLen]; omega), hb]

/-! ## FILT and ADV -/

theorem filtOsc_eq_ok {x y : α} {o o' : Oscillator α} :
    filtOsc N x o = .ok (y, o') ↔
      sectionsFinite N (filt N x o.sec).2 = true ∧ y = (filt N x o.sec).1 ∧
        o' = { o with sec := (filt N x o.sec).2 } := by
  unfold filtOsc
  cases h : sectionsFinite N (filt N x o.sec).2 <;> simp [h, eq_comm]

theorem adv_eq_ok {f : α} {o o' : Oscillator α} :
    adv N f o = .ok o' ↔
      N.isFinite (phaseIncScale N o.sr o.cfg.fscale) = true ∧
      N.isFinite (increment N o.sr o.cfg.fscale f) = true ∧
      advWritesFinite N (quantizedIncrement N o.sr o.cfg.fscale f) o = true ∧
      o' = advanced N (quantizedIncrement N o.sr o.cfg.fscale f) o := by
  unfold adv
  generalize N.isFinite (phaseIncScale N o.sr o.cfg.fscale) = b1
  generalize N.isFinite (increment N o.sr o.cfg.fscale f) = b2
  generalize advWritesFinite N (quantizedIncrement N o.sr o.cfg.fscale f) o = b3
  cases b1 <;> cases b2 <;> cases b3 <;> simp [eq_comm]

/-- A fault of ADV is a value that is not finite. -/
theorem adv_error {f : α} {o : Oscillator α} {e : Fault} (h : adv N f o = .error e) : e = .nonFinite := by
  unfold adv at h
  split at h
  · split at h
    · split at h <;> simp_all
    · simp_all
  · simp_all

@[simp] theorem advanced_cfg (q : U32) (o : Oscillator α) : (advanced N q o).cfg = o.cfg := by
  unfold advanced
  dsimp only
  split <;> rfl

@[simp] theorem advanced_phase (q : U32) (o : Oscillator α) : (advanced N q o).phase = o.phase + q := by
  unfold advanced
  dsimp only
  split <;> rfl

@[simp] theorem advanced_sr (q : U32) (o : Oscillator α) : (advanced N q o).sr = o.sr := by
  unfold advanced
  dsimp only
  split <;> rfl

@[simp] theorem advanced_alt (q : U32) (o : Oscillator α) : (advanced N q o).alt = o.alt := by
  unfold advanced
  dsimp only
  split <;> rfl

@[simp] theorem advanced_srset (q : U32) (o : Oscillator α) : (advanced N q o).srset = o.srset := by
  unfold advanced
  dsimp only
  split <;> rfl

@[simp] theorem advanced_sec (q : U32) (o : Oscillator α) : (advanced N q o).sec = o.sec := by
  unfold advanced
  dsimp only
  split <;> rfl

@[simp] theorem advanced_output (q : U32) (o : Oscillator α) : (advanced N q o).output = o.output := by
  unfold advanced
  dsimp only
  split <;> rfl

theorem advanced_of_not_wraps {q : U32} {o : Oscillator α} (h : wraps o.phase (o.phase + q) = false) :
    advanced N q o = { o with phase := o.phase + q } := by
  simp [advanced, h]

theorem advanced_of_wraps {q : U32} {o : Oscillator α} (h : wraps o.phase (o.phase + q) = true) :
    advanced N q o = { retarget N (o.phase + q) q o with phase := o.phase + q } := by
  simp [advanced, h]

/-! ## Commands -/

/-- When the output port can carry a value, and what it then carries. -/
theorem portValue_eq_ok {v : α} {y : PortValue α} :
    portValue N v = .ok y ↔ N.isFinite v = true ∧ portFinite N (N.toPort v) = true ∧ y = N.toPort v := by
  unfold portValue
  cases N.isFinite v <;> cases portFinite N (N.toPort v) <;> simp [eq_comm]

/-- Everything a sample's rendering needs and gives. -/
theorem renderSample_eq_ok {m : Memory α} {hz : α} {o o' : Oscillator α} :
    renderSample N m hz o = .ok o' ↔
      ∃ x, sumVoices N m o.voice.toList (N.ofNat 0) = .ok x ∧
        sectionsFinite N (filt N x o.sec).2 = true ∧
        N.isFinite (phaseIncScale N o.sr o.cfg.fscale) = true ∧
        N.isFinite (increment N o.sr o.cfg.fscale hz) = true ∧
        advWritesFinite N (quantizedIncrement N o.sr o.cfg.fscale hz) o = true ∧
        N.isFinite (N.mul (N.ofNat 2) (filt N x o.sec).1) = true ∧
        portFinite N (N.toPort (N.mul (N.ofNat 2) (filt N x o.sec).1)) = true ∧
        o' = emit (N.toPort (N.mul (N.ofNat 2) (filt N x o.sec).1))
          (advanced N (quantizedIncrement N o.sr o.cfg.fscale hz)
            { o with voice := mapVoices advanceVoice o.voice, sec := (filt N x o.sec).2 }) := by
  constructor
  · intro h
    unfold renderSample at h
    split at h
    · cases h
    rename_i mv hmix
    obtain ⟨hsum, hvs⟩ := mix_eq_ok.1 (show mix N m o.voice = .ok (mv.1, mv.2) from hmix)
    split at h
    · cases h
    rename_i yo hfilt
    obtain ⟨hfin, hy, ho⟩ := filtOsc_eq_ok.1 (show filtOsc N mv.1 _ = .ok (yo.1, yo.2) from hfilt)
    split at h
    · cases h
    rename_i o1 hadv
    rw [ho] at hadv
    obtain ⟨h1, h2, h3, h4⟩ := adv_eq_ok.1 hadv
    split at h
    · cases h
    rename_i v hv
    obtain ⟨h5, h6, rfl⟩ := portValue_eq_ok.1 hv
    cases h
    rw [hy] at h5 h6 ⊢
    exact ⟨mv.1, hsum, hfin, h1, h2, h3, h5, h6, by rw [h4, hvs]⟩
  · rintro ⟨x, hsum, hfin, h1, h2, h3, h5, h6, rfl⟩
    unfold renderSample
    rw [mix_eq_ok.2 ⟨hsum, rfl⟩]
    simp only
    rw [(filtOsc_eq_ok (x := x) (o := { o with voice := mapVoices advanceVoice o.voice })).2 ⟨hfin, rfl, rfl⟩]
    simp only
    rw [(adv_eq_ok (f := hz)
      (o := { o with voice := mapVoices advanceVoice o.voice, sec := (filt N x o.sec).2 })).2 ⟨h1, h2, h3, rfl⟩]
    simp only
    rw [portValue_eq_ok.2 ⟨h5, h6, rfl⟩]

/-- What a `real` operand is taken as, and when it is taken. -/
theorem realOperand_eq_ok {f : F32} {x : α} :
    realOperand N f = .ok x ↔ Binary32.isFinite f = true ∧ N.isFinite (N.ofPattern f) = true ∧ x = N.ofPattern f := by
  unfold realOperand finiteResult
  cases Binary32.isFinite f <;> cases N.isFinite (N.ofPattern f) <;> simp [eq_comm]

theorem realOperand_error {f : F32} {e : Fault} (h : realOperand N f = .error e) : e = .nonFinite := by
  unfold realOperand finiteResult at h
  split at h
  · split at h <;> simp_all
  · simp_all

/-- When TICK answers, and with what: its preconditions, then the rendering of one sample. -/
theorem tick_eq_ok {f : F32} {b c : Block α} :
    tick P f b = .ok c ↔
      b.kernel.built = true ∧ b.osc.srset = true ∧ Binary32.isFinite f = true ∧ P.isFinite (P.ofPattern f) = true ∧
      P.isFinite (tickHz P.toNum b.osc.cfg (P.ofPattern f)) = true ∧
      ∃ o, renderSample P.toNum b.kernel.impulse (tickHz P.toNum b.osc.cfg (P.ofPattern f)) b.osc = .ok o ∧
        c = withOsc o b := by
  unfold tick realOperand finiteResult
  cases b.kernel.built <;> cases b.osc.srset <;> simp only [Bool.false_eq_true, if_true, if_false] <;> simp
  cases Binary32.isFinite f <;> cases P.isFinite (P.ofPattern f) <;> simp
  generalize tickHz P.toNum b.osc.cfg (P.ofPattern f) = hz
  cases P.isFinite hz <;> simp
  cases renderSample P.toNum b.kernel.impulse hz b.osc <;> simp [eq_comm]

/-- When DESIGN answers, and with what. -/
theorem design_eq_ok {f0 : F32} {b c : Block α} :
    design P f0 b = .ok c ↔
      b.osc.srset = true ∧ Binary32.isFinite f0 = true ∧ P.isFinite (P.ofPattern f0) = true ∧
      ∃ t, targets P b.theta b.osc.cfg b.osc.sr (P.ofPattern f0) = .ok t ∧
        c = withOsc { b.osc with sec := putTargets t b.osc.sec } b := by
  unfold design realOperand finiteResult
  cases b.osc.srset <;> simp only [Bool.false_eq_true, if_true, if_false] <;> simp
  cases Binary32.isFinite f0 <;> cases P.isFinite (P.ofPattern f0) <;> simp
  cases targets P b.theta b.osc.cfg b.osc.sr (P.ofPattern f0) <;> simp [eq_comm]

/-- When SETSR answers, and with what. -/
theorem setsr_eq_ok {sr : F32} {b c : Block α} :
    setsr P sr b = .ok c ↔
      Binary32.isFinite sr = true ∧ P.isFinite (P.ofPattern sr) = true ∧ P.lt (P.ofNat 0) (P.ofPattern sr) = true ∧
        c = withOsc (setRate (P.ofPattern sr) b.osc) b := by
  unfold setsr rateOperand realOperand finiteResult
  cases Binary32.isFinite sr <;> cases P.isFinite (P.ofPattern sr) <;> simp
  by_cases h : P.lt (P.ofNat 0) (P.ofPattern sr) = true <;> simp [h]
  exact eq_comm

/-- When the configuration function's targets may be stored, and that they are then finite. -/
theorem targets_eq_ok {theta : Vector Angle 3} {cfg : OscParams} {sr f0 : α} {t : Vector (Coeffs α) 3} :
    targets P theta cfg sr f0 = .ok t ↔
      P.designMap theta (designMaps cfg) sr f0 = .ok t ∧ coeffsFinite P.toNum t[0] = true ∧
        coeffsFinite P.toNum t[1] = true ∧ coeffsFinite P.toNum t[2] = true := by
  unfold targets finiteTargets
  cases P.designMap theta (designMaps cfg) sr f0 with
  | error e => simp
  | ok u =>
    simp only [Bool.and_eq_true]
    split
    · simp only [Except.ok.injEq]
      exact ⟨fun h => h ▸ ⟨rfl, by tauto⟩, fun h => h.1⟩
    · simp only [reduceCtorEq, false_iff, Except.ok.injEq]
      rintro ⟨rfl, h⟩
      tauto

/-- The default configuration function, where its division is possible: the exact formulas, rounded once. -/
theorem designReference_eq_ok {theta : Vector Angle 3} {mapped : Bool} {sr f0 : F32} {t : Vector (Coeffs F32) 3} :
    designReference theta mapped sr f0 = .ok t ↔
      Binary32.isFinite sr = true ∧ Binary32.isFinite f0 = true ∧
      ∃ u, designInNum numReference theta mapped (Binary32.toRat sr) (Binary32.toRat f0) = .ok u ∧
        t = #v[roundCoeffs u[0], roundCoeffs u[1], roundCoeffs u[2]] := by
  unfold designReference
  cases Binary32.isFinite sr <;> cases Binary32.isFinite f0 <;>
    simp only [Bool.and_false, Bool.and_true, Bool.false_eq_true, if_false, if_true, false_and,
      reduceCtorEq, true_and]
  generalize designInNum numReference theta mapped (Binary32.toRat sr) (Binary32.toRat f0) = r
  cases r with
  | error e => simp
  | ok u =>
    simp only [Except.ok.injEq]
    exact ⟨fun h => ⟨u, rfl, h.symm⟩, fun ⟨_, hu, h⟩ => hu ▸ h.symm⟩

/-- Where the formulas in `NUM` have a value. -/
theorem dividedTargets_eq_ok {t u : Vector (Coeffs α) 3} :
    dividedTargets N t = .ok u ↔
      u = t ∧ isZero N t[0].ai = false ∧ isZero N t[1].ai = false ∧ isZero N t[2].ai = false := by
  have h : #v[t[0], t[1], t[2]] = t := by
    apply Vector.ext
    intro i hi
    match i, hi with
    | 0, _ => rfl
    | 1, _ => rfl
    | 2, _ => rfl
  unfold dividedTargets dividedCoeffs
  cases isZero N t[0].ai <;> cases isZero N t[1].ai <;> cases isZero N t[2].ai <;> simp [h, eq_comm]

/-! ## Invariants of the states reset and BUILD give -/

theorem oscInv_reset (cfg : OscParams) {out : List (PortValue F32)}
    (h : ∀ y ∈ out, ∃ p, y = .pattern p ∧ Binary32.isFinite p = true) :
    Safety.OscInv (Oscillator.reset 0#32 0x3F800000#32 cfg out) where
  phase_grid := rfl
  polscale_one := Or.inl rfl
  voices := by
    rw [forall_mem_voices]
    intro i
    have hi : getVoice (Oscillator.reset 0#32 0x3F800000#32 cfg out).voice i = Voice.reset 0#32 := by
      revert i
      unfold Oscillator.reset
      dsimp only
      decide
    rw [hi]
    exact ⟨by decide, by decide, Or.inl rfl⟩
  filter := by
    intro c hc
    have : c = FilterSection.reset 0#32 := by
      simpa [Oscillator.reset, Vector.toList] using hc
    rw [this]
    exact ⟨by decide, by decide⟩
  rate := by
    intro hr
    cases hr
  outputs := h

theorem spaceFull_filledSpace {f : Nat → F32} (h : ∀ i, Binary32.isFinite (f i) = true) :
    Safety.SpaceFull (filledSpace f) := by
  intro i hi
  exact ⟨f i, by rw [memRead_filledSpace, if_pos hi], h i⟩

/-- A store filled with finite values meets the store's invariant, whatever they are. -/
theorem kernelInv_filled {f g : Nat → F32} (hf : ∀ i, Binary32.isFinite (f i) = true)
    (hg : ∀ i, Binary32.isFinite (g i) = true) (b : Bool) :
    Safety.KernelInv { impulse := filledSpace f, step := filledSpace g, built := b } := by
  have h1 := memWf_filledSpace f
  have h2 := memWf_filledSpace g
  have h3 := spaceFull_filledSpace hf
  have h4 := spaceFull_filledSpace hg
  generalize filledSpace f = m1 at *
  generalize filledSpace g = m2 at *
  exact ⟨h1, h2, fun _ => ⟨h3, h4⟩⟩

theorem kernelInv_builtStore : Safety.KernelInv (builtStore params32) :=
  kernelInv_filled (fun _ => Binary32.isFinite_pattern _) (fun _ => Binary32.isFinite_pattern _) true

/-- The reset of an oscillator by the default `NUM` is the reset the spec's patterns give. -/
theorem resetOsc_num32 (o : Oscillator F32) :
    resetOsc num32 o = Oscillator.reset 0#32 0x3F800000#32 o.cfg o.output := by
  have h0 : num32.ofNat 0 = 0#32 := by decide
  have h1 : num32.ofNat 1 = 0x3F800000#32 := by decide
  rw [resetOsc, h0, h1]

@[simp] theorem onBlock_eq_next {s t : State} {x : Except Fault (Block F32)} :
    onBlock s x = .next t ↔ ∃ b, x = .ok b ∧ t = { s with toBlock := b } := by
  cases x <;> simp [onBlock, eq_comm]

@[simp] theorem onBlock_eq_fault {s : State} {x : Except Fault (Block F32)} {e : Fault} :
    onBlock s x = .fault e ↔ x = .error e := by
  cases x <;> simp [onBlock]

theorem onBlock_ne_refused {s : State} {x : Except Fault (Block F32)} {r : Refusal} : onBlock s x ≠ .refused r := by
  cases x <;> simp [onBlock]

/-! ## Ports, words and steps -/

/-- When a port can be chosen, and what that leaves. -/
theorem choosePort_eq_ok {n : Nat} {b c : Block α} :
    choosePort n b = .ok c ↔ ∃ o, b.bank[n]? = some o ∧ c = { b with osc := o, bank := b.bank.set n b.osc } := by
  unfold choosePort
  cases b.bank[n]? <;> simp [eq_comm]

theorem choosePort_eq_error {n : Nat} {b : Block α} {r : Refusal} :
    choosePort n b = .error r ↔ b.bank[n]? = none ∧ r = .noSuchPort := by
  unfold choosePort
  cases b.bank[n]? <;> simp [eq_comm]

theorem selectPort_eq_next {n : Nat} {s t : State} :
    selectPort n s = .next t ↔
      ∃ o, s.bank[n]? = some o ∧ t = { s with osc := o, bank := s.bank.set n s.osc } := by
  unfold selectPort choosePort
  cases s.bank[n]? <;> simp [eq_comm]

/-- A word is its command, or `F_ILLCMD`. -/
theorem wordOnBlock_eq_ok {w : CommandWord} {b c : Block α} :
    wordOnBlock P w b = .ok c ↔ ∃ i, decode w = .ok i ∧ command P i b = .ok c := by
  unfold wordOnBlock
  cases decode w <;> simp

/-- A step under legal prototype angles takes the next input; under others it is refused. -/
theorem step_of_legal {s : State} (h : legalTheta s.theta = true) : step s = takeInput s := by
  simp [step, h]

theorem step_of_illegal {s : State} (h : legalTheta s.theta = false) : step s = .refused .illegalTheta := by
  simp [step, h]

/-- A table is legal when every entry of both spaces is finite. -/
theorem legalKrom_eq_true : legalKrom P = true ↔
    ∀ i < Config.tableLen, P.isFinite (P.kromImpulse i) = true ∧ P.isFinite (P.kromStep i) = true := by
  simp [legalKrom]

/-- The machine's table is legal. -/
theorem legalKrom_params32 : legalKrom params32 = true :=
  legalKrom_eq_true.2 fun _ _ => ⟨Binary32.isFinite_pattern _, Binary32.isFinite_pattern _⟩

/-- Which blocks cannot be constructed, and why. -/
theorem construct_eq_error {theta : Vector Angle 3} {cfg : OscParams} {cfgs : List OscParams} {r : Refusal} :
    construct P theta cfg cfgs = .error r ↔
      legalTheta theta = false ∧ r = .illegalTheta ∨
      legalTheta theta = true ∧ legalKrom P = false ∧ r = .illegalKrom := by
  unfold construct
  cases legalTheta theta <;> cases legalKrom P <;> simp [eq_comm]

/-! ## What a command can do -/

/-- `exec` is the command of the block with the default parameters; the stream is not touched. -/
theorem exec_eq_command (i : Instr) (s : State) : exec i s = onBlock s (command params32 i s.toBlock) := by
  cases i <;> rfl

/-- A masked increment is a multiple of 64. -/
theorem toNat_and_mask_mod (x : U32) : (x &&& 0xFFFFFFC0#32).toNat % 64 = 0 := by
  have h : (x &&& 0xFFFFFFC0#32).extractLsb' 0 6 = 0#6 := by
    rw [BitVec.extractLsb'_and, show BitVec.extractLsb' 0 6 0xFFFFFFC0#32 = 0#6 by decide, BitVec.and_zero]
  simpa [BitVec.extractLsb'_toNat] using congrArg BitVec.toNat h

/-- Everything a command that answers can have done: BUILD filled the store, or found it built; any other command replaced
the current oscillator by one that depends on the store, the parameters and that oscillator only. -/
theorem command_ok_cases {i : Instr} {b c : Block α} (h : command P i b = .ok c) :
    (i = .build ∧ b.kernel.built = false ∧ c = withKernel (builtStore P) b) ∨
    (i = .build ∧ b.kernel.built = true ∧ c = b) ∨
    (i ≠ .build ∧ ∃ o, c = withOsc o b ∧ ∀ u : Block α, u.kernel = b.kernel → u.theta = b.theta → u.osc = b.osc →
      command P i u = .ok (withOsc o u)) := by
  cases i with
  | build =>
    simp only [command, build] at h
    split at h
    · cases h
      exact Or.inr (Or.inl ⟨rfl, ‹_›, rfl⟩)
    · rename_i hb
      cases h
      exact Or.inl ⟨rfl, by simpa using hb, rfl⟩
  | setsr sr =>
    right; right
    obtain ⟨h1, h2, h3, rfl⟩ := setsr_eq_ok.1 h
    exact ⟨nofun, _, rfl, fun u _ _ e => setsr_eq_ok.2 ⟨h1, h2, h3, by rw [e]⟩⟩
  | setalt v =>
    right; right
    cases h
    exact ⟨nofun, _, rfl, fun u _ _ e => by simp only [command, setalt, e]⟩
  | setphase p =>
    right; right
    cases h
    exact ⟨nofun, _, rfl, fun u _ _ e => by simp only [command, setphase, e]⟩
  | design f0 =>
    right; right
    obtain ⟨a1, a2, a3, t, ht, rfl⟩ := design_eq_ok.1 h
    refine ⟨nofun, _, rfl, fun u _ h2 h3 => design_eq_ok.2 ?_⟩
    rw [h2, h3]
    exact ⟨a1, a2, a3, t, ht, rfl⟩
  | tick f =>
    right; right
    obtain ⟨a1, a2, a3, a4, a5, o, ho, rfl⟩ := tick_eq_ok.1 h
    refine ⟨nofun, o, rfl, fun u h1 _ h3 => tick_eq_ok.2 ?_⟩
    rw [h1, h3]
    exact ⟨a1, a2, a3, a4, a5, o, ho, rfl⟩

/-- What no command touches: the prototype angles and the other oscillators. -/
theorem command_frame {i : Instr} {b c : Block α} (h : command P i b = .ok c) : c.theta = b.theta ∧ c.bank = b.bank := by
  rcases command_ok_cases h with ⟨-, -, rfl⟩ | ⟨-, -, rfl⟩ | ⟨-, o, rfl, -⟩ <;> simp

/-- A word on the port of oscillator `n` of the bank: it runs with that oscillator current, and what it leaves there
goes back to entry `n`, the current oscillator as it was. -/
theorem wordOnPort_succ_eq_ok {n : Nat} {w : CommandWord} {b c : Block α} :
    wordOnPort P (n + 1) w b = .ok (.ok c) ↔
      ∃ o d, b.bank[n]? = some o ∧ wordOnBlock P w { b with osc := o, bank := b.bank.set n b.osc } = .ok d ∧
        c = { d with osc := b.osc, bank := b.bank.set n d.osc } := by
  have back : ∀ {o : Oscillator α} {d : Block α}, b.bank[n]? = some o →
      wordOnBlock P w { b with osc := o, bank := b.bank.set n b.osc } = .ok d →
      choosePort n d = .ok { d with osc := b.osc, bank := b.bank.set n d.osc } := by
    intro o d ho hd
    obtain ⟨i, -, hi⟩ := wordOnBlock_eq_ok.1 hd
    have hn : n < b.bank.length := by
      by_contra hc
      rw [List.getElem?_eq_none (by omega)] at ho
      cases ho
    refine choosePort_eq_ok.2 ⟨b.osc, ?_, ?_⟩ <;> rw [(command_frame hi).2]
    · simp [hn]
    · simp
  constructor
  · intro h
    simp only [wordOnPort] at h
    split at h
    · cases h
    rename_i e he
    obtain ⟨o, ho, rfl⟩ := choosePort_eq_ok.1 he
    split at h
    · cases h
    rename_i d hd
    rw [back ho hd] at h
    cases h
    exact ⟨o, d, ho, hd, rfl⟩
  · rintro ⟨o, d, ho, hd, rfl⟩
    simp only [wordOnPort, choosePort_eq_ok.2 ⟨o, ho, rfl⟩, hd, back ho hd]

end Sys2Proof.Machine
end

