-- ==== Sys2Proof/Laws/PerInstr.lean ====
section
/-! SUPPORT. One lemma per command about its encoding: the word `encode` gives is legal, and its two fields are the
opcode of 30_encoding.md R72 and the operand as R71 reads it. -/

namespace Sys2Proof

/-! ## The two fields of a word -/

@[simp] theorem opField_commandWord (op : BitVec 8) (arg : BitVec 32) : opField (commandWord op arg) = op :=
  BitVec.extractLsb'_append_eq_left

@[simp] theorem argField_commandWord (op : BitVec 8) (arg : BitVec 32) : argField (commandWord op arg) = arg :=
  BitVec.extractLsb'_append_eq_right

/-- Masking a word masks its fields. -/
theorem commandWord_and (op mop : BitVec 8) (arg marg : BitVec 32) :
    commandWord op arg &&& commandWord mop marg = commandWord (op &&& mop) (arg &&& marg) := by
  apply BitVec.eq_of_getLsbD_eq
  intro i hi
  simp only [commandWord, BitVec.getLsbD_and, BitVec.getLsbD_append]
  split <;> rfl

/-- A word of one of the four opcodes with a free operand matches its pattern. -/
theorem commandWord_and_opcode (op : BitVec 8) (arg : BitVec 32) :
    commandWord op arg &&& 0xFF00000000#40 = commandWord op 0#32 := by
  have h : (0xFF00000000#40 : CommandWord) = commandWord 0xFF#8 0#32 := by decide
  rw [h, commandWord_and, show (0xFF#8 : BitVec 8) = BitVec.allOnes 8 by decide, BitVec.and_allOnes, BitVec.and_zero]

namespace Laws.FieldsOfEncoding

/-- The word of `i` is legal, and carries `i`'s opcode and operand in its two fields (30_encoding.md R70 to R72). -/
def Statement (i : Instr) : Prop :=
  wellFormed i = true ∧ legalWord (encode i) = true ∧
  match i with
  | .build => opField (encode i) = 0x01#8 ∧ argField (encode i) = 0#32
  | .setsr sr => opField (encode i) = 0x02#8 ∧ argField (encode i) = sr
  | .setalt b => opField (encode i) = 0x03#8 ∧ argField (encode i) = if b then 1#32 else 0#32
  | .setphase p => opField (encode i) = 0x04#8 ∧ argField (encode i) = p
  | .design f0 => opField (encode i) = 0x05#8 ∧ argField (encode i) = f0
  | .tick f => opField (encode i) = 0x06#8 ∧ argField (encode i) = f

theorem build : Statement .build := by
  unfold Statement
  decide

theorem setsr (sr : F32) : Statement (.setsr sr) := by
  refine ⟨rfl, ?_, opField_commandWord _ _, argField_commandWord _ _⟩
  have h : encode (.setsr sr) &&& 0xFF00000000#40 = 0x0200000000#40 := commandWord_and_opcode _ _
  simp [legalWord, encodingPatterns, h]

theorem setalt (b : Bool) : Statement (.setalt b) := by
  unfold Statement
  cases b <;> decide

theorem setphase (p : U32) : Statement (.setphase p) := by
  refine ⟨rfl, ?_, opField_commandWord _ _, argField_commandWord _ _⟩
  have h : encode (.setphase p) &&& 0xFF00000000#40 = 0x0400000000#40 := commandWord_and_opcode _ _
  simp [legalWord, encodingPatterns, h]

theorem design (f0 : F32) : Statement (.design f0) := by
  refine ⟨rfl, ?_, opField_commandWord _ _, argField_commandWord _ _⟩
  have h : encode (.design f0) &&& 0xFF00000000#40 = 0x0500000000#40 := commandWord_and_opcode _ _
  simp [legalWord, encodingPatterns, h]

theorem tick (f : F32) : Statement (.tick f) := by
  refine ⟨rfl, ?_, opField_commandWord _ _, argField_commandWord _ _⟩
  have h : encode (.tick f) &&& 0xFF00000000#40 = 0x0600000000#40 := commandWord_and_opcode _ _
  simp [legalWord, encodingPatterns, h]

end Laws.FieldsOfEncoding

end Sys2Proof
end

