-- ==== Sys2Proof/Tests/Slice0.lean ====
section
/-! SUPPORT. Tests against the spec's own vectors (95_test_vectors.md; each test names its vector), and for every
obligation with hypotheses a named witness that meets them, at the boundary values of its clauses. -/

open Sys2Proof Sys2Proof.Machine Sys2Proof.Safety

namespace Sys2Proof.Tests

-- one theorem at a time: many kernel evaluations at once each hold a thread with its own stack
set_option Elab.async false

/-! ## Reading an outcome, so that the kernel decides it -/

/-- The next state, if the outcome is one. -/
def nextState : Host.Outcome State Fault Refusal → Option State
  | .next t => some t
  | .fault _ => none
  | .refused _ => none

/-- The fault, if the outcome is one. -/
def faultOf : Host.Outcome State Fault Refusal → Option Fault
  | .next _ => none
  | .fault e => some e
  | .refused _ => none

theorem eq_next {x : Host.Outcome State Fault Refusal} {t : State} (h : nextState x = some t) : x = .next t := by
  cases x <;> simp_all [nextState]

theorem eq_fault {x : Host.Outcome State Fault Refusal} {e : Fault} (h : faultOf x = some e) : x = .fault e := by
  cases x <;> simp_all [faultOf]

theorem exists_next {x : Host.Outcome State Fault Refusal} (p : State → Prop) [DecidablePred p]
    (h : (nextState x).any (fun t => decide (p t)) = true) : ∃ t, x = .next t ∧ p t := by
  cases x <;> simp_all [nextState]

/-! ## Encoding (V2): words written out bit by bit -/

theorem test_decode_build : decode 0b00000001_00000000000000000000000000000000#40 = .ok .build := by decide
theorem test_decode_setsr :
    decode 0b00000010_01000111001110111000000000000000#40 = .ok (.setsr 0x473B8000#32) := by decide
theorem test_decode_setalt_0 :
    decode 0b00000011_00000000000000000000000000000000#40 = .ok (.setalt false) := by decide
theorem test_decode_setalt_1 :
    decode 0b00000011_00000000000000000000000000000001#40 = .ok (.setalt true) := by decide
theorem test_decode_setphase :
    decode 0b00000100_11111111111111111111111100000000#40 = .ok (.setphase 0xFFFFFF00#32) := by decide
theorem test_decode_design :
    decode 0b00000101_01000010110010000000000000000000#40 = .ok (.design 0x42C80000#32) := by decide
theorem test_decode_tick :
    decode 0b00000110_11000011110111000000000000000000#40 = .ok (.tick 0xC3DC0000#32) := by decide

/-- Words each check of `legalWord` refuses: a reserved opcode below and above, a BUILD and a SETALT with an operand. -/
theorem test_illFormed_refused :
    legalWord 0x0000000000#40 = false ∧ legalWord 0x0700000000#40 = false ∧ legalWord 0xFFFFFFFFFF#40 = false ∧
    legalWord 0x0100000001#40 = false ∧ legalWord 0x0300000002#40 = false ∧ legalWord 0x03FFFFFFFF#40 = false := by
  decide

theorem test_decode_illegal :
    decode 0x0000000000#40 = .error .reservedOpcode ∧ decode 0x0900000000#40 = .error .reservedOpcode ∧
    decode 0x0100000001#40 = .error .buildOperand ∧ decode 0x03FFFFFFFF#40 = .error .setaltOperand := by decide

/-- The listing forms of 30_encoding.md R76 and of program P1. -/
theorem test_listing :
    listingLine (.tick 0x42C80000#32) = "0642C80000  TICK =0x42C80000" ∧
    encode (.setphase 0xFFFFFF00#32) = 0x04FFFFFF00#40 := by decide

/-- K5: `SETPHASE.R` of 0.5, 0.25 and a value that rounds to 2^32. -/
theorem test_setphaseR :
    setphasePseudo (1 / 2) = some (.setphase 0x80000000#32) ∧
    setphasePseudo (1 / 4) = some (.setphase 0x40000000#32) ∧
    setphasePseudo (99999999999 / 100000000000) = some (.setphase 0x00000000#32) := by decide +kernel

/-! ## Arithmetic -/

/-- The decimal constants of 95_test_vectors.md section 0: `0.05`, `0.85`, `1e-4`, `0.5 − 1e-4`. -/
theorem test_constants :
    num32.lit 1 20 = 0x3D4CCCCD#32 ∧ num32.lit 85 100 = 0x3F59999A#32 ∧ designEps num32 = 0x38D1B717#32 ∧
    designTop num32 = 0x3EFFF2E5#32 := by decide +kernel

/-- D1's intermediate values: `0.85 · 100`, and that over 48000. -/
theorem test_mul_div :
    Binary32.mul 0x3F59999A#32 0x42C80000#32 = 0x42AA0000#32 ∧
    Binary32.div 0x42AA0000#32 0x473B8000#32 = 0x3AE81B4F#32 := by decide +kernel

/-- F1: smoothing from 0 to 1, four samples. -/
theorem test_smooth :
    let step := fun c => smooth num32 0x3F800000#32 c
    step 0x00000000#32 = 0x3D4CCCCD#32 ∧ step 0x3D4CCCCD#32 = 0x3DC7AE14#32 ∧
    step 0x3DC7AE14#32 = 0x3E120C4A#32 ∧ step 0x3E120C4A#32 = 0x3E3DF213#32 := by decide +kernel

/-- V7: MAP on whole octaves, and on note 60 by the three steps of 44_render_and_control.md R183. -/
theorem test_map :
    mapNote num32 0x428A0000#32 = 0x43DC0000#32 ∧ mapNote num32 0x42A20000#32 = 0x445C0000#32 ∧
    mapNote num32 0x42640000#32 = 0x435C0000#32 ∧ mapNote num32 0x42700000#32 = 0x4382D012#32 := by decide +kernel

/-! ## States -/

/-- The sample rate 65536 set, everything else at reset. -/
def oscRate : Oscillator F32 := { State.reset.osc with sr := 0x47800000#32, srset := true }

/-- `PT` of 95_test_vectors.md section 0: a section that passes its input through. -/
def passThrough : FilterSection F32 :=
  let c : Coeffs F32 := { ar := 0#32, ai := 0#32, c0 := 0x3F800000#32, c1 := 0#32, c2 := 0#32 }
  { tgt := c, cur := c, s1 := 0#32, s2 := 0#32 }

/-- The oscillator of program P1. -/
def oscP1 : Oscillator F32 :=
  { oscRate with phase := 0xFE8C0000#32, sec := #v[passThrough, passThrough, passThrough] }

/-- Entries of `TROM_A` (`IMPULSE[i] = 4096 − i`) at the given indices, which must rise. -/
def tromEntries (is : List Nat) : Memory F32 := is.map fun i => (i, Binary32.ofNat (4096 - i))

/-- `TROM_A` where the voices of the small states read. -/
def smallStore : KernelStore F32 := { impulse := tromEntries [40, 41, 104, 105, 4032, 4033], step := [], built := true }

/-- The whole of `TROM_A`. -/
def tromStore : KernelStore F32 :=
  { impulse := filledSpace fun i => Binary32.ofNat (4096 - i), step := filledSpace fun _ => 0#32, built := true }

/-- The start state of program P1 over the small store. -/
def stateP1 : State := { State.reset with kernel := smallStore, osc := oscP1 }

/-- The state after the first TICK of program P1. -/
def stateP1' : State :=
  { stateP1 with
    osc := { oscP1 with
      phase := 0x028C0000#32, nextvoice := 0#3
      voice := putVoice oscP1.voice 0#3 { idx := 40#12, frac := 0x3F400000#32, amp := 0x3F800000#32 }
      output := [.pattern 0#32] } }

/-- `S_A` with `SR = 65536` and `TROM_A` whole: it meets the invariant. -/
def stateA : State := { State.reset with kernel := tromStore, osc := oscRate }

/-- `stateA` with a second oscillator in the bank. -/
def stateTwo : State := { stateA with bank := [Oscillator.reset 0#32 0x3F800000#32 Config.oscDefault []] }

/-! ## Commands -/

/-- K10: a BUILD with `BUILT = 1` changes nothing; the first sets `BUILT`. -/
theorem test_build_again : exec .build stateP1 = .next stateP1 := eq_next (by decide +kernel)

theorem test_build_first : ∃ t, exec .build State.reset = .next t ∧ t.kernel.built = true := ⟨_, rfl, rfl⟩

/-- K1. -/
theorem test_setsr : exec (.setsr 0x47800000#32) State.reset = .next { State.reset with osc := oscRate } :=
  eq_next (by decide +kernel)

/-- K2, K3: zero of either sign and a negative rate, an infinity, a NaN. -/
theorem test_setsr_faults :
    exec (.setsr 0x00000000#32) State.reset = .fault .badSr ∧ exec (.setsr 0x80000000#32) State.reset = .fault .badSr ∧
    exec (.setsr 0xBF800000#32) State.reset = .fault .badSr ∧
    exec (.setsr 0x7F800000#32) State.reset = .fault .nonFinite ∧
    exec (.setsr 0x7FC00000#32) State.reset = .fault .nonFinite :=
  ⟨eq_fault (by decide +kernel), eq_fault (by decide +kernel), eq_fault (by decide +kernel),
    eq_fault (by decide +kernel), eq_fault (by decide +kernel)⟩

/-- K6: `POLSCALE` keeps its sign when `ALT` is set. -/
theorem test_setalt :
    exec (.setalt true) { State.reset with osc := { oscRate with polscale := 0xBF800000#32 } } =
      .next { State.reset with osc := { oscRate with polscale := 0xBF800000#32, alt := true } } :=
  eq_next (by decide +kernel)

/-- K4. -/
theorem test_setphase :
    exec (.setphase 0x0000007F#32) { State.reset with osc := { oscRate with phase := 0x12345640#32 } } =
      .next { State.reset with osc := { oscRate with phase := 0x00000040#32 } } := eq_next (by decide +kernel)

/-- D1, default `THETA`: the fifteen targets as binary32 patterns. -/
def targetsD1 : Vector (Coeffs F32) 3 :=
  #v[{ ar := 0x3F813CC3#32, ai := 0x3BB810E4#32, c0 := 0x3F813DCA#32, c1 := 0x3C9FEAF5#32, c2 := 0xBC3647E8#32 },
     { ar := 0x3F7E9166#32, ai := 0x3C1CFF17#32, c0 := 0x3F7E936A#32, c1 := 0xBC3647FF#32, c2 := 0x3BCDD5C5#32 },
     { ar := 0x3F7D8A88#32, ai := 0xBBB48D7B#32, c0 := 0x3F7D8C8A#32, c1 := 0xBC9BDC68#32, c2 := 0x3C364805#32 }]

/-- The state of D1: `SR = 48000`. -/
def stateD1 : State := { State.reset with osc := { oscRate with sr := 0x473B8000#32 } }

theorem test_design : designedTargets 0x42C80000#32 stateD1 = .ok targetsD1 := by decide +kernel

/-- D1, `THETA_BW6`, section 2. -/
theorem test_design_bw6 :
    ∃ t, exec (.design 0x42C80000#32) { stateD1 with theta := Config.thetaBw6 } = .next t ∧
      t.osc.sec[2].tgt = { ar := 0x3F7D4327#32, ai := 0x3B3AB760#32, c0 := 0x3F7D4529#32, c1 := 0xBCAD57FB#32,
                           c2 := 0xBD171E37#32 } := exists_next _ (by decide +kernel)

/-- P1, TICK 1: the wrap retargets slot 0 with `{40, 0.75, +1}`, and the output is still 0. -/
theorem test_tick_wrap : exec (.tick 0x44800000#32) stateP1 = .next stateP1' :=
  eq_next (by decide +kernel)

/-- P1, TICK 2: the new voice is heard, 8110.5. -/
theorem test_tick_plays :
    ∃ t, exec (.tick 0x44800000#32) stateP1' = .next t ∧ t.osc.output = [.pattern 0#32, .pattern 0x45FD7400#32] ∧
      t.osc.phase = 0x068C0000#32 ∧ (getVoice t.osc.voice 0#3).idx = 104#12 :=
  exists_next _ (by decide +kernel)

/-! ## Micro-operations -/

/-- A6: the wrap of `f = 100` at 48000 from `0xFFFFFF00`. -/
theorem test_adv_wrap :
    adv num32 0x42C80000#32 { oscRate with sr := 0x473B8000#32, phase := 0xFFFFFF00#32 } =
      .ok { oscRate with
        sr := 0x473B8000#32, phase := 0x00888780#32, nextvoice := 0#3
        voice := putVoice oscRate.voice 0#3 { idx := 63#12, frac := 0x3F7F8800#32, amp := 0x3F800000#32 } } := by
  decide +kernel

/-- A9 (`FSCALE = 2`) and A12 (saturation). -/
theorem test_increment :
    quantizedIncrement num32 0x473B8000#32 .two 0x42C80000#32 = 0x01111100#32 ∧
    quantizedIncrement num32 0x473B8000#32 .one 0x473B8000#32 = 0xFFFFFFC0#32 := by decide +kernel

/-- M8: two voices, and M4 to M7: the freeze test at its boundary. -/
theorem test_mix :
    sumVoices num32 (tromEntries [63, 64, 126, 127])
      [{ idx := 63#12, frac := 0x3F000000#32, amp := 0x3F800000#32 },
       { idx := 126#12, frac := 0x3E800000#32, amp := 0xBF800000#32 }] 0#32 = .ok 0x427B0000#32 ∧
    (advanceVoice (α := F32) { idx := 4030#12, frac := 0#32, amp := 0#32 }).idx = 4094#12 ∧
    (advanceVoice (α := F32) { idx := 4031#12, frac := 0#32, amp := 0#32 }).idx = 4031#12 := by decide +kernel

/-- F2 (old state, not new) and F3 (the denormal guard). -/
theorem test_filt :
    (let c : Coeffs F32 :=
       { ar := 0x3F000000#32, ai := 0x3E800000#32, c0 := 0x3F800000#32, c1 := 0xBF000000#32, c2 := 0x3E800000#32 }
     filtSection num32 0x3F800000#32 { tgt := c, cur := c, s1 := 0x40000000#32, s2 := 0xC0800000#32 } =
       (0xBF800000#32, { tgt := c, cur := c, s1 := 0x3F800000#32, s2 := 0xC0200000#32 })) ∧
    (let c : Coeffs F32 := { ar := 0x3F000000#32, ai := 0#32, c0 := 0#32, c1 := 0#32, c2 := 0#32 }
     (filtSection num32 0#32 { tgt := c, cur := c, s1 := 0x00800000#32, s2 := 0#32 }).2.s1 = 0#32) := by
  decide +kernel

/-- P6: the three faulting programs (commands counted from 0 here), the third on a store of zeros. -/
theorem test_run_faults :
    runFrom params32 [] [(0, 0x02473B8000#40), (0, 0x0642C80000#40)] State.reset.toBlock =
      .faulted .noKernel 0 1 [[]] ∧
    runFrom params32 [] [(0, 0x0100000000#40), (0, 0x0542C80000#40)] State.reset.toBlock = .faulted .noSr 0 1 [[]] ∧
    runFrom params32 [] [(0, 0x02473B8000#40), (0, 0x0642C80000#40), (0, 0x0900000000#40)]
      { State.reset.toBlock with kernel := { smallStore with impulse := [(4032, 0#32), (4033, 0#32)] } } =
        .faulted .illCmd 0 2 [[.pattern 0#32]] := by
  refine ⟨by decide +kernel, ?_, by decide +kernel⟩
  rfl

/-- 70_reset_and_hazards.md R225 on two ports: each list keeps its own count and its own outputs. -/
theorem test_run_two_ports :
    runFrom params32 [] [(0, 0x0247800000#40), (1, 0x0247800000#40), (0, 0x0644800000#40), (1, 0x0300000001#40),
      (0, 0x0644800000#40), (1, 0x0900000000#40)]
      { State.reset.toBlock with
        kernel := smallStore
        bank := [Oscillator.reset 0#32 0x3F800000#32 Config.oscDefault []] } =
      .faulted .illCmd 1 2 [[.pattern 0#32, .pattern 0#32], []] := by decide +kernel

/-- 00_scope.md R13: the same commands on the block with exact reals. 95_test_vectors.md P1's first wrap, with the
fraction the rational 3/4. -/
theorem test_exact_machine :
    (match command (paramsExact Reference.fns (fun _ => 0) (fun _ => 0)) (.tick 0x44800000#32)
        { theta := Config.thetaDefault
          kernel := { impulse := [(4032, 64), (4033, 63)], step := [], built := true }
          osc := { Oscillator.reset (0 : ℚ) 1 Config.oscDefault [] with
                   phase := 0xFE8C0000#32, sr := 65536, srset := true }
          bank := [] } with
      | .ok b => some (getVoice b.osc.voice 0#3, b.osc.output)
      | .error _ => none) = some ({ idx := 40#12, frac := 3 / 4, amp := 1 }, [.real 0]) := by decide +kernel

/-- 43_post_filter.md R159, R173 (a): both given sets of angles are legal; sine 0 at 0, `π`, `2π` and at the value 0. -/
theorem test_theta :
    legalTheta Config.thetaDefault = true ∧ legalTheta Config.thetaBw6 = true ∧
    legalTheta #v[.value (1 / 2), .value (-3), .piMultiple (-1) 6] = true ∧
    legalAngle (.piMultiple 0 6) = false ∧ legalAngle (.piMultiple 6 6) = false ∧
    legalAngle (.piMultiple (-12) 6) = false ∧ legalAngle (.piMultiple 1 0) = false ∧
    legalAngle (.value 0) = false := by decide +kernel

/-- Binary32 parameters whose `KROM` has the entry `x` at index `i` of `STEP` and 0 everywhere else. -/
def paramsStepEntry (i : Nat) (x : F32) : Params F32 :=
  { params32 with kromImpulse := fun _ => 0#32, kromStep := fun j => if j = i then x else 0#32 }

/-- 40_kernel_build.md R109 P6, 93 entry U9: an infinity in the last entry is refused before any command, and the largest
finite value there is not. -/
theorem test_krom :
    run (paramsStepEntry 4095 0x7F800000#32) Config.thetaDefault Config.oscDefault [] [(0, 0x0100000000#40)] =
      .refused .illegalKrom ∧
    legalKrom (paramsStepEntry 4095 0x7F7FFFFF#32) = true := by decide +kernel

/-- 30_encoding.md R77: a value that has no finite pattern leaves no output. -/
theorem test_portValue :
    portValue num32 0x45FD7400#32 = .ok (.pattern 0x45FD7400#32) ∧ portValue num32 0x7F800000#32 = .error .nonFinite ∧
    portValue { num32 with toPort := fun _ => .pattern 0x7F800000#32 } 0#32 = .error .nonFinite ∧
    portValue numReference (3 / 4) = .ok (.real (3 / 4)) := by decide +kernel

/-- 40_kernel_build.md R104, `atan2` in `(−π, π]`: `+π` on the whole negative real axis. -/
theorem test_atan2 :
    Binary32.atan2 0x00000000#32 0xBF800000#32 = 0x40490FDB#32 ∧
    Binary32.atan2 0x80000000#32 0xBF800000#32 = 0x40490FDB#32 := by decide +kernel

/-! ## Witnesses -/

theorem stateA_inv : Inv stateA where
  kernel := kernelInv_filled (fun i => Binary32.isFinite_ofNat (by omega)) (fun _ => by decide) true
  osc :=
    let h := oscInv_reset Config.oscDefault (out := []) (fun _ h => by cases h)
    { phase_grid := h.phase_grid, polscale_one := h.polscale_one, voices := h.voices, filter := h.filter
      rate := fun _ => by decide +kernel, outputs := h.outputs }
  bank := fun _ h => by cases h

theorem stateA_full : SpaceFull stateA.kernel.impulse :=
  (stateA_inv.kernel.full rfl).1

/-- `f = 1024` in `stateA` neither wraps nor faults. -/
theorem stateA_tick : ∃ t, exec (.tick 0x44800000#32) stateA = .next t ∧ t.osc.output = [.pattern 0#32] :=
  exists_next _ (by decide +kernel)

theorem witness_DecodeAndEncodeAgree :
    wellFormed (.tick 0xFFFFFFFF#32) = true ∧ decode 0x06FFFFFFFF#40 = .ok (.tick 0xFFFFFFFF#32) ∧
    decode 0x0300000001#40 = .ok (.setalt true) := by decide

/-- A word of the first pattern, of the third at its largest operand, and of the last. -/
theorem witness_LegalWordsMatchOnePattern :
    (0x0100000000#40 : CommandWord) &&& 0xFFFFFFFFFF#40 = 0x0100000000#40 ∧
    (0x0300000001#40 : CommandWord) &&& 0xFFFFFFFFFE#40 = 0x0300000000#40 ∧
    (0x06FFFFFFFF#40 : CommandWord) &&& 0xFF00000000#40 = 0x0600000000#40 := by decide

theorem witness_StepRunsDecodedCommand :
    legalTheta stateA.theta = true ∧
    ({ stateA with inputs := [.command 0x0300000001#40] } : State).inputs = .command 0x0300000001#40 :: [] ∧
    decode 0x0300000001#40 = .ok (.setalt true) ∧
    ({ stateA with inputs := [.command 0x0700000000#40] } : State).inputs = .command 0x0700000000#40 :: [] ∧
    decode 0x0700000000#40 = .error .reservedOpcode ∧
    legalTheta ({ stateA with theta := #v[.piMultiple 1 6, .piMultiple 4 6, .piMultiple 1 1] } : State).theta = false :=
  ⟨by decide +kernel, rfl, by decide, rfl, by decide, by decide +kernel⟩

/-- Nothing sent; each reset; the last port there is, and the first there is not. -/
theorem witness_IdleResetAndSelectSteps :
    legalTheta State.reset.theta = true ∧ State.reset.inputs = [] ∧ legalTheta stateTwo.theta = true ∧
    ({ stateTwo with inputs := [.oscReset] } : State).inputs = .oscReset :: [] ∧
    ({ stateTwo with inputs := [.globalReset] } : State).inputs = .globalReset :: [] ∧
    ({ stateTwo with inputs := [.select 0] } : State).inputs = .select 0 :: [] ∧
    stateTwo.bank[0]? = some (Oscillator.reset 0#32 0x3F800000#32 Config.oscDefault []) ∧
    ({ stateTwo with inputs := [.select 1] } : State).inputs = .select 1 :: [] ∧ stateTwo.bank.length ≤ 1 :=
  ⟨by decide +kernel, rfl, by decide +kernel, rfl, rfl, rfl, rfl, rfl, by decide⟩

/-- A run that ends; one that faults, on the second of two ports; and the first port that does not exist. -/
theorem witness_RunStopsAtFirstFault :
    (∃ c, runFrom params32 [] [(0, 0x0300000001#40), (1, 0x0400000040#40)] stateTwo.toBlock = .done c) ∧
    runFrom params32 [] [(1, 0x0300000001#40), (0, 0x0300000000#40), (1, 0x0642C80000#40)] stateTwo.toBlock =
      .faulted .noSr 1 1 [[], []] ∧
    stateTwo.bank.length < 2 :=
  ⟨⟨_, rfl⟩, by decide +kernel, by decide⟩

/-- A run of a SETALT and a TICK, which gives one output. -/
theorem witness_OneOutputPerTick :
    runFrom params32 [] [(0, 0x0300000000#40), (0, 0x0644800000#40)] stateP1.toBlock = .done stateP1'.toBlock ∧
    stateP1.outputs[0]? = some [] := by
  refine ⟨by decide +kernel, rfl⟩

/-- K6 and the first TICK of program P1, whose next state does not depend on `ALT` but for the polarity; a BUILD; a
fault. -/
theorem witness_SetaltWritesFlagOnly :
    exec (.tick 0x44800000#32) stateP1 = .next stateP1' ∧
    ((∀ f, Instr.build ≠ .tick f) ∧ (∀ c, Instr.build ≠ .setalt c) ∧ exec .build stateP1 = .next stateP1) ∧
    exec (.setsr 0#32) State.reset = .fault .badSr :=
  ⟨test_tick_wrap, ⟨nofun, nofun, test_build_again⟩, test_setsr_faults.1⟩

/-- A step that is a TICK, from a state that meets the invariant. -/
theorem witness_InvariantKeptByStep :
    Inv { stateA with inputs := [.command 0x0644800000#40] } ∧
    ∃ t, step { stateA with inputs := [.command 0x0644800000#40] } = .next t ∧ t.osc.output = [.pattern 0#32] :=
  ⟨⟨stateA_inv.kernel, stateA_inv.osc, stateA_inv.bank⟩, exists_next _ (by decide +kernel)⟩

theorem witness_BuiltStoreAndRateFlagStay :
    (∃ t, exec (.tick 0x44800000#32) stateA = .next t ∧ t.osc.output = [.pattern 0#32]) ∧
    stateA.kernel.built = true ∧ stateA.osc.srset = true :=
  ⟨stateA_tick, rfl, rfl⟩

theorem witness_BuildFillsStoreOnce : stateA.kernel.built = true ∧ State.reset.kernel.built = false := ⟨rfl, rfl⟩

/-- Tables with an entry that is not finite: an infinity in the first entry, a NaN in the last. -/
theorem witness_IllegalParametersAreRefused_krom :
    legalTheta Config.thetaDefault = true ∧
    (0 < 4096 ∧ (paramsStepEntry 0 0x7F800000#32).isFinite ((paramsStepEntry 0 0x7F800000#32).kromStep 0) = false) ∧
    (4095 < 4096 ∧
      (paramsStepEntry 4095 0x7FC00000#32).isFinite ((paramsStepEntry 4095 0x7FC00000#32).kromStep 4095) = false) :=
  ⟨by decide +kernel, by decide +kernel, by decide +kernel⟩

/-- The NaN and the infinity nearest the finite patterns; both zeros; the smallest and the largest positive rate. -/
theorem witness_SetsrLoadsRateOrFaults :
    Binary32.isFinite 0x7F800000#32 = false ∧ Binary32.isFinite 0xFFC00000#32 = false ∧
    (Binary32.isFinite 0x00000000#32 = true ∧ Binary32.toRat 0x00000000#32 ≤ 0) ∧
    (Binary32.isFinite 0x80000000#32 = true ∧ Binary32.toRat 0x80000000#32 ≤ 0) ∧
    (Binary32.isFinite 0x00000001#32 = true ∧ 0 < Binary32.toRat 0x00000001#32) ∧
    (Binary32.isFinite 0x7F7FFFFF#32 = true ∧ 0 < Binary32.toRat 0x7F7FFFFF#32) := by decide +kernel

theorem witness_DesignWritesTargets :
    stateD1.osc.srset = true ∧ Binary32.isFinite stateD1.osc.sr = true ∧ 0 < Binary32.toRat stateD1.osc.sr ∧
    Binary32.isFinite 0x42C80000#32 = true ∧ designedTargets 0x42C80000#32 stateD1 = .ok targetsD1 :=
  ⟨rfl, by decide +kernel, by decide +kernel, by decide, test_design⟩

/-- One state for each clause: not built; built without a rate; built with a rate and a NaN operand. -/
theorem witness_PreconditionFaultOrder :
    State.reset.kernel.built = false ∧
    (({ stateA with osc := State.reset.osc } : State).kernel.built = true ∧
      ({ stateA with osc := State.reset.osc } : State).osc.srset = false) ∧
    (stateA.kernel.built = true ∧ stateA.osc.srset = true ∧ Binary32.isFinite 0x7FC00000#32 = false) ∧
    State.reset.osc.srset = false ∧ (stateD1.osc.srset = true ∧ Binary32.isFinite 0xFF800000#32 = false) :=
  ⟨rfl, ⟨rfl, rfl⟩, ⟨rfl, rfl, by decide⟩, rfl, ⟨rfl, by decide⟩⟩

theorem witness_DesignTargetsFollowFormula :
    designedTargets 0x42C80000#32 stateD1 = .ok targetsD1 ∧ (0 < 3) ∧ (2 < 3) := ⟨test_design, by decide, by decide⟩

/-- Rate 1: frequencies at each end of each clause. -/
theorem witness_DesignFractionClamped :
    (0 : ℚ) < 1 ∧ (0 : ℚ) ≤ 0 ∧ (1 : ℚ) / 2 / (85 / 100) ≤ 10 / 17 ∧
    ((1 : ℚ) / 10000 ≤ 85 / 100 * (1 / 8500) ∧ (85 : ℚ) / 100 * (1 / 8500) ≤ 4999 / 10000 * 1) ∧
    ((1 : ℚ) / 10000 ≤ 85 / 100 * (4999 / 8500) ∧ (85 : ℚ) / 100 * (4999 / 8500) ≤ 4999 / 10000 * 1) := by norm_num

theorem witness_PoleInsideCircleIffLeftHalf :
    ¬((2 : ℚ) = 2 ∧ (1 : ℚ) = 0) ∧ ¬((-1 : ℚ) = 2 ∧ (0 : ℚ) = 0) := by norm_num

theorem witness_SectionZeroAtDcUnityAtNyquist : (1 : ℚ) / 2 ≠ 0 ∧ (-1 : ℚ) / 2 ≠ 0 := by norm_num

/-- Angles 0 and `π`, at the first and the last section. -/
theorem witness_IllegalParametersAreRefused_theta :
    (legalAngle (#v[.value 0, .piMultiple 4 6, .piMultiple 7 6] : Vector Angle 3)[0] = false ∧
      legalAngle (#v[.piMultiple 1 6, .piMultiple 4 6, .piMultiple 1 1] : Vector Angle 3)[2] = false) ∧
    Reference.sin (angleValue numReference (#v[.value 0, .piMultiple 4 6, .piMultiple 7 6] : Vector Angle 3)[0]) = 0 ∧
    Reference.sin (angleValue numReference
      (#v[.piMultiple 1 6, .piMultiple 4 6, .piMultiple 1 1] : Vector Angle 3)[2]) = 0 := by decide +kernel

/-- The first TICK of program P1, whose mixer sum is `+0`. -/
theorem witness_TickRendersSample :
    stateP1.kernel.built = true ∧ stateP1.osc.srset = true ∧ Binary32.isFinite 0x44800000#32 = true ∧
    Binary32.isFinite (phaseIncScale num32 stateP1.osc.sr stateP1.osc.cfg.fscale) = true ∧
    Binary32.isFinite (increment num32 stateP1.osc.sr stateP1.osc.cfg.fscale 0x44800000#32) = true ∧
    Binary32.isFinite stateP1.osc.polscale = true ∧ mixerSum stateP1 = .ok 0#32 ∧
    sectionsFinite num32 (filt num32 0#32 stateP1.osc.sec).2 = true ∧
    Binary32.isFinite (Binary32.mul 0x40000000#32 (filt num32 0#32 stateP1.osc.sec).1) = true := by decide +kernel

/-- The invariant with the kernel built; and a TICK that faults there, its increment beyond every finite value. -/
theorem witness_TableReadsStayInBounds :
    Inv stateA ∧ stateA.kernel.built = true ∧ stateA.osc.srset = true ∧
    exec (.tick 0x7F7FFFFF#32) stateA = .fault .nonFinite :=
  ⟨stateA_inv, rfl, rfl, eq_fault (by decide +kernel)⟩

/-- M9: slot 3 at index 4095. -/
theorem witness_TableIndexOutOfRangeFaults :
    let s : State := { stateA with
      osc := { oscRate with
        voice := putVoice oscRate.voice 3#3 { idx := 4095#12, frac := 0#32, amp := 0x3F800000#32 } } }
    s.kernel.built = true ∧ s.osc.srset = true ∧ Binary32.isFinite 0x44800000#32 = true ∧
    Binary32.isFinite (tickHz num32 s.osc.cfg 0x44800000#32) = true ∧ SpaceFull s.kernel.impulse ∧
    ∃ v ∈ s.osc.voice.toList, v.idx = 4095#12 :=
  ⟨rfl, rfl, by decide, by decide, stateA_full, by decide +kernel⟩

/-- A next state for every command, of TICK with a wrap and without one. -/
theorem witness_CommandWriteSets :
    exec .build stateP1 = .next stateP1 ∧
    exec (.setsr 0x47800000#32) State.reset = .next { State.reset with osc := oscRate } ∧
    (∃ t, exec (.setalt true) State.reset = .next t) ∧ (∃ t, exec (.setphase 0x7F#32) State.reset = .next t) ∧
    (∃ t, exec (.design 0x42C80000#32) { stateD1 with theta := Config.thetaBw6 } = .next t) ∧
    exec (.tick 0x44800000#32) stateP1 = .next stateP1' ∧
    stateP1'.osc.phase.toNat +
      (quantizedIncrement num32 stateP1'.osc.sr stateP1'.osc.cfg.fscale
        (tickHz num32 stateP1'.osc.cfg 0x44800000#32)).toNat < 2 ^ 32 ∧
    stateP1.osc.alt = false :=
  ⟨test_build_again, test_setsr, ⟨_, rfl⟩, ⟨_, rfl⟩, test_design_bw6.imp fun _ h => h.1, test_tick_wrap,
    by decide +kernel, rfl⟩

theorem witness_TickOutputIgnoresItsOperand :
    (∃ t, exec (.tick 0x44800000#32) stateP1' = .next t) ∧ ∃ u, exec (.tick 0#32) stateP1' = .next u :=
  ⟨test_tick_plays.imp fun _ h => h.1,
    (exists_next (fun u => u.osc.phase = 0x028C0000#32) (by decide +kernel)).imp fun _ h => h.1⟩

/-- A7: an ADV that wraps, the phase decreasing. -/
theorem witness_SignOfFrequencyIrrelevant :
    stateP1.osc.cfg.noteMode = false ∧
    adv num32 0x44800000#32 oscP1 = .ok { stateP1'.osc with output := [] } ∧
    stateP1'.osc.phase.toNat < oscP1.phase.toNat := by decide +kernel

/-- The rate 65536, an increment inside the range (A7) and one that saturates (A11). -/
theorem witness_IncrementTruncatedAndQuantized :
    Binary32.isFinite 0x47800000#32 = true ∧ 0 < Binary32.toRat 0x47800000#32 ∧
    Binary32.isFinite (increment num32 0x47800000#32 .one 0x44800000#32) = true ∧
    Binary32.toRat (increment num32 0x47800000#32 .one 0x44800000#32) < 2 ^ 32 ∧
    Binary32.isFinite (increment num32 0x47800000#32 .one 0x4788B800#32) = true ∧
    2 ^ 32 ≤ Binary32.toRat (increment num32 0x47800000#32 .one 0x4788B800#32) := by decide +kernel

/-- A5 (`f = 0`), and at the rate 65536 the frequency 2^-10, whose increment is exactly 64. -/
theorem witness_TinyFrequencyMovesNothing :
    Binary32.isFinite oscRate.sr = true ∧ 0 < Binary32.toRat oscRate.sr ∧ adv num32 0#32 oscRate = .ok oscRate ∧
    Binary32.toRat (increment num32 oscRate.sr oscRate.cfg.fscale 0#32) < 64 ∧
    adv num32 0x3A800000#32 oscRate = .ok { oscRate with phase := 64#32 } ∧
    Binary32.toRat (increment num32 oscRate.sr oscRate.cfg.fscale 0x3A800000#32) = 64 := by decide +kernel

/-- A11 (phase 0) and the wrap from phase 64 that follows it in V3's notes. -/
theorem witness_SaturatedFrequencySteps :
    adv num32 0x4788B800#32 oscRate = .ok { oscRate with phase := 0xFFFFFFC0#32 } ∧ oscRate.phase.toNat < 64 ∧
    2 ^ 32 ≤ Binary32.toRat (increment num32 oscRate.sr oscRate.cfg.fscale 0x4788B800#32) ∧
    (∃ o', adv num32 0x4788B800#32 { oscRate with phase := 64#32 } = .ok o') ∧
    64 ≤ ({ oscRate with phase := 64#32 } : Oscillator F32).phase.toNat := by
  refine ⟨by decide +kernel, by decide, by decide +kernel, ⟨_, rfl⟩, by decide⟩

/-- P1: its first TICK wraps, its second does not. -/
theorem witness_TickRetargetsNextSlotOnWrap :
    exec (.tick 0x44800000#32) stateP1 = .next stateP1' ∧
    2 ^ 32 ≤ stateP1.osc.phase.toNat + (quantizedIncrement num32 stateP1.osc.sr stateP1.osc.cfg.fscale
      (tickHz num32 stateP1.osc.cfg 0x44800000#32)).toNat ∧
    (∃ t, exec (.tick 0x44800000#32) stateP1' = .next t) ∧
    stateP1'.osc.phase.toNat + (quantizedIncrement num32 stateP1'.osc.sr stateP1'.osc.cfg.fscale
      (tickHz num32 stateP1'.osc.cfg 0x44800000#32)).toNat < 2 ^ 32 :=
  ⟨test_tick_wrap, by decide +kernel, test_tick_plays.imp fun _ h => h.1, by decide +kernel⟩

/-- The smallest and the largest quantised increment that wraps. -/
theorem witness_RetargetStaysInFirstSample :
    ((64#32 : U32).toNat % 64 = 0 ∧ 2 ^ 32 ≤ (0xFFFFFFC0#32 : U32).toNat + (64#32 : U32).toNat) ∧
    ((0xFFFFFFC0#32 : U32).toNat % 64 = 0 ∧ 2 ^ 32 ≤ (0xFFFFFFFF#32 : U32).toNat + (0xFFFFFFC0#32 : U32).toNat) := by
  decide

theorem witness_RetargetFractionInUnit : 64 ≤ (64#32 : U32).toNat ∧ 64 ≤ (0xFFFFFFC0#32 : U32).toNat := by decide

/-- The smallest increment, and the largest. -/
theorem witness_WrapGapIsFloorOrCeil :
    ((1#32 : U32) ≠ 0#32 ∧ wraps 0xFFFFFFFF#32 (0xFFFFFFFF#32 + 1#32) = true) ∧
    ((0xFFFFFFFF#32 : U32) ≠ 0#32 ∧ wraps 0xFFFFFFFF#32 (0xFFFFFFFF#32 + 0xFFFFFFFF#32) = true) := by decide

theorem witness_MixerSumsInSlotOrder :
    SpaceFull stateA.kernel.impulse ∧ ∀ v ∈ stateA.osc.voice.toList, v.idx.toNat ≤ 4094 :=
  ⟨stateA_full, by decide +kernel⟩

/-- Indices 4030 and 4031, on the two sides of the freeze test, 4094, and a MIX that answers. -/
theorem witness_VoiceAdvancesOrFreezes :
    (4030#12 : BitVec 12).toNat + 64 + 1 < 4096 ∧ 4096 ≤ (4031#12 : BitVec 12).toNat + 64 + 1 ∧
    (4094#12 : BitVec 12).toNat ≤ 4094 ∧
    mix num32 smallStore.impulse oscRate.voice = .ok (0#32, oscRate.voice) := by decide +kernel

theorem witness_VoiceLifetime :
    (62#12 : BitVec 12).toNat ≤ 62 ∧ (63#12 : BitVec 12).toNat ≤ 63 ∧ ¬(63#12 : BitVec 12).toNat ≤ 62 := by decide

theorem witness_MixSettlesToConstant : 63 ≤ 63 ∧ 63 ≤ 1000 := by decide

theorem witness_SilentVoicesMixToZero :
    SpaceFull stateA.kernel.impulse ∧
    ∀ v ∈ stateA.osc.voice.toList, v.idx.toNat ≤ 4094 ∧ v.amp = 0#32 ∧
      ∀ a b, memRead stateA.kernel.impulse v.idx.toNat = some a →
        memRead stateA.kernel.impulse (v.idx.toNat + 1) = some b →
        Binary32.isFinite (interpolate num32 v.frac a b) = true := by
  refine ⟨stateA_full, ?_⟩
  have hv : ∀ v ∈ stateA.osc.voice.toList, v = Voice.reset 0#32 := by decide +kernel
  intro v hv'
  rw [hv v hv']
  refine ⟨by decide, rfl, fun a b ha hb => ?_⟩
  have ea : memRead stateA.kernel.impulse (Voice.reset (0#32 : F32)).idx.toNat = some 0x42800000#32 := by decide +kernel
  have eb : memRead stateA.kernel.impulse ((Voice.reset (0#32 : F32)).idx.toNat + 1) = some 0x427C0000#32 := by decide +kernel
  rw [ea] at ha
  rw [eb] at hb
  obtain rfl := Option.some.inj ha
  obtain rfl := Option.some.inj hb
  decide +kernel

/-- A target and a current pole at rest, and two near the circle on opposite sides. -/
theorem witness_PoleGovernsSectionState :
    (0 : ℚ) * 0 + 0 * 0 < 1 ∧ (99 / 100 : ℚ) * (99 / 100) + 0 * 0 < 1 ∧
    (-99 / 100 : ℚ) * (-99 / 100) + 1 / 10 * (1 / 10) < 1 := by norm_num

theorem witness_SmoothingKeepsReachedTarget :
    Binary32.isFinite 0x80000000#32 = true ∧ Binary32.isFinite 0x7F7FFFFF#32 = true ∧
    Binary32.isFinite 0x00000001#32 = true := by decide

/-- The two sides of the guard's threshold. -/
theorem witness_FilterNeverStoresDenormal :
    (Binary32.isFinite 0x807FFFFF#32 = true ∧ Binary32.ftz 0x807FFFFF#32 = 0#32) ∧
    (Binary32.isFinite 0x80800000#32 = true ∧ Binary32.ftz 0x80800000#32 = 0x80800000#32) := by decide

theorem witness_UndesignedFilterIsSilent :
    Inv stateA ∧ Undesigned stateA.osc ∧ (∀ f0, Instr.tick 0x44800000#32 ≠ .design f0) ∧
    ∃ t, exec (.tick 0x44800000#32) stateA = .next t ∧ t.osc.output = [.pattern 0#32] := by
  refine ⟨stateA_inv, ?_, (fun f0 h => by cases h), stateA_tick⟩
  intro c hc
  have : c = FilterSection.reset 0#32 := by
    revert c
    decide +kernel
  rw [this]
  exact ⟨rfl, rfl⟩

/-- The ends of each exponent range, and an infinity and a NaN. -/
theorem witness_PatternDenotesValue :
    (0x00800000 : Nat) / 2 ^ 23 % 256 = 1 ∧ (0xFF7FFFFF : Nat) / 2 ^ 23 % 256 = 254 ∧
    (0x007FFFFF : Nat) / 2 ^ 23 % 256 = 0 ∧ (0xFF800000 : Nat) / 2 ^ 23 % 256 = 255 ∧
    (0x7FC00000 : Nat) / 2 ^ 23 % 256 = 255 := by decide

/-- A tie: `2^24 + 1` lies between two values, and the one with the even last bit is taken. -/
theorem witness_RoundingIsNearestEven :
    (Binary32.isFinite 0x3F800000#32 = true ∧ (0x3F800000#32 : F32) ≠ 0x80000000#32) ∧
    Binary32.isFinite (Binary32.ofRat 16777217) = true ∧ Binary32.isFinite 0x4B800001#32 = true ∧
    |Binary32.toRat (Binary32.ofRat 16777217) - 16777217| = |Binary32.toRat 0x4B800001#32 - 16777217| ∧
    Binary32.toRat 0x4B800001#32 ≠ Binary32.toRat (Binary32.ofRat 16777217) := by decide +kernel

/-- Operands with a nonzero sum, difference, product and quotient; with a zero sum; with a zero difference and
product. -/
theorem witness_ArithmeticExactThenRounded :
    (Binary32.isFinite 0x3F800000#32 = true ∧ Binary32.isFinite 0xBF000000#32 = true ∧
      Binary32.toRat 0x3F800000#32 = 1 ∧ Binary32.toRat 0xBF000000#32 = -1 / 2) ∧
    Binary32.toRat 0x3F800000#32 + Binary32.toRat 0xBF800000#32 = 0 ∧
    Binary32.toRat 0x00000000#32 - Binary32.toRat 0x80000000#32 = 0 ∧
    (Binary32.toRat 0x80000000#32 = 0 ∧ Binary32.toRat 0x00000001#32 ≠ 0) := by decide +kernel

/-- In the domain, and outside it with the invariant. -/
theorem witness_CommandDomains :
    Inv stateA ∧ InDomain (.setalt true) stateA ∧ ¬InDomain (.setsr 0#32) stateA ∧
    ¬InDomain (.tick 0x7F800000#32) stateA :=
  ⟨stateA_inv, trivial, fun h => absurd h.2 (by decide +kernel), fun h => absurd h.2.2.1 (by decide)⟩

theorem witness_FaultsByCommand : exec (.setsr 0#32) State.reset = .fault .badSr := test_setsr_faults.1

/-- A SETALT on one port and a SETPHASE on the other. -/
theorem witness_OscillatorsIndependent :
    stateTwo.kernel.built = true ∧
    ∃ s1 s2 s3 s4, exec (.setalt true) stateTwo = .next s1 ∧ selectPort 0 s1 = .next s2 ∧
      exec (.setphase 64#32) s2 = .next s3 ∧ selectPort 0 s3 = .next s4 :=
  ⟨rfl, _, _, _, _, rfl, rfl, rfl, rfl⟩

theorem witness_MapExactOnOctaves : (-4096 : ℤ) ≤ -4096 ∧ (4096 : ℤ) ≤ 4096 ∧ (-4096 : ℤ) ≤ 0 := by decide

/-- 0.5; and a value a quarter of a count below the top, which rounds to 2^32. -/
theorem witness_PseudoCommandsExpand :
    ((1 : ℚ) ≤ 1) ∧
    ((0 : ℚ) ≤ 1 / 2 ∧ (1 : ℚ) / 2 < 1 ∧ |(1 : ℚ) / 2 * 2 ^ 32 - (2147483648 : Nat)| ≤ 1 / 2 ∧
      (1 : ℚ) / 2 * 2 ^ 32 ≠ (2147483648 : Nat) + 1 / 2) ∧
    ((0 : ℚ) ≤ 17179869183 / 17179869184 ∧ (17179869183 : ℚ) / 17179869184 < 1 ∧
      |(17179869183 : ℚ) / 17179869184 * 2 ^ 32 - (4294967296 : Nat)| ≤ 1 / 2 ∧
      (17179869183 : ℚ) / 17179869184 * 2 ^ 32 ≠ (4294967296 : Nat) + 1 / 2) := by
  decide +kernel

/-- The buffer's indices 0, `M/2` and the last; the coefficients on the two sides of `M/2`; a list of table entries; a
builder of length 2 with a bin of magnitude 0, its functions all constant, and one whose retained samples do not sum to 0. -/
theorem witness_BuilderStepsAsWritten :
    (0 < 8192 ∧ 4096 < 8192 ∧ 8191 < 8192) ∧ (1 ≤ 1 ∧ 2 * 4095 < 8192) ∧
    4096 < (List.replicate 8192 (0 : ℚ)).length ∧ 4095 < (List.replicate 4096 (0 : ℚ)).length ∧
    (let fns : NumFns ℚ :=
       { pi := 3, tan := fun _ => 0, sin := fun _ => 0, cos := fun _ => 0, exp2 := fun _ => 0, log := fun _ => 0
         atan2 := fun _ _ => 0, exp := fun _ => 0, sqrt := fun _ => 0 }
     ∃ x ∈ builderSpectrum (numExact fns) 2, cxAbs (numExact fns) x = 0) ∧
    (retainedKernel numReference 2).sum ≠ 0 := by
  rw [List.length_replicate, List.length_replicate]
  decide +kernel

end Sys2Proof.Tests
end

section
/-! The arithmetic of binary32 against the rationals (00_scope.md R13): the value of a pattern by its sign and its
magnitude, the rounding as a function of the exact rational alone, and each operation as that rational rounded once. -/

namespace Sys2Proof.Binary32

/-! ## The value of a pattern -/

theorem toRat_of_signBit_false {x : F32} (h : signBit x = false) : toRat x = (units x : ℚ) / 2 ^ 149 := by
  simp [toRat, signedUnits, h]

theorem toRat_of_signBit_true {x : F32} (h : signBit x = true) : toRat x = -((units x : ℚ) / 2 ^ 149) := by
  simp [toRat, signedUnits, h, neg_div]

theorem abs_toRat (x : F32) : |toRat x| = (units x : ℚ) / 2 ^ 149 := by
  have h0 : (0 : ℚ) ≤ (units x : ℚ) / 2 ^ 149 := by positivity
  cases h : signBit x
  · rw [toRat_of_signBit_false h, abs_of_nonneg h0]
  · rw [toRat_of_signBit_true h, abs_neg, abs_of_nonneg h0]

theorem toRat_eq_zero_iff (x : F32) : toRat x = 0 ↔ units x = 0 := by
  rw [← abs_eq_zero, abs_toRat]
  simp

/-- Only a zero has a sign that its value does not show. -/
theorem signBit_of_toRat_ne_zero {x : F32} (h : toRat x ≠ 0) : signBit x = decide (toRat x < 0) := by
  have h0 : (0 : ℚ) ≤ (units x : ℚ) / 2 ^ 149 := by positivity
  cases hs : signBit x
  · rw [toRat_of_signBit_false hs]
    exact (decide_eq_false h0.not_gt).symm
  · rw [toRat_of_signBit_true hs] at h ⊢
    have hneg : -((units x : ℚ) / 2 ^ 149) < 0 := lt_of_le_of_ne (neg_nonpos.2 h0) h
    exact (decide_eq_true hneg).symm

theorem signedUnits_neg (x : F32) : signedUnits (neg x) = -signedUnits x := by
  cases h : signBit x <;> simp [signedUnits, h]

@[simp] theorem toRat_neg (x : F32) : toRat (neg x) = -toRat x := by
  simp [toRat, signedUnits_neg, neg_div]

theorem abs_eq_pack (x : F32) : abs x = pack false (x.toNat % 2 ^ 31) := by
  apply BitVec.eq_of_toNat_eq
  rw [toNat_pack _ (Nat.mod_lt _ (by decide)), abs, BitVec.toNat_and]
  exact Nat.and_two_pow_sub_one_eq_mod x.toNat 31

@[simp] theorem toRat_abs (x : F32) : toRat (abs x) = |toRat x| := by
  have hm : x.toNat % 2 ^ 31 < 2 ^ 31 := Nat.mod_lt _ (by decide)
  rw [abs_toRat, abs_eq_pack, toRat_of_signBit_false (signBit_pack _ hm), units_pack _ hm, units_eq]

@[simp] theorem toRat_pack_zero (s : Bool) : toRat (pack s 0) = 0 := by
  rw [toRat_eq_zero_iff, units_pack s (by decide)]
  rfl

/-! ## The rounding of a ratio -/

theorem roundShift_mul_right (n d : Nat) {k : Nat} (hk : 0 < k) : roundShift (n * k) (d * k) = roundShift n d := by
  rw [roundShift, Nat.mul_div_mul_right _ _ hk, roundShift]

/-- Quotient, remainder and quantum all scale with the ratio, so that the choice between down and up does not change. -/
theorem roundQuot_mul_right (n d : Nat) {k : Nat} (hk : 0 < k) : roundQuot (n * k) (d * k) = roundQuot n d := by
  unfold roundQuot
  rw [roundShift_mul_right n d hk, Nat.mul_right_comm d k, Nat.mul_div_mul_right _ _ hk, Nat.mul_mod_mul_right,
    ← Nat.mul_assoc 2]
  simp only [Nat.mul_lt_mul_right hk, Nat.mul_left_inj hk.ne']

theorem roundUnits_mul_right (n d : Nat) {k : Nat} (hk : 0 < k) : roundUnits (n * k) (d * k) = roundUnits n d := by
  rw [roundUnits_eq, roundShift_mul_right n d hk, roundQuot_mul_right n d hk, roundUnits_eq]

/-- The rounding sees the ratio only, not the fraction it is written as. -/
theorem roundUnits_congr {n d n' d' : Nat} (hd : 0 < d) (hd' : 0 < d') (h : n * d' = n' * d) :
    roundUnits n d = roundUnits n' d' := by
  rw [← roundUnits_mul_right n d hd', h, Nat.mul_comm d d', roundUnits_mul_right n' d' hd]

@[simp] theorem roundUnits_zero (d : Nat) : roundUnits 0 d = 0 := by
  simp [roundUnits]

/-- A rational of magnitude `(n / d) · 2^-149` rounds to its sign and the rounding of `n / d`. -/
theorem ofRat_eq_pack {q : ℚ} {n d : Nat} (hd : 0 < d) (h : |q| = (n : ℚ) / d / 2 ^ 149) :
    ofRat q = pack (decide (q < 0)) (roundUnits n d) := by
  have hfrac : ((q.num.natAbs : ℚ)) / q.den = n / d / 2 ^ 149 := by
    rw [← h, Nat.cast_natAbs, Int.cast_abs, ← Nat.abs_cast q.den, ← abs_div, Rat.num_div_den]
  have hcross : q.num.natAbs * 2 ^ 149 * d = n * q.den := by
    have hq : (q.den : ℚ) ≠ 0 := Nat.cast_ne_zero.2 q.den_ne_zero
    have hd0 : (d : ℚ) ≠ 0 := Nat.cast_ne_zero.2 hd.ne'
    rw [div_div, div_eq_div_iff hq (by positivity)] at hfrac
    rw [← Nat.cast_inj (R := ℚ)]
    push_cast
    linarith
  rw [ofRat, ofRatio, roundUnits_congr q.den_pos hd hcross]
  simp only [Rat.num_neg]

/-! ## The operations -/

theorem add_of_isFinite {x y : F32} (hx : isFinite x = true) (hy : isFinite y = true) : add x y = addFinite x y := by
  simp [add, hx, hy]

theorem toRat_add_toRat (x y : F32) : toRat x + toRat y = ((signedUnits x + signedUnits y : Int) : ℚ) / 2 ^ 149 := by
  simp [toRat, add_div]

/-- A sum of two values is 0 exactly where the sum of their units is. -/
theorem toRat_add_toRat_eq_zero_iff (x y : F32) : toRat x + toRat y = 0 ↔ signedUnits x + signedUnits y = 0 := by
  rw [toRat_add_toRat, div_eq_zero_iff, Int.cast_eq_zero]
  simp

theorem add_eq_ofRat {x y : F32} (hx : isFinite x = true) (hy : isFinite y = true) (h : toRat x + toRat y ≠ 0) :
    add x y = ofRat (toRat x + toRat y) := by
  have hz : signedUnits x + signedUnits y ≠ 0 := mt (toRat_add_toRat_eq_zero_iff x y).2 h
  rw [add_of_isFinite hx hy, addFinite, if_neg hz, toRat_add_toRat]
  generalize signedUnits x + signedUnits y = z
  have habs : |(z : ℚ) / 2 ^ 149| = (z.natAbs : ℚ) / (1 : Nat) / 2 ^ 149 := by
    rw [abs_div, Nat.cast_natAbs, Int.cast_abs]
    simp
  have hsign : (z : ℚ) / 2 ^ 149 < 0 ↔ z < 0 := by rw [div_lt_iff₀ (by positivity), zero_mul, Int.cast_lt_zero]
  rw [ofRat_eq_pack Nat.one_pos habs, decide_eq_decide.2 hsign]

theorem toRat_add_of_eq_zero {x y : F32} (hx : isFinite x = true) (hy : isFinite y = true)
    (h : toRat x + toRat y = 0) : toRat (add x y) = 0 := by
  rw [add_of_isFinite hx hy, addFinite, if_pos ((toRat_add_toRat_eq_zero_iff x y).1 h), toRat_pack_zero]

theorem mul_of_isFinite {x y : F32} (hx : isFinite x = true) (hy : isFinite y = true) :
    mul x y = pack (signBit x != signBit y) (roundUnits (units x * units y) (2 ^ 149)) := by
  simp [mul, hx, hy]

/-- The sign of a product or quotient of nonzero values is the exclusive or of their sign bits. -/
theorem signBit_bne_eq {x y : F32} (hx : toRat x ≠ 0) (hy : toRat y ≠ 0) :
    (signBit x != signBit y) = decide (toRat x * toRat y < 0) := by
  rw [signBit_of_toRat_ne_zero hx, signBit_of_toRat_ne_zero hy]
  rcases hx.lt_or_gt with hx' | hx' <;> rcases hy.lt_or_gt with hy' | hy' <;>
    simp [mul_neg_iff, hx', hy', hx'.not_gt, hy'.not_gt]

theorem mul_eq_ofRat {x y : F32} (hx : isFinite x = true) (hy : isFinite y = true) (h : toRat x * toRat y ≠ 0) :
    mul x y = ofRat (toRat x * toRat y) := by
  have habs : |toRat x * toRat y| = ((units x * units y : Nat) : ℚ) / (2 ^ 149 : Nat) / 2 ^ 149 := by
    rw [abs_mul, abs_toRat, abs_toRat, div_mul_div_comm, div_div, Nat.cast_mul, Nat.cast_pow, Nat.cast_ofNat]
  rw [mul_of_isFinite hx hy, ofRat_eq_pack (Nat.two_pow_pos _) habs,
    signBit_bne_eq (left_ne_zero_of_mul h) (right_ne_zero_of_mul h)]

theorem toRat_mul_of_eq_zero {x y : F32} (hx : isFinite x = true) (hy : isFinite y = true)
    (h : toRat x * toRat y = 0) : toRat (mul x y) = 0 := by
  have hu : units x * units y = 0 := by
    rwa [mul_eq_zero, toRat_eq_zero_iff, toRat_eq_zero_iff, ← Nat.mul_eq_zero] at h
  rw [mul_of_isFinite hx hy, hu, roundUnits_zero, toRat_pack_zero]

theorem div_of_isFinite {x y : F32} (hx : isFinite x = true) (hy : isFinite y = true) (h : toRat y ≠ 0) :
    div x y = pack (signBit x != signBit y) (roundUnits (units x * 2 ^ 149) (units y)) := by
  have hu : units y ≠ 0 := mt (toRat_eq_zero_iff y).2 h
  simp [div, hx, hy, isNaN_of_isFinite, hu]

theorem div_eq_ofRat {x y : F32} (hx : isFinite x = true) (hy : isFinite y = true) (hx0 : toRat x ≠ 0)
    (hy0 : toRat y ≠ 0) : div x y = ofRat (toRat x / toRat y) := by
  have hu : 0 < units y := Nat.pos_of_ne_zero (mt (toRat_eq_zero_iff y).2 hy0)
  have habs : |toRat x / toRat y| = ((units x * 2 ^ 149 : Nat) : ℚ) / units y / 2 ^ 149 := by
    rw [abs_div, abs_toRat, abs_toRat, div_div_div_cancel_right₀ (by positivity), div_right_comm]
    rw [Nat.cast_mul, Nat.cast_pow, Nat.cast_ofNat, mul_div_cancel_right₀ _ (by positivity)]
  have hsign : toRat x / toRat y < 0 ↔ toRat x * toRat y < 0 := by rw [div_neg_iff, mul_neg_iff]
  rw [div_of_isFinite hx hy hy0, ofRat_eq_pack hu habs, signBit_bne_eq hx0 hy0, decide_eq_decide.2 hsign]

theorem toRat_div_of_eq_zero {x y : F32} (hx : isFinite x = true) (hy : isFinite y = true) (hx0 : toRat x = 0)
    (hy0 : toRat y ≠ 0) : toRat (div x y) = 0 := by
  rw [div_of_isFinite hx hy hy0, (toRat_eq_zero_iff x).1 hx0, Nat.zero_mul, roundUnits_zero, toRat_pack_zero]

theorem lt_iff_toRat_lt {x y : F32} (hx : isFinite x = true) (hy : isFinite y = true) :
    lt x y = true ↔ toRat x < toRat y := by
  rw [toRat, toRat, div_lt_div_iff_of_pos_right (by positivity), Int.cast_lt]
  simp [lt, isNaN_of_isFinite, hx, hy]

/-- Settles O54: the rounding depends on the exact rational alone, and the units each operation rounds are that
rational's; a difference is the sum with the negated operand. -/
theorem arithmeticExactThenRounded : Obligations.ArithmeticExactThenRounded := by
  intro x y hx hy a b
  have hny : isFinite (neg y) = true := (isFinite_neg y).trans hy
  have hsub : a - b = toRat x + toRat (neg y) := by rw [toRat_neg, sub_eq_add_neg]
  rw [hsub]
  exact ⟨add_eq_ofRat hx hy, toRat_add_of_eq_zero hx hy, add_eq_ofRat hx hny, toRat_add_of_eq_zero hx hny,
    mul_eq_ofRat hx hy, toRat_mul_of_eq_zero hx hy, div_eq_ofRat hx hy, toRat_div_of_eq_zero hx hy,
    toRat_neg x, toRat_abs x, lt_iff_toRat_lt hx hy⟩

end Sys2Proof.Binary32
end

section
/-! The state and its invariant (10_state.md R30 to R33): the values after reset, what one item of the input stream does
to the block, and, stage by stage of a TICK, what is left unchanged and what is kept of the invariant. -/

namespace Sys2Proof.Machine

open Sys2Proof.Safety

variable {α : Type} {N : Num α} {P : Params α}

/-! ## Reset -/

theorem reset_voice (z one : α) (cfg : OscParams) (out : List (PortValue α)) :
    (Oscillator.reset z one cfg out).voice = Vector.replicate 8 (Voice.reset z) := rfl

theorem reset_sec (z one : α) (cfg : OscParams) (out : List (PortValue α)) :
    (Oscillator.reset z one cfg out).sec = Vector.replicate 3 (FilterSection.reset z) := rfl

theorem atReset_reset (cfg : OscParams) (out : List (PortValue F32)) :
    AtReset (Oscillator.reset 0x00000000#32 0x3F800000#32 cfg out) where
  phase_zero := rfl
  polscale_one := rfl
  nextvoice_seven := rfl
  alt_default := rfl
  srset_clear := rfl
  voices_silent i := by rw [reset_voice, getVoice, Vector.getElem_replicate, Voice.reset]
  sections_zero c hc := by
    rw [reset_sec, Vector.toList_replicate] at hc
    obtain rfl := List.eq_of_mem_replicate hc
    exact ⟨rfl, rfl, rfl, rfl⟩

theorem storeAtReset_reset : StoreAtReset KernelStore.reset := ⟨rfl, fun _ => rfl, fun _ => rfl⟩

theorem kernelInv_reset : KernelInv KernelStore.reset := ⟨rfl, rfl, nofun⟩

/-- Settles O9: the oscillator and the store are at their reset values, and the bank is empty. -/
theorem resetValues : Obligations.ResetValues :=
  ⟨atReset_reset _ _, storeAtReset_reset, nofun⟩

/-- Settles O11: the empty store and the oscillator at its reset values meet their invariants. -/
theorem resetMeetsInvariant : Obligations.ResetMeetsInvariant where
  kernel := kernelInv_reset
  osc := oscInv_reset _ nofun
  bank := nofun

/-! ## The filter file -/

theorem forall_mem_sections (Q : FilterSection α → Prop) (v : Vector (FilterSection α) 3) :
    (∀ c ∈ v.toList, Q c) ↔ ∀ (k : Nat) (hk : k < 3), Q v[k] := by
  simp only [Vector.mem_toList_iff, Vector.forall_mem_iff_forall_getElem]

/-- DESIGN's store, section by section: the target only (43_post_filter.md R163). -/
theorem getElem_putTargets (t : Vector (Coeffs α) 3) (v : Vector (FilterSection α) 3) (k : Nat) (hk : k < 3) :
    (putTargets t v)[k] = { v[k] with tgt := t[k] } := by
  match k, hk with
  | 0, _ | 1, _ | 2, _ => rfl

/-- FILT reads the targets and does not write them. -/
theorem getElem_filt_tgt (x : α) (v : Vector (FilterSection α) 3) (k : Nat) (hk : k < 3) :
    (filt N x v).2[k].tgt = v[k].tgt := by
  match k, hk with
  | 0, _ | 1, _ | 2, _ => rfl

theorem sectionsFinite_eq_true {v : Vector (FilterSection α) 3} :
    sectionsFinite N v = true ↔ ∀ (k : Nat) (hk : k < 3), sectionFinite N v[k] = true := by
  simp only [sectionsFinite, Bool.and_eq_true]
  constructor
  · rintro ⟨⟨h0, h1⟩, h2⟩ k hk
    match k, hk with
    | 0, _ => exact h0
    | 1, _ => exact h1
    | 2, _ => exact h2
  · intro h
    exact ⟨⟨h 0 _, h 1 _⟩, h 2 _⟩

/-- Targets that may be stored are finite, section by section. -/
theorem coeffsFinite_of_targets {theta : Vector Angle 3} {cfg : OscParams} {sr f0 : α} {t : Vector (Coeffs α) 3}
    (h : targets P theta cfg sr f0 = .ok t) (k : Nat) (hk : k < 3) : coeffsFinite P.toNum t[k] = true := by
  obtain ⟨-, h0, h1, h2⟩ := targets_eq_ok.1 h
  match k, hk with
  | 0, _ => exact h0
  | 1, _ => exact h1
  | 2, _ => exact h2

/-! ## The stages of ADV: the wrap, and what is left unchanged -/

/-- The wrap test of an addition is its carry (41_phase_accumulator.md R125). -/
theorem wraps_add_eq (p q : U32) : wraps p (p + q) = decide (2 ^ 32 ≤ p.toNat + q.toNat) := by
  have hp := p.isLt
  have hq := q.isLt
  rw [wraps, BitVec.ult, BitVec.toNat_add, decide_eq_decide]
  omega

/-- An advance writes no slot but the one after `NEXTVOICE`. -/
theorem getVoice_advanced_other (q : U32) (o : Oscillator α) {j : BitVec 3} (hj : j ≠ o.nextvoice + 1#3) :
    getVoice (advanced N q o).voice j = getVoice o.voice j := by
  cases hw : wraps o.phase (o.phase + q)
  · rw [advanced_of_not_wraps hw]
  · rw [advanced_of_wraps hw]
    exact getVoice_putVoice_other _ _ hj

/-- The slot a wrap retargets (41_phase_accumulator.md R126, R127). -/
theorem getVoice_advanced_same {q : U32} {o : Oscillator α} (hw : wraps o.phase (o.phase + q) = true) :
    getVoice (advanced N q o).voice (o.nextvoice + 1#3) =
      { idx := retargetIdx (o.phase + q) q, frac := retargetFrac N (o.phase + q) q, amp := o.polscale } := by
  rw [advanced_of_wraps hw]
  exact getVoice_putVoice_same _ _ _

/-- Only a set `ALT` lets an advance change the polarity. -/
theorem advanced_polscale_of_not_alt (q : U32) {o : Oscillator α} (h : o.alt = false) :
    (advanced N q o).polscale = o.polscale := by
  cases hw : wraps o.phase (o.phase + q)
  · rw [advanced_of_not_wraps hw]
  · rw [advanced_of_wraps hw, retarget_polscale, h]
    rfl

theorem advanceVoice_eq (v : Voice α) : advanceVoice v = { v with idx := (advanceVoice v).idx } := by
  rw [← advanceVoice_frac v, ← advanceVoice_amp v]

/-! ## One sample -/

/-- The oscillator after MIX and a FILT of `x` (44_render_and_control.md R184). -/
def mixFilt (N : Num α) (x : α) (o : Oscillator α) : Oscillator α :=
  { o with voice := mapVoices advanceVoice o.voice, sec := (filt N x o.sec).2 }

/-- The oscillator after MIX, FILT of `x` and ADV by `q`. -/
def rendered (N : Num α) (x : α) (q : U32) (o : Oscillator α) : Oscillator α := advanced N q (mixFilt N x o)

section
variable (x : α) (q : U32) (o : Oscillator α)

@[simp] theorem rendered_cfg : (rendered N x q o).cfg = o.cfg := advanced_cfg _ _
@[simp] theorem rendered_sr : (rendered N x q o).sr = o.sr := advanced_sr _ _
@[simp] theorem rendered_alt : (rendered N x q o).alt = o.alt := advanced_alt _ _
@[simp] theorem rendered_srset : (rendered N x q o).srset = o.srset := advanced_srset _ _
@[simp] theorem rendered_sec : (rendered N x q o).sec = (filt N x o.sec).2 := advanced_sec _ _
@[simp] theorem rendered_output : (rendered N x q o).output = o.output := advanced_output _ _

theorem getVoice_mixFilt (j : BitVec 3) : getVoice (mixFilt N x o).voice j = advanceVoice (getVoice o.voice j) :=
  getVoice_mapVoices _ _ _

end

/-- Outside the slot a wrap may retarget, a sample only advances the index. -/
theorem getVoice_rendered_other (x : α) (q : U32) (o : Oscillator α) {j : BitVec 3} (hj : j ≠ o.nextvoice + 1#3) :
    getVoice (rendered N x q o).voice j = advanceVoice (getVoice o.voice j) := by
  rw [rendered, getVoice_advanced_other q (mixFilt N x o) hj, getVoice_mixFilt]

/-- Without a carry ADV moves the phase only. -/
theorem rendered_of_no_carry (x : α) {q : U32} {o : Oscillator α} (h : o.phase.toNat + q.toNat < 2 ^ 32) :
    rendered N x q o = { mixFilt N x o with phase := o.phase + q } := by
  have hw : wraps o.phase (o.phase + q) = false := by
    rw [wraps_add_eq]
    exact decide_eq_false h.not_ge
  exact advanced_of_not_wraps hw

/-- What a TICK of the machine leaves: the rendered oscillator with one finite pattern more on its port. -/
theorem tick_ok_rendered {f : F32} {b c : Block F32} (h : tick params32 f b = .ok c) :
    ∃ x y, sectionsFinite num32 (filt num32 x b.osc.sec).2 = true ∧ Binary32.isFinite y = true ∧
      c = withOsc (emit (.pattern y) (rendered num32 x
        (quantizedIncrement num32 b.osc.sr b.osc.cfg.fscale (tickHz num32 b.osc.cfg f)) b.osc)) b := by
  obtain ⟨-, -, -, -, -, o, ho, rfl⟩ := tick_eq_ok.1 h
  obtain ⟨x, -, hfilt, -, -, -, hy, -, rfl⟩ := renderSample_eq_ok.1 ho
  exact ⟨x, _, hfilt, hy, rfl⟩

/-! ## The invariant, stage by stage -/

theorem polarityOne_neg {x : F32} (h : PolarityOne x) : PolarityOne (Binary32.neg x) := by
  obtain rfl | rfl := h
  · exact Or.inr (by decide)
  · exact Or.inl (by decide)

/-- The freeze test keeps the index in bounds (42_playback_mixer.md R143). -/
theorem voiceInv_advanceVoice {v : Voice F32} (h : VoiceInv v) : VoiceInv (advanceVoice v) where
  idx_le := by
    have := h.idx_le
    rw [toNat_advanceVoice_idx]
    split <;> omega
  frac_finite := by rw [advanceVoice_frac]; exact h.frac_finite
  amp_polarity := by rw [advanceVoice_amp]; exact h.amp_polarity

/-- A wrap by a nonzero multiple of 64 retargets inside the first input sample (41_phase_accumulator.md R127). -/
theorem retargetIdx_le {p q : U32} (hq : q.toNat % 64 = 0) (hw : 2 ^ 32 ≤ p.toNat + q.toNat) :
    (retargetIdx (p + q) q).toNat ≤ 63 := by
  have hp := p.isLt
  have hsum : (p + q).toNat < 64 * (q.toNat / 64) := by
    rw [BitVec.toNat_add]
    omega
  have hdiv : (p + q).toNat / (q.toNat / 64) < 64 := Nat.div_lt_of_lt_mul (by rwa [Nat.mul_comm])
  rw [retargetIdx, BitVec.toNat_ofNat]
  exact (Nat.mod_le _ _).trans (Nat.le_of_lt_succ hdiv)

theorem isFinite_retargetFrac (p : U32) {q : U32} (hq : 64 ≤ q.toNat) :
    Binary32.isFinite (retargetFrac num32 p q) = true := by
  have hlt := q.isLt
  have hd : decimatedIncrement q = q.toNat / 64 := rfl
  have hd1 : 1 ≤ decimatedIncrement q := by omega
  have hd2 : decimatedIncrement q < 2 ^ 32 := by omega
  exact Binary32.isFinite_div_ofNat ((Nat.mod_lt _ hd1).trans hd2) hd1 hd2

/-- ADV keeps the invariant for every increment on the grid of 64 (10_state.md R30 I1, I3, I5). -/
theorem oscInv_advanced {o : Oscillator F32} (h : OscInv o) {q : U32} (hq : q.toNat % 64 = 0) :
    OscInv (advanced num32 q o) where
  phase_grid := by
    have := h.phase_grid
    rw [advanced_phase, BitVec.toNat_add]
    omega
  polscale_one := by
    cases hw : wraps o.phase (o.phase + q)
    · rw [advanced_of_not_wraps hw]
      exact h.polscale_one
    · rw [advanced_of_wraps hw, retarget_polscale]
      split
      · exact polarityOne_neg h.polscale_one
      · exact h.polscale_one
  voices := by
    rw [forall_mem_voices]
    intro j
    have hold := (forall_mem_voices _ _).1 h.voices j
    cases hw : wraps o.phase (o.phase + q)
    · rw [advanced_of_not_wraps hw]
      exact hold
    by_cases hj : j = o.nextvoice + 1#3
    · have hcarry : 2 ^ 32 ≤ o.phase.toNat + q.toNat := by simpa [wraps_add_eq] using hw
      have hq64 : 64 ≤ q.toNat := by
        have := o.phase.isLt
        omega
      rw [hj, getVoice_advanced_same hw]
      exact ⟨(retargetIdx_le hq hcarry).trans (by decide), isFinite_retargetFrac _ hq64, Or.inr h.polscale_one⟩
    · rw [getVoice_advanced_other q o hj]
      exact hold
  filter := by rw [advanced_sec]; exact h.filter
  rate := by rw [advanced_srset, advanced_sr]; exact h.rate
  outputs := by rw [advanced_output]; exact h.outputs

/-- MIX and a FILT that writes finite values keep the invariant. -/
theorem oscInv_mixFilt {o : Oscillator F32} (h : OscInv o) {x : F32}
    (hfin : sectionsFinite num32 (filt num32 x o.sec).2 = true) : OscInv (mixFilt num32 x o) :=
  { h with
    voices := by
      rw [forall_mem_voices]
      intro j
      rw [getVoice_mixFilt]
      exact voiceInv_advanceVoice ((forall_mem_voices _ _).1 h.voices j)
    filter := by
      rw [forall_mem_sections]
      intro k hk
      have htgt := ((forall_mem_sections _ _).1 h.filter k hk).tgt_finite
      exact ⟨by rwa [mixFilt, getElem_filt_tgt], sectionsFinite_eq_true.1 hfin k hk⟩ }

theorem oscInv_emit {o : Oscillator F32} (h : OscInv o) {y : F32} (hy : Binary32.isFinite y = true) :
    OscInv (emit (.pattern y) o) :=
  { h with
    outputs := by
      intro z hz
      rw [emit_output, List.mem_append, List.mem_singleton] at hz
      obtain hz | rfl := hz
      · exact h.outputs z hz
      · exact ⟨y, rfl, hy⟩ }

theorem oscInv_putTargets {o : Oscillator F32} (h : OscInv o) {t : Vector (Coeffs F32) 3}
    (ht : ∀ (k : Nat) (hk : k < 3), coeffsFinite num32 t[k] = true) :
    OscInv { o with sec := putTargets t o.sec } :=
  { h with
    filter := by
      rw [forall_mem_sections]
      intro k hk
      rw [getElem_putTargets]
      exact ⟨ht k hk, ((forall_mem_sections _ _).1 h.filter k hk).written_finite⟩ }

theorem oscInv_resetOsc {o : Oscillator F32} (h : OscInv o) : OscInv (resetOsc num32 o) := by
  rw [resetOsc_num32]
  exact oscInv_reset o.cfg h.outputs

/-! ## The invariant, command by command -/

theorem exec_eq_next {i : Instr} {s t : State} :
    exec i s = .next t ↔ ∃ c, command params32 i s.toBlock = .ok c ∧ t = { s with toBlock := c } := by
  rw [exec_eq_command, onBlock_eq_next]

/-- The first BUILD fills the store; nothing else writes it (40_kernel_build.md R101). -/
theorem command_kernel {i : Instr} {b c : Block α} (h : command P i b = .ok c) :
    c.kernel = b.kernel ∨ b.kernel.built = false ∧ c.kernel = builtStore P := by
  obtain ⟨-, hb, rfl⟩ | ⟨-, -, rfl⟩ | ⟨-, o, rfl, -⟩ := command_ok_cases h
  · exact Or.inr ⟨hb, withKernel_kernel b _⟩
  · exact Or.inl rfl
  · exact Or.inl rfl

/-- A built store stays as it is (10_state.md R30 I6). -/
theorem command_kernel_of_built {i : Instr} {b c : Block α} (h : command P i b = .ok c) (hb : b.kernel.built = true) :
    c.kernel = b.kernel := by
  obtain heq | ⟨hn, -⟩ := command_kernel h
  · exact heq
  · rw [hb] at hn
    cases hn

theorem build_ok_osc {b c : Block α} (h : build P b = .ok c) : c.osc = b.osc := by
  unfold build at h
  split at h
  · cases h
    rfl
  · cases h
    exact withKernel_osc b _

theorem kernelInv_command {i : Instr} {b c : Block F32} (hb : KernelInv b.kernel)
    (h : command params32 i b = .ok c) : KernelInv c.kernel := by
  obtain heq | ⟨-, heq⟩ := command_kernel h <;> rw [heq]
  · exact hb
  · exact kernelInv_builtStore

theorem oscInv_command {i : Instr} {b c : Block F32} (hb : OscInv b.osc) (h : command params32 i b = .ok c) :
    OscInv c.osc := by
  cases i with
  | build =>
    rw [build_ok_osc h]
    exact hb
  | setsr sr =>
    obtain ⟨-, hfin, hpos, rfl⟩ := setsr_eq_ok.1 h
    exact { hb with rate := fun _ => ⟨hfin, hpos⟩ }
  | setalt v =>
    cases h
    exact { hb with }
  | setphase p =>
    cases h
    exact { hb with phase_grid := toNat_and_mask_mod p }
  | design f0 =>
    obtain ⟨-, -, -, t, ht, rfl⟩ := design_eq_ok.1 h
    have hfin := coeffsFinite_of_targets ht
    rw [params32_toNum] at hfin
    exact oscInv_putTargets hb hfin
  | tick f =>
    obtain ⟨x, y, hfilt, hy, rfl⟩ := tick_ok_rendered h
    exact oscInv_emit (oscInv_advanced (oscInv_mixFilt hb hfilt) (toNat_and_mask_mod _)) hy

/-! ## Steps -/

/-- What one item of the input stream does to the block when the machine answers a next state. -/
def InputEffect : Input → Block F32 → Block F32 → Prop
  | .command w, b, c => ∃ i, decode w = .ok i ∧ command params32 i b = .ok c
  | .select n, b, c => choosePort n b = .ok c
  | .oscReset, b, c => c = oscReset num32 b
  | .globalReset, b, c => c = globalReset num32 b

/-- Everything a step that answers can have done: nothing, with nothing sent, or the effect of the first item. -/
theorem step_next_cases {s t : State} (h : step s = .next t) :
    (s.inputs = [] ∧ t = s) ∨ ∃ a, s.inputs = a :: t.inputs ∧ InputEffect a s.toBlock t.toBlock := by
  have hlegal : legalTheta s.theta = true := by
    by_contra hc
    rw [step_of_illegal (by simpa using hc)] at h
    cases h
  rw [step_of_legal hlegal] at h
  unfold takeInput at h
  split at h
  case h_1 hin =>
    cases h
    exact Or.inl ⟨hin, rfl⟩
  case h_2 w rest hin =>
    unfold runWord at h
    split at h
    · rename_i i hi
      obtain ⟨c, hc, rfl⟩ := exec_eq_next.1 h
      exact Or.inr ⟨_, hin, i, hi, hc⟩
    · cases h
  case h_3 n rest hin =>
    obtain ⟨o, ho, rfl⟩ := selectPort_eq_next.1 h
    exact Or.inr ⟨_, hin, choosePort_eq_ok.2 ⟨o, ho, rfl⟩⟩
  case h_4 rest hin =>
    cases h
    exact Or.inr ⟨_, hin, rfl⟩
  case h_5 rest hin =>
    cases h
    exact Or.inr ⟨_, hin, rfl⟩

/-- The invariant of the machine as a property of its block. -/
structure BlockInv (b : Block F32) : Prop where
  kernel : KernelInv b.kernel
  osc : OscInv b.osc
  bank : ∀ o ∈ b.bank, OscInv o

theorem inv_iff_blockInv {s : State} : Inv s ↔ BlockInv s.toBlock :=
  ⟨fun h => ⟨h.kernel, h.osc, h.bank⟩, fun h => ⟨h.kernel, h.osc, h.bank⟩⟩

theorem blockInv_choosePort {n : Nat} {b c : Block F32} (hb : BlockInv b) (h : choosePort n b = .ok c) :
    BlockInv c := by
  obtain ⟨o, ho, rfl⟩ := choosePort_eq_ok.1 h
  refine ⟨hb.kernel, hb.bank o (List.mem_of_getElem? ho), fun u hu => ?_⟩
  obtain hu | rfl := List.mem_or_eq_of_mem_set hu
  · exact hb.bank u hu
  · exact hb.osc

theorem blockInv_oscReset {b : Block F32} (hb : BlockInv b) : BlockInv (oscReset num32 b) :=
  { hb with osc := oscInv_resetOsc hb.osc }

theorem blockInv_globalReset {b : Block F32} (hb : BlockInv b) : BlockInv (globalReset num32 b) where
  kernel := kernelInv_reset
  osc := oscInv_resetOsc hb.osc
  bank := by
    rw [globalReset_bank, List.forall_mem_map]
    exact fun o ho => oscInv_resetOsc (hb.bank o ho)

theorem blockInv_command {i : Instr} {b c : Block F32} (hb : BlockInv b) (h : command params32 i b = .ok c) :
    BlockInv c where
  kernel := kernelInv_command hb.kernel h
  osc := oscInv_command hb.osc h
  bank := by
    rw [(command_frame h).2]
    exact hb.bank

theorem blockInv_inputEffect {a : Input} {b c : Block F32} (hb : BlockInv b) (h : InputEffect a b c) :
    BlockInv c := by
  cases a with
  | command w =>
    obtain ⟨i, -, hc⟩ := h
    exact blockInv_command hb hc
  | select n => exact blockInv_choosePort hb h
  | oscReset =>
    obtain rfl := h
    exact blockInv_oscReset hb
  | globalReset =>
    obtain rfl := h
    exact blockInv_globalReset hb

/-- Settles O12: an idle step leaves the state as it is, and every input item keeps the invariant of the block. -/
theorem invariantKeptByStep : Obligations.InvariantKeptByStep := by
  intro s t hs h
  obtain ⟨-, rfl⟩ | ⟨a, -, ha⟩ := step_next_cases h
  · exact hs
  · exact inv_iff_blockInv.2 (blockInv_inputEffect (inv_iff_blockInv.1 hs) ha)

/-! ## What commands leave unchanged -/

/-- No command changes the construction parameters (00_scope.md R10) or clears `SRSET` (10_state.md R30 I6). -/
theorem command_cfg_srset {i : Instr} {b c : Block F32} (h : command params32 i b = .ok c) :
    c.osc.cfg = b.osc.cfg ∧ (b.osc.srset = true → c.osc.srset = true) := by
  cases i with
  | build =>
    rw [build_ok_osc h]
    exact ⟨rfl, id⟩
  | setsr sr =>
    obtain ⟨-, -, -, rfl⟩ := setsr_eq_ok.1 h
    exact ⟨rfl, fun _ => rfl⟩
  | setalt v =>
    cases h
    exact ⟨rfl, id⟩
  | setphase p =>
    cases h
    exact ⟨rfl, id⟩
  | design f0 =>
    obtain ⟨-, -, -, t, -, rfl⟩ := design_eq_ok.1 h
    exact ⟨rfl, id⟩
  | tick f =>
    obtain ⟨x, y, -, -, rfl⟩ := tick_ok_rendered h
    exact ⟨rendered_cfg _ _ _, (rendered_srset _ _ _).trans⟩

/-- Settles O13: only the first BUILD writes the store, and no command clears `SRSET`. -/
theorem builtStoreAndRateFlagStay : Obligations.BuiltStoreAndRateFlagStay := by
  intro i s t h
  obtain ⟨c, hc, rfl⟩ := exec_eq_next.1 h
  exact ⟨command_kernel_of_built hc, (command_cfg_srset hc).2⟩

/-- Settles O28: the next state of each command shows what it writes; a TICK's is the rendered oscillator, whose voices
only advance where no wrap retargets them. -/
theorem commandWriteSets : Obligations.CommandWriteSets := by
  intro i s t h
  obtain ⟨c, hc, rfl⟩ := exec_eq_next.1 h
  obtain ⟨htheta, hbank⟩ := command_frame hc
  obtain ⟨hcfg, -⟩ := command_cfg_srset hc
  refine ⟨htheta, hbank, rfl, hcfg, ?_⟩
  cases i with
  | build => exact ⟨build_ok_osc hc, command_kernel_of_built hc⟩
  | setsr sr =>
    obtain ⟨-, -, -, rfl⟩ := setsr_eq_ok.1 hc
    exact ⟨rfl, rfl⟩
  | setalt v =>
    cases hc
    exact ⟨rfl, rfl⟩
  | setphase p =>
    cases hc
    exact ⟨rfl, rfl⟩
  | design f0 =>
    obtain ⟨-, -, -, u, -, rfl⟩ := design_eq_ok.1 hc
    refine ⟨rfl, rfl, fun k hk => ?_⟩
    rw [withOsc_osc, getElem_putTargets]
  | tick f =>
    obtain ⟨x, y, -, hy, rfl⟩ := tick_ok_rendered hc
    simp only [withOsc_osc, emit_sec, emit_output, emit_voice, emit_nextvoice, emit_polscale, rendered_sec,
      rendered_output]
    refine ⟨fun _ => ⟨rfl, rfl⟩, rfl, rendered_sr _ _ _, rendered_alt _ _ _, rendered_srset _ _ _,
      getElem_filt_tgt x s.osc.sec, ⟨y, hy, rfl⟩, fun j hj => ?_, fun hsum => ?_,
      advanced_polscale_of_not_alt (o := mixFilt num32 x s.osc) _⟩
    · rw [getVoice_rendered_other _ _ _ hj]
      exact advanceVoice_eq _
    · rw [rendered_of_no_carry x hsum]
      refine ⟨rfl, rfl, fun j => ?_⟩
      rw [getVoice_mixFilt]
      exact advanceVoice_eq _

end Sys2Proof.Machine
end

section
/-! The kernel store under the oscillators (20_memory.md): the reads of a TICK stay in the table or fault (section 3, R54),
and with the store built the commands of two ports commute (section 7, R58). -/

namespace Sys2Proof.Machine

open Sys2Proof.Safety

variable {α : Type} {N : Num α} {P : Params α}

/-! ## Table reads -/

theorem readImpulse_of_le (m : Memory α) {i : Nat} (h : 4096 ≤ i) : readImpulse m i = .error .oob := if_pos h

theorem readImpulse_of_full {m : Memory F32} (hm : SpaceFull m) {i : Nat} (hi : i < 4096) :
    ∃ a, readImpulse m i = .ok a := by
  obtain ⟨v, hv, -⟩ := hm i hi
  obtain ⟨hle, -⟩ | ⟨-, a, -, ha⟩ | ⟨-, hnone, -⟩ := readImpulse_cases m i
  · omega
  · exact ⟨a, ha⟩
  · rw [hv] at hnone
    cases hnone

/-- The second read of a voice at the last index is out of bounds; the first is not, and has a value. -/
theorem voiceReads_of_last {m : Memory F32} (hm : SpaceFull m) {v : Voice F32} (hv : v.idx = 4095#12) :
    voiceReads m v = .error .oob := by
  have hidx : v.idx.toNat = 4095 := congrArg BitVec.toNat hv
  obtain ⟨a, ha⟩ := readImpulse_of_full hm (i := v.idx.toNat) (by omega)
  have hb := readImpulse_of_le m (i := v.idx.toNat + 1) (by omega)
  simp only [voiceReads, ha, hb]

/-! ## The mixer sum -/

/-- In an oscillator that meets the invariant, over a full table, the mixer sum has a value. -/
theorem sumVoices_ok_of_oscInv {m : Memory F32} (hm : SpaceFull m) {o : Oscillator F32} (ho : OscInv o) :
    ∃ x, sumVoices num32 m o.voice.toList (num32.ofNat 0) = .ok x :=
  sumVoices_ok (fun v hv => voiceReads_ok hm (ho.voices v hv).idx_le) _

/-- Where every voice's reads succeed or fault with `e`, and some voice's fault, the mixer sum is the fault `e`. -/
theorem sumVoices_error {m : Memory α} {e : Fault} {vs : List (Voice α)}
    (hall : ∀ v ∈ vs, (∃ ab, voiceReads m v = .ok ab) ∨ voiceReads m v = .error e)
    (hex : ∃ v ∈ vs, voiceReads m v = .error e) (x : α) : sumVoices N m vs x = .error e := by
  induction vs generalizing x with
  | nil =>
    obtain ⟨v, hv, -⟩ := hex
    cases hv
  | cons v vs ih =>
    obtain ⟨hv, hvs⟩ := List.forall_mem_cons.1 hall
    obtain ⟨ab, hab⟩ | hverr := hv
    · have hrest : ∃ w ∈ vs, voiceReads m w = .error e := by
        obtain hv | hrest := (List.exists_mem_cons_iff _ _ _).1 hex
        · rw [hab] at hv
          cases hv
        · exact hrest
      simp only [sumVoices, addVoice, hab]
      exact ih hvs hrest _
    · simp only [sumVoices, addVoice, hverr]

/-- A voice at the last index faults the mixer sum of a full table, wherever the other voices stand. -/
theorem sumVoices_oob {m : Memory F32} (hm : SpaceFull m) {vs : List (Voice F32)} (h : ∃ v ∈ vs, v.idx = 4095#12)
    (x : F32) : sumVoices num32 m vs x = .error .oob := by
  refine sumVoices_error (fun v _ => ?_) (h.imp fun v hv => ⟨hv.1, voiceReads_of_last hm hv.2⟩) x
  by_cases hlast : v.idx = 4095#12
  · exact Or.inr (voiceReads_of_last hm hlast)
  · have hne : v.idx.toNat ≠ 4095 := fun hc => hlast (BitVec.eq_of_toNat_eq hc)
    have hlt := v.idx.isLt
    exact Or.inl (voiceReads_ok hm (by omega))

/-! ## The faults of a TICK -/

theorem filtOsc_error {x : α} {o : Oscillator α} {e : Fault} (h : filtOsc N x o = .error e) : e = .nonFinite := by
  unfold filtOsc at h
  dsimp only at h
  split at h <;> cases h
  rfl

theorem portValue_error {v : α} {e : Fault} (h : portValue N v = .error e) : e = .nonFinite := by
  unfold portValue at h
  split at h <;> cases h
  rfl

/-- MIX comes first in a sample: its fault is the sample's (44_render_and_control.md R184). -/
theorem renderSample_of_sumVoices_error {m : Memory α} {o : Oscillator α} {e : Fault} (hz : α)
    (h : sumVoices N m o.voice.toList (N.ofNat 0) = .error e) : renderSample N m hz o = .error e := by
  simp only [renderSample, mix_eq_error.2 h]

/-- A sample faults by its mixer sum, or with a value that is not finite. -/
theorem renderSample_error {m : Memory α} {hz : α} {o : Oscillator α} {e : Fault}
    (h : renderSample N m hz o = .error e) :
    sumVoices N m o.voice.toList (N.ofNat 0) = .error e ∨ e = .nonFinite := by
  unfold renderSample at h
  split at h
  case h_1 hmix =>
    cases h
    exact Or.inl (mix_eq_error.1 hmix)
  right
  split at h
  case h_1 hfilt =>
    cases h
    exact filtOsc_error hfilt
  split at h
  case h_1 hadv =>
    cases h
    exact adv_error hadv
  split at h
  case h_1 hport =>
    cases h
    exact portValue_error hport
  cases h

/-- The operand of a TICK, and the frequency it is taken as, are real numbers (44_render_and_control.md R186). -/
def TickOperandFinite (P : Params α) (cfg : OscParams) (f : F32) : Prop :=
  Binary32.isFinite f = true ∧ P.isFinite (P.ofPattern f) = true ∧
    P.isFinite (tickHz P.toNum cfg (P.ofPattern f)) = true

/-- When TICK faults, and with what: its preconditions in the order of 60_exceptions.md R203, then the rendering. -/
theorem tick_eq_error {f : F32} {b : Block α} {e : Fault} :
    tick P f b = .error e ↔
      (b.kernel.built = false ∧ e = .noKernel) ∨
      (b.kernel.built = true ∧ b.osc.srset = false ∧ e = .noSr) ∨
      (b.kernel.built = true ∧ b.osc.srset = true ∧ ¬ TickOperandFinite P b.osc.cfg f ∧ e = .nonFinite) ∨
      (b.kernel.built = true ∧ b.osc.srset = true ∧ TickOperandFinite P b.osc.cfg f ∧
        renderSample P.toNum b.kernel.impulse (tickHz P.toNum b.osc.cfg (P.ofPattern f)) b.osc = .error e) := by
  unfold tick realOperand finiteResult TickOperandFinite
  cases b.kernel.built
  · simpa using eq_comm
  cases b.osc.srset
  · simpa using eq_comm
  cases Binary32.isFinite f
  · simpa using eq_comm
  cases P.isFinite (P.ofPattern f)
  · simpa using eq_comm
  simp only [if_true]
  generalize tickHz P.toNum b.osc.cfg (P.ofPattern f) = hz
  cases P.isFinite hz
  · simpa using eq_comm
  simp only [if_true]
  cases renderSample P.toNum b.kernel.impulse hz b.osc <;> simp

theorem exec_eq_fault {i : Instr} {s : State} {e : Fault} :
    exec i s = .fault e ↔ command params32 i s.toBlock = .error e := by
  rw [exec_eq_command, onBlock_eq_fault]

/-- Settles O26: every voice's two reads have a value, so MIX has one, and what else can fault under `BUILT` and `SRSET`
is a value that is not finite. -/
theorem tableReadsStayInBounds : Obligations.TableReadsStayInBounds := by
  intro s hs hb
  obtain ⟨m, hm⟩ := sumVoices_ok_of_oscInv (hs.kernel.full hb).1 hs.osc
  refine ⟨⟨m, hm⟩, fun f e hr h => ?_⟩
  obtain ⟨hnb, -⟩ | ⟨-, hnr, -⟩ | ⟨-, -, -, he⟩ | ⟨-, -, -, hrender⟩ := tick_eq_error.1 (exec_eq_fault.1 h)
  · simp [hb] at hnb
  · simp [hr] at hnr
  · exact he
  · obtain hsum | he := renderSample_error hrender
    · cases hm.symm.trans hsum
    · exact he

/-- Settles O27: the mixer sum, which comes first, is the fault of the voice whose second read leaves the table. -/
theorem tableIndexOutOfRangeFaults : Obligations.TableIndexOutOfRangeFaults := by
  intro f s hb hr hf hhz hfull hlast
  have hrender := renderSample_of_sumVoices_error (tickHz num32 s.osc.cfg f) (sumVoices_oob hfull hlast _)
  exact exec_eq_fault.2 (tick_eq_error.2 (Or.inr (Or.inr (Or.inr ⟨hb, hr, ⟨hf, hf, hhz⟩, hrender⟩))))

/-! ## Commands of two ports -/

/-- With the store built, a command that answers replaces the current oscillator, by one that depends on the store, the
prototype angles and that oscillator only: BUILD, which finds the store built, by itself. -/
theorem command_ok_of_built {i : Instr} {b c : Block α} (h : command P i b = .ok c) (hb : b.kernel.built = true) :
    ∃ o, c = withOsc o b ∧ ∀ u : Block α, u.kernel = b.kernel → u.theta = b.theta → u.osc = b.osc →
      command P i u = .ok (withOsc o u) := by
  obtain ⟨-, hnb, -⟩ | ⟨rfl, -, rfl⟩ | ⟨-, hreplace⟩ := command_ok_cases h
  · rw [hb] at hnb
    cases hnb
  · refine ⟨c.osc, rfl, fun u hk _ ho => ?_⟩
    have hbuild : build P u = .ok u := if_pos (hk ▸ hb)
    rw [← ho]
    exact hbuild
  · exact hreplace

/-- The same of the machine: with the store built, what a command makes of its oscillator it makes of it anywhere. -/
theorem exec_next_of_built {i : Instr} {s t : State} (h : exec i s = .next t) (hb : s.kernel.built = true) :
    ∃ o, t = { s with osc := o } ∧ ∀ u : State, u.kernel = s.kernel → u.theta = s.theta → u.osc = s.osc →
      exec i u = .next { u with osc := o } := by
  obtain ⟨c, hc, rfl⟩ := exec_eq_next.1 h
  obtain ⟨o, rfl, hany⟩ := command_ok_of_built hc hb
  exact ⟨o, rfl, fun u hk ht ho => exec_eq_next.2 ⟨_, hany u.toBlock hk ht ho, rfl⟩⟩

/-- Choosing a port and then the same port again puts the two oscillators back. -/
theorem selectPort_selected {n : Nat} {s : State} {p : Oscillator F32} (hp : s.bank[n]? = some p)
    (q o : Oscillator F32) :
    selectPort n { s with osc := q, bank := s.bank.set n o } = .next { s with osc := o, bank := s.bank.set n q } := by
  obtain ⟨hn, -⟩ := List.getElem?_eq_some_iff.1 hp
  exact selectPort_eq_next.2 ⟨o, by simp [hn], by simp⟩

/-- Settles O57: each command makes of its own oscillator what it makes of it in the other order, and the choice of the
port puts both back in place. -/
theorem oscillatorsIndependent : Obligations.OscillatorsIndependent := by
  intro i j n s s1 s2 s3 s4 hb h1 h2 h3 h4
  obtain ⟨o, rfl, hi⟩ := exec_next_of_built h1 hb
  obtain ⟨p, hp, rfl⟩ := selectPort_eq_next.1 h2
  obtain ⟨q, rfl, hj⟩ := exec_next_of_built h3 hb
  rw [selectPort_selected hp] at h4
  cases h4
  exact ⟨_, _, _, selectPort_eq_next.2 ⟨p, hp, rfl⟩, hj _ rfl rfl rfl, selectPort_selected hp q s.osc, hi _ rfl rfl rfl⟩

end Sys2Proof.Machine
end

section
/-! The decoder (30_encoding.md): one equation per opcode, the legal words as a condition on the two fields of a word,
and from these the round trips and the match and mask table. -/

namespace Sys2Proof

/-! ## The fields of a word, as numbers -/

@[simp] theorem toNat_opField (w : CommandWord) : (opField w).toNat = w.toNat / 2 ^ 32 := by
  have hw := w.isLt
  rw [opField, BitVec.extractLsb'_toNat, Nat.shiftRight_eq_div_pow]
  omega

@[simp] theorem toNat_argField (w : CommandWord) : (argField w).toNat = w.toNat % 2 ^ 32 := by
  rw [argField, BitVec.extractLsb'_toNat, Nat.shiftRight_zero]

theorem argField_eq_ofNat (w : CommandWord) : argField w = BitVec.ofNat 32 (w.toNat % 2 ^ 32) := by
  rw [← toNat_argField, BitVec.ofNat_toNat, BitVec.setWidth_eq]

theorem opField_eq_ofNat_iff (w : CommandWord) {n : Nat} (hn : n < 256) :
    opField w = BitVec.ofNat 8 n ↔ w.toNat / 2 ^ 32 = n := by
  rw [← BitVec.toNat_inj, toNat_opField, BitVec.toNat_ofNat, Nat.mod_eq_of_lt hn]

theorem argField_eq_zero_iff (w : CommandWord) : argField w = 0#32 ↔ w.toNat % 2 ^ 32 = 0 := by
  rw [← BitVec.toNat_inj, toNat_argField, BitVec.toNat_ofNat, Nat.zero_mod]

/-- A word is its two fields (30_encoding.md R70). -/
theorem commandWord_fields (w : CommandWord) : commandWord (opField w) (argField w) = w := by
  apply BitVec.eq_of_toNat_eq
  have harg := (argField w).isLt
  rw [commandWord, BitVec.toNat_append, Nat.shiftLeft_eq, Nat.mul_comm, ← Nat.two_pow_add_eq_or_of_lt harg,
    toNat_opField, toNat_argField, Nat.div_add_mod]

theorem commandWord_argField {w : CommandWord} {op : BitVec 8} (hop : opField w = op) :
    commandWord op (argField w) = w := by
  rw [← hop, commandWord_fields]

/-- All bits of an operand above bit 0 are clear exactly when it is 0 or 1. -/
theorem highBits_eq_zero_iff (arg : BitVec 32) : arg.extractLsb' 1 31 = 0#31 ↔ arg.toNat / 2 = 0 := by
  have harg := arg.isLt
  rw [← BitVec.toNat_inj, BitVec.extractLsb'_toNat, Nat.shiftRight_eq_div_pow, BitVec.toNat_ofNat]
  omega

theorem lowBit_eq (arg : BitVec 32) : arg.getLsbD 0 = decide (arg.toNat % 2 = 1) := by
  rw [BitVec.getLsbD, Nat.testBit_zero]

/-- An operand with no bit above bit 0 is that bit (30_encoding.md R71). -/
theorem ite_lowBit_eq {arg : BitVec 32} (h : arg.extractLsb' 1 31 = 0#31) :
    (if arg.getLsbD 0 then 1#32 else 0#32) = arg := by
  rw [highBits_eq_zero_iff] at h
  rw [lowBit_eq]
  apply BitVec.eq_of_toNat_eq
  by_cases hbit : arg.toNat % 2 = 1
  · rw [if_pos (decide_eq_true hbit), BitVec.toNat_ofNat]
    omega
  · rw [if_neg (by simpa using hbit), BitVec.toNat_ofNat]
    omega

/-! ## The decoder, opcode by opcode (30_encoding.md R79) -/

section
variable {w : CommandWord}

theorem decode_of_op_build (hop : opField w = 0x01#8) :
    decode w = if argField w = 0#32 then .ok .build else .error .buildOperand := by
  simp [decode, hop]

theorem decode_of_op_setsr (hop : opField w = 0x02#8) : decode w = .ok (.setsr (argField w)) := by
  simp [decode, hop]

theorem decode_of_op_setalt (hop : opField w = 0x03#8) :
    decode w = if (argField w).extractLsb' 1 31 = 0#31 then .ok (.setalt ((argField w).getLsbD 0))
      else .error .setaltOperand := by
  simp [decode, hop]

theorem decode_of_op_setphase (hop : opField w = 0x04#8) : decode w = .ok (.setphase (argField w)) := by
  simp [decode, hop]

theorem decode_of_op_design (hop : opField w = 0x05#8) : decode w = .ok (.design (argField w)) := by
  simp [decode, hop]

theorem decode_of_op_tick (hop : opField w = 0x06#8) : decode w = .ok (.tick (argField w)) := by
  simp [decode, hop]

theorem decode_of_op_reserved (h1 : opField w ≠ 0x01#8) (h2 : opField w ≠ 0x02#8) (h3 : opField w ≠ 0x03#8)
    (h4 : opField w ≠ 0x04#8) (h5 : opField w ≠ 0x05#8) (h6 : opField w ≠ 0x06#8) :
    decode w = .error .reservedOpcode := by
  simp [decode, h1, h2, h3, h4, h5, h6]

end

/-! ## Round trips -/

theorem decode_encode (i : Instr) : decode (encode i) = .ok i := by
  cases i with
  | build => rfl
  | setsr sr =>
    obtain ⟨-, -, hop, harg⟩ := Laws.FieldsOfEncoding.setsr sr
    rw [decode_of_op_setsr hop, harg]
  | setalt b => cases b <;> rfl
  | setphase p =>
    obtain ⟨-, -, hop, harg⟩ := Laws.FieldsOfEncoding.setphase p
    rw [decode_of_op_setphase hop, harg]
  | design f0 =>
    obtain ⟨-, -, hop, harg⟩ := Laws.FieldsOfEncoding.design f0
    rw [decode_of_op_design hop, harg]
  | tick f =>
    obtain ⟨-, -, hop, harg⟩ := Laws.FieldsOfEncoding.tick f
    rw [decode_of_op_tick hop, harg]

theorem encode_of_decode {w : CommandWord} {i : Instr} (h : decode w = .ok i) : encode i = w := by
  by_cases h1 : opField w = 0x01#8
  · rw [decode_of_op_build h1] at h
    split at h <;> cases h
    rename_i harg
    rw [← commandWord_argField h1, harg, encode]
  by_cases h2 : opField w = 0x02#8
  · rw [decode_of_op_setsr h2] at h
    cases h
    exact commandWord_argField h2
  by_cases h3 : opField w = 0x03#8
  · rw [decode_of_op_setalt h3] at h
    split at h <;> cases h
    rename_i harg
    rw [encode, ite_lowBit_eq harg, commandWord_argField h3]
  by_cases h4 : opField w = 0x04#8
  · rw [decode_of_op_setphase h4] at h
    cases h
    exact commandWord_argField h4
  by_cases h5 : opField w = 0x05#8
  · rw [decode_of_op_design h5] at h
    cases h
    exact commandWord_argField h5
  by_cases h6 : opField w = 0x06#8
  · rw [decode_of_op_tick h6] at h
    cases h
    exact commandWord_argField h6
  rw [decode_of_op_reserved h1 h2 h3 h4 h5 h6] at h
  cases h

/-! ## Legal words (30_encoding.md R72, R74) -/

/-- The opcode and operand of a legal word, as numbers: the complement of the list of 30_encoding.md R74. -/
def LegalFields (op arg : Nat) : Prop :=
  op = 1 ∧ arg = 0 ∨ op = 2 ∨ op = 3 ∧ arg / 2 = 0 ∨ op = 4 ∨ op = 5 ∨ op = 6

theorem legalWord_encode (i : Instr) : legalWord (encode i) = true := by
  cases i with
  | build => exact Laws.FieldsOfEncoding.build.2.1
  | setsr sr => exact (Laws.FieldsOfEncoding.setsr sr).2.1
  | setalt b => exact (Laws.FieldsOfEncoding.setalt b).2.1
  | setphase p => exact (Laws.FieldsOfEncoding.setphase p).2.1
  | design f0 => exact (Laws.FieldsOfEncoding.design f0).2.1
  | tick f => exact (Laws.FieldsOfEncoding.tick f).2.1

theorem legalWord_eq_true_iff (w : CommandWord) :
    legalWord w = true ↔ ∃ p ∈ encodingPatterns, w &&& p.2 = p.1 := by
  simp only [legalWord, List.any_eq_true, beq_iff_eq]

theorem opField_and (v w : CommandWord) : opField (v &&& w) = opField v &&& opField w := BitVec.extractLsb'_and

theorem argField_and (v w : CommandWord) : argField (v &&& w) = argField v &&& argField w := BitVec.extractLsb'_and

/-- Every mask covers the whole opcode, so a word that matches a pattern has the pattern's opcode. -/
theorem opField_of_match {p : CommandWord × CommandWord} (hp : p ∈ encodingPatterns) {w : CommandWord}
    (h : w &&& p.2 = p.1) : opField w = opField p.1 := by
  have hmask : ∀ p ∈ encodingPatterns, opField p.2 = BitVec.allOnes 8 := by
    simp [encodingPatterns, opField]
  rw [← h, opField_and, hmask p hp, BitVec.and_allOnes]

theorem encodingPatterns_opField_ne : encodingPatterns.Pairwise fun p q => opField p.1 ≠ opField q.1 := by decide

/-- The operand mask of SETALT leaves all bits but bit 0 to be tested. -/
theorem div_two_eq_zero_of_and_mask {arg : BitVec 32} (h : arg &&& 0xFFFFFFFE#32 = 0#32) : arg.toNat / 2 = 0 := by
  have hbits := congrArg (BitVec.extractLsb' 1 31) h
  rw [BitVec.extractLsb'_and, show BitVec.extractLsb' 1 31 0xFFFFFFFE#32 = BitVec.allOnes 31 by simp,
    BitVec.and_allOnes] at hbits
  exact (highBits_eq_zero_iff arg).1 hbits

theorem legalFields_of_legalWord {w : CommandWord} (h : legalWord w = true) :
    LegalFields (w.toNat / 2 ^ 32) (w.toNat % 2 ^ 32) := by
  obtain ⟨p, hp, hmatch⟩ := (legalWord_eq_true_iff w).1 h
  have hop := congrArg BitVec.toNat (opField_of_match hp hmatch)
  have harg := congrArg argField hmatch
  rw [argField_and] at harg
  rw [toNat_opField] at hop
  unfold LegalFields
  simp only [encodingPatterns, List.mem_cons, List.not_mem_nil, or_false] at hp
  obtain rfl | rfl | rfl | rfl | rfl | rfl := hp
  · rw [show argField 0xFFFFFFFFFF#40 = BitVec.allOnes 32 from rfl, BitVec.and_allOnes] at harg
    exact Or.inl ⟨hop, (argField_eq_zero_iff w).1 harg⟩
  · exact Or.inr (Or.inl hop)
  · have harg' := div_two_eq_zero_of_and_mask harg
    rw [toNat_argField] at harg'
    exact Or.inr (Or.inr (Or.inl ⟨hop, harg'⟩))
  · exact Or.inr (Or.inr (Or.inr (Or.inl hop)))
  · exact Or.inr (Or.inr (Or.inr (Or.inr (Or.inl hop))))
  · exact Or.inr (Or.inr (Or.inr (Or.inr (Or.inr hop))))

theorem decode_of_legalFields {w : CommandWord} (h : LegalFields (w.toNat / 2 ^ 32) (w.toNat % 2 ^ 32)) :
    ∃ i, decode w = .ok i := by
  have op := fun {n : Nat} (hn : n < 256) => (opField_eq_ofNat_iff w hn).2
  obtain ⟨hop, harg⟩ | hop | ⟨hop, harg⟩ | hop | hop | hop := h
  · exact ⟨_, (decode_of_op_build (op (by decide) hop)).trans (if_pos ((argField_eq_zero_iff w).2 harg))⟩
  · exact ⟨_, decode_of_op_setsr (op (by decide) hop)⟩
  · rw [← toNat_argField, ← highBits_eq_zero_iff] at harg
    exact ⟨_, (decode_of_op_setalt (op (by decide) hop)).trans (if_pos harg)⟩
  · exact ⟨_, decode_of_op_setphase (op (by decide) hop)⟩
  · exact ⟨_, decode_of_op_design (op (by decide) hop)⟩
  · exact ⟨_, decode_of_op_tick (op (by decide) hop)⟩

theorem decode_isOk_iff_legalWord (w : CommandWord) : (∃ i, decode w = .ok i) ↔ legalWord w = true := by
  refine ⟨?_, fun h => decode_of_legalFields (legalFields_of_legalWord h)⟩
  rintro ⟨i, hi⟩
  rw [← encode_of_decode hi]
  exact legalWord_encode i

theorem decode_isOk_iff (w : CommandWord) :
    (∃ i, decode w = .ok i) ↔ LegalFields (w.toNat / 2 ^ 32) (w.toNat % 2 ^ 32) :=
  ⟨fun h => legalFields_of_legalWord ((decode_isOk_iff_legalWord w).1 h), decode_of_legalFields⟩

theorem decode_isError_iff (w : CommandWord) :
    (∃ e, decode w = .error e) ↔ ¬ LegalFields (w.toNat / 2 ^ 32) (w.toNat % 2 ^ 32) := by
  rw [← decode_isOk_iff]
  cases decode w <;> simp

/-- The decoder as the table of 30_encoding.md R79, over the numeric fields. -/
theorem decode_table (w : CommandWord) :
    let op := w.toNat / 2 ^ 32
    let arg := w.toNat % 2 ^ 32
    if op = 1 ∧ arg = 0 then decode w = .ok .build
    else if op = 2 then decode w = .ok (.setsr (BitVec.ofNat 32 arg))
    else if op = 3 ∧ arg / 2 = 0 then decode w = .ok (.setalt (decide (arg % 2 = 1)))
    else if op = 4 then decode w = .ok (.setphase (BitVec.ofNat 32 arg))
    else if op = 5 then decode w = .ok (.design (BitVec.ofNat 32 arg))
    else if op = 6 then decode w = .ok (.tick (BitVec.ofNat 32 arg))
    else ∃ e, decode w = .error e := by
  dsimp only
  have field := fun {n : Nat} (hn : n < 256) => (opField_eq_ofNat_iff w hn).2
  rw [← argField_eq_ofNat]
  split
  case isTrue h1 =>
    exact (decode_of_op_build (field (by decide) h1.1)).trans (if_pos ((argField_eq_zero_iff w).2 h1.2))
  split
  case isTrue h2 => exact decode_of_op_setsr (field (by decide) h2)
  split
  case isTrue h3 =>
    rw [← toNat_argField, ← highBits_eq_zero_iff] at h3
    rw [← toNat_argField, ← lowBit_eq]
    exact (decode_of_op_setalt (field (by decide) h3.1)).trans (if_pos h3.2)
  split
  case isTrue h4 => exact decode_of_op_setphase (field (by decide) h4)
  split
  case isTrue h5 => exact decode_of_op_design (field (by decide) h5)
  split
  case isTrue h6 => exact decode_of_op_tick (field (by decide) h6)
  rw [decode_isError_iff, LegalFields]
  tauto

/-- Settles O1: both round trips and the decoder's table, opcode by opcode. -/
theorem decodeAndEncodeAgree : Obligations.DecodeAndEncodeAgree :=
  ⟨fun i _ => decode_encode i, fun _ _ => encode_of_decode, decode_table⟩

/-- Settles O2: a word that decodes is its command's encoding, which is legal; and patterns differ in the opcode, which
every mask covers. -/
theorem legalWordsMatchOnePattern : Obligations.LegalWordsMatchOnePattern := by
  refine ⟨fun w => (decode_isOk_iff_legalWord w).symm, ?_⟩
  refine encodingPatterns_opField_ne.imp_of_mem fun {p q} hp hq hne w hwp hwq => hne ?_
  rw [← opField_of_match hp hwp, opField_of_match hq hwq]

end Sys2Proof
end

section
/-! Command words as the machine takes them (30_encoding.md R70, R74): the faults of each command, none of which is that of
an illegal word, and one step on a word. -/

namespace Sys2Proof.Machine

variable {α : Type} {N : Num α} {P : Params α}

/-! ## The faults of a command (60_exceptions.md R202) -/

theorem rateOperand_error {sr : F32} {e : Fault} (h : rateOperand N sr = .error e) : e = .nonFinite ∨ e = .badSr := by
  unfold rateOperand at h
  split at h
  case h_1 hop =>
    cases h
    exact Or.inl (realOperand_error hop)
  split at h <;> cases h
  exact Or.inr rfl

theorem setsr_error {sr : F32} {b : Block α} {e : Fault} (h : setsr P sr b = .error e) :
    e = .nonFinite ∨ e = .badSr := by
  unfold setsr at h
  split at h <;> cases h
  exact rateOperand_error ‹_›

theorem dividedCoeffs_error {c : Coeffs α} {e : Fault} (h : dividedCoeffs N c = .error e) : e = .nonFinite := by
  unfold dividedCoeffs at h
  split at h <;> cases h
  rfl

theorem dividedTargets_error {t : Vector (Coeffs α) 3} {e : Fault} (h : dividedTargets N t = .error e) :
    e = .nonFinite := by
  unfold dividedTargets at h
  split at h
  case h_1 h0 =>
    cases h
    exact dividedCoeffs_error h0
  split at h
  case h_1 h1 =>
    cases h
    exact dividedCoeffs_error h1
  split at h <;> cases h
  exact dividedCoeffs_error ‹_›

theorem designInNum_error {theta : Vector Angle 3} {mapped : Bool} {sr f0 : α} {e : Fault}
    (h : designInNum N theta mapped sr f0 = .error e) : e = .nonFinite := by
  unfold designInNum at h
  split at h
  · cases h
    rfl
  · exact dividedTargets_error h

theorem designReference_error {theta : Vector Angle 3} {mapped : Bool} {sr f0 : F32} {e : Fault}
    (h : designReference theta mapped sr f0 = .error e) : e = .nonFinite := by
  unfold designReference at h
  split at h
  · split at h <;> cases h
    exact designInNum_error ‹_›
  · cases h
    rfl

theorem finiteTargets_error {t : Vector (Coeffs α) 3} {e : Fault} (h : finiteTargets N t = .error e) :
    e = .nonFinite := by
  unfold finiteTargets at h
  split at h <;> cases h
  rfl

theorem design_params32_error {f0 : F32} {b : Block F32} {e : Fault} (h : design params32 f0 b = .error e) :
    e = .noSr ∨ e = .nonFinite := by
  unfold design at h
  split at h
  case isFalse =>
    cases h
    exact Or.inl rfl
  right
  split at h
  case h_1 hop =>
    cases h
    exact realOperand_error hop
  split at h <;> cases h
  rename_i htargets
  unfold targets at htargets
  split at htargets
  case h_1 hmap =>
    cases htargets
    exact designReference_error hmap
  case h_2 => exact finiteTargets_error htargets

theorem readImpulse_error {m : Memory α} {i : Nat} {e : Fault} (h : readImpulse m i = .error e) :
    e = .oob ∨ e = .noKernel := by
  obtain ⟨-, hr⟩ | ⟨-, v, -, hr⟩ | ⟨-, -, hr⟩ := readImpulse_cases m i <;> rw [hr] at h <;> cases h
  · exact Or.inl rfl
  · exact Or.inr rfl

theorem voiceReads_error {m : Memory α} {v : Voice α} {e : Fault} (h : voiceReads m v = .error e) :
    e = .oob ∨ e = .noKernel := by
  unfold voiceReads at h
  split at h
  case h_1 hfirst =>
    cases h
    exact readImpulse_error hfirst
  split at h <;> cases h
  exact readImpulse_error ‹_›

/-- The mixer faults by a table read only. -/
theorem sumVoices_error_cases {m : Memory α} {vs : List (Voice α)} {x : α} {e : Fault}
    (h : sumVoices N m vs x = .error e) : e = .oob ∨ e = .noKernel := by
  induction vs generalizing x with
  | nil => cases h
  | cons v vs ih =>
    cases hv : voiceReads m v with
    | error e' =>
      simp only [sumVoices, addVoice, hv] at h
      cases h
      exact voiceReads_error hv
    | ok ab =>
      simp only [sumVoices, addVoice, hv] at h
      exact ih h

theorem tick_error {f : F32} {b : Block α} {e : Fault} (h : tick P f b = .error e) :
    e = .noKernel ∨ e = .noSr ∨ e = .nonFinite ∨ e = .oob := by
  obtain ⟨-, he⟩ | ⟨-, -, he⟩ | ⟨-, -, -, he⟩ | ⟨-, -, -, hrender⟩ := tick_eq_error.1 h
  · exact Or.inl he
  · exact Or.inr (Or.inl he)
  · exact Or.inr (Or.inr (Or.inl he))
  · obtain hsum | he := renderSample_error hrender
    · obtain he | he := sumVoices_error_cases hsum
      · exact Or.inr (Or.inr (Or.inr he))
      · exact Or.inl he
    · exact Or.inr (Or.inr (Or.inl he))

theorem build_ne_error {b : Block α} {e : Fault} : build P b ≠ .error e := by
  unfold build
  split <;> nofun

/-- A command that is running was legal: no command of the machine is the fault of an illegal word. -/
theorem exec_ne_illCmd (i : Instr) (s : State) : exec i s ≠ .fault .illCmd := by
  rw [Ne, exec_eq_fault]
  intro h
  cases i with
  | build => exact build_ne_error h
  | setsr sr => simpa using setsr_error h
  | setalt v => cases h
  | setphase p => cases h
  | design f0 => simpa using design_params32_error h
  | tick f => simpa using tick_error h

/-! ## One word -/

theorem runWord_of_decode {w : CommandWord} {i : Instr} (h : decode w = .ok i) (s : State) :
    runWord w s = exec i s := by
  simp only [runWord, h]

theorem runWord_of_illegal {w : CommandWord} {e : Illegal} (h : decode w = .error e) (s : State) :
    runWord w s = .fault .illCmd := by
  simp only [runWord, h]

theorem runWord_eq_illCmd_iff (s : State) (w : CommandWord) :
    runWord w s = .fault .illCmd ↔ ∃ e, decode w = .error e := by
  refine ⟨fun h => ?_, fun ⟨e, he⟩ => runWord_of_illegal he s⟩
  cases hw : decode w with
  | error e => exact ⟨e, rfl⟩
  | ok i =>
    rw [runWord_of_decode hw] at h
    exact absurd h (exec_ne_illCmd i s)

/-- Settles O3: the illegal words are those whose fields are not a legal word's, and no command raises `F_ILLCMD`. -/
theorem illegalWordsFault : Obligations.IllegalWordsFault := by
  refine ⟨fun w => ?_, runWord_eq_illCmd_iff, ⟨_, rfl⟩, ⟨_, rfl⟩⟩
  have hop : w.toNat / 2 ^ 32 < 256 := Nat.div_lt_of_lt_mul w.isLt
  dsimp only
  rw [decode_isError_iff, LegalFields]
  omega

theorem step_of_command {s : State} {w : CommandWord} {rest : List Input} (hlegal : legalTheta s.theta = true)
    (hin : s.inputs = .command w :: rest) : step s = runWord w { s with inputs := rest } := by
  simp only [step_of_legal hlegal, takeInput, hin]

/-- A table word of the port's own width is the word itself. -/
theorem tableWord_toNat (w : CommandWord) : tableWord 40 w.toNat = w := by
  rw [tableWord, Nat.mod_eq_of_lt w.isLt, BitVec.ofNat_toNat, BitVec.setWidth_eq]

/-- Settles O5: the step takes the word at the head of the stream, which `withFetchWord` puts there, and runs it. -/
theorem stepRunsDecodedCommand : Obligations.StepRunsDecodedCommand := by
  refine ⟨fun s w rest i hlegal hin hw => ?_, fun s w rest e hlegal hin hw => ?_, fun s w i hlegal hw => ?_,
    fun s => step_of_illegal, fun i s => ?_⟩
  · rw [step_of_command hlegal hin, runWord_of_decode hw]
  · rw [step_of_command hlegal hin, runWord_of_illegal hw]
  · have hin : (s.withFetchWord 40 w.toNat).inputs = .command w :: s.inputs.drop 1 := by
      rw [State.withFetchWord, tableWord_toNat]
    exact (step_of_command (s := s.withFetchWord 40 w.toNat) hlegal hin).trans (runWord_of_decode hw _)
  · rw [exec_eq_command]
    cases command params32 i s.toBlock <;> rfl

end Sys2Proof.Machine
end

section
/-! What the output ports carry over a run (30_encoding.md R77): one finite value for each TICK on the port, nothing for
any other command and nothing on any other port. -/

namespace Sys2Proof.Machine

variable {α : Type} {P : Params α}

/-! ## One port -/

/-- A value the output port can carry: finite, and what the `NUM` makes of a finite value. -/
def Carried (P : Params α) (y : PortValue α) : Prop :=
  portFinite P.toNum y = true ∧ ∃ v, P.isFinite v = true ∧ y = P.toPort v

/-- A port that had carried `before` has carried `n` values more. -/
def Emits (P : Params α) (n : Nat) (before after : List (PortValue α)) : Prop :=
  ∃ ys, after = before ++ ys ∧ ys.length = n ∧ ∀ y ∈ ys, Carried P y

theorem Emits.refl (l : List (PortValue α)) : Emits P 0 l l := ⟨[], (List.append_nil l).symm, rfl, nofun⟩

theorem Emits.single {y : PortValue α} (hy : Carried P y) (l : List (PortValue α)) : Emits P 1 l (l ++ [y]) :=
  ⟨[y], rfl, rfl, List.forall_mem_singleton.2 hy⟩

theorem Emits.trans {m n : Nat} {l₁ l₂ l₃ : List (PortValue α)} (h : Emits P m l₁ l₂) (h' : Emits P n l₂ l₃) :
    Emits P (m + n) l₁ l₃ := by
  obtain ⟨ys, rfl, hm, hys⟩ := h
  obtain ⟨zs, rfl, hn, hzs⟩ := h'
  exact ⟨ys ++ zs, List.append_assoc _ _ _, by rw [List.length_append, hm, hn],
    List.forall_mem_append.2 ⟨hys, hzs⟩⟩

/-- How many values a word's command puts out: one for the opcode of TICK. -/
def tickCount (w : CommandWord) : Nat := if w.toNat / 2 ^ 32 = 6 then 1 else 0

theorem tickCount_commandWord (op : BitVec 8) (arg : BitVec 32) :
    tickCount (commandWord op arg) = if op = 0x06#8 then 1 else 0 := by
  simp only [tickCount, ← opField_eq_ofNat_iff _ (show 6 < 256 by decide), opField_commandWord]

theorem tick_output {f : F32} {b c : Block α} (h : tick P f b = .ok c) : Emits P 1 b.osc.output c.osc.output := by
  obtain ⟨-, -, -, -, -, o, ho, rfl⟩ := tick_eq_ok.1 h
  obtain ⟨x, -, -, -, -, -, hfin, hport, rfl⟩ := renderSample_eq_ok.1 ho
  rw [withOsc_osc, emit_output, advanced_output]
  exact Emits.single ⟨hport, _, hfin, rfl⟩ _

theorem command_output {i : Instr} {b c : Block α} (h : command P i b = .ok c) :
    Emits P (tickCount (encode i)) b.osc.output c.osc.output := by
  cases i with
  | build =>
    rw [build_ok_osc h, encode, tickCount_commandWord]
    exact Emits.refl _
  | setsr sr =>
    obtain ⟨-, -, -, rfl⟩ := setsr_eq_ok.1 h
    rw [encode, tickCount_commandWord]
    exact Emits.refl _
  | setalt v =>
    cases h
    rw [encode, tickCount_commandWord]
    exact Emits.refl _
  | setphase p =>
    cases h
    rw [encode, tickCount_commandWord]
    exact Emits.refl _
  | design f0 =>
    obtain ⟨-, -, -, t, -, rfl⟩ := design_eq_ok.1 h
    rw [encode, tickCount_commandWord]
    exact Emits.refl _
  | tick f =>
    rw [encode, tickCount_commandWord]
    exact tick_output h

theorem wordOnBlock_output {w : CommandWord} {b c : Block α} (h : wordOnBlock P w b = .ok c) :
    Emits P (tickCount w) b.osc.output c.osc.output := by
  obtain ⟨i, hi, hc⟩ := wordOnBlock_eq_ok.1 h
  rw [← encode_of_decode hi]
  exact command_output hc

theorem wordOnBlock_bank {w : CommandWord} {b c : Block α} (h : wordOnBlock P w b = .ok c) : c.bank = b.bank := by
  obtain ⟨i, -, hc⟩ := wordOnBlock_eq_ok.1 h
  exact (command_frame hc).2

/-! ## All ports -/

/-- Each port `k` has carried `count k` values more. -/
def PortsEmit (P : Params α) (count : Nat → Nat) (before after : List (List (PortValue α))) : Prop :=
  after.length = before.length ∧
    ∀ k l, before[k]? = some l → ∃ l', after[k]? = some l' ∧ Emits P (count k) l l'

theorem PortsEmit.refl (ls : List (List (PortValue α))) : PortsEmit P (fun _ => 0) ls ls :=
  ⟨rfl, fun _ l hl => ⟨l, hl, Emits.refl l⟩⟩

theorem PortsEmit.trans {m n : Nat → Nat} {ls₁ ls₂ ls₃ : List (List (PortValue α))}
    (h : PortsEmit P m ls₁ ls₂) (h' : PortsEmit P n ls₂ ls₃) : PortsEmit P (fun k => m k + n k) ls₁ ls₃ := by
  refine ⟨h'.1.trans h.1, fun k l hl => ?_⟩
  obtain ⟨l', hl', hm⟩ := h.2 k l hl
  obtain ⟨l'', hl'', hn⟩ := h'.2 k l' hl'
  exact ⟨l'', hl'', hm.trans hn⟩

/-- A change of port `k` alone. -/
theorem PortsEmit.set {ls : List (List (PortValue α))} {k n : Nat} {l l' : List (PortValue α)} (hl : ls[k]? = some l)
    (h : Emits P n l l') : PortsEmit P (fun j => if k = j then n else 0) ls (ls.set k l') := by
  obtain ⟨hk, -⟩ := List.getElem?_eq_some_iff.1 hl
  refine ⟨List.length_set, fun j old hold => ?_⟩
  by_cases hj : k = j
  · subst hj
    rw [hl] at hold
    cases hold
    exact ⟨l', List.getElem?_set_self hk, by simpa using h⟩
  · exact ⟨old, by rw [List.getElem?_set_ne hj, hold], by simpa [hj] using Emits.refl old⟩

/-- A word puts out on its own port what its command does, and nothing on another. -/
theorem wordOnPort_outputs {k : Nat} {w : CommandWord} {b c : Block α} (h : wordOnPort P k w b = .ok (.ok c)) :
    PortsEmit P (fun j => if k = j then tickCount w else 0) b.outputs c.outputs := by
  cases k with
  | zero =>
    have hc : wordOnBlock P w b = .ok c := Except.ok.inj h
    have hout : c.outputs = b.outputs.set 0 c.osc.output := by
      rw [Block.outputs, Block.outputs, wordOnBlock_bank hc, List.set_cons_zero]
    rw [hout]
    exact PortsEmit.set rfl (wordOnBlock_output hc)
  | succ n =>
    obtain ⟨o, d, ho, hd, rfl⟩ := wordOnPort_succ_eq_ok.1 h
    have hold : b.outputs[n + 1]? = some o.output := by simp [Block.outputs, ho]
    have hout : Block.outputs { d with osc := b.osc, bank := b.bank.set n d.osc } =
        b.outputs.set (n + 1) d.osc.output := by
      rw [Block.outputs, Block.outputs, List.map_set, List.set_cons_succ]
    rw [hout]
    exact PortsEmit.set hold (wordOnBlock_output hd)

/-- A run that ends with its first word answered, then the rest of it. -/
theorem runFrom_cons_eq_done {ports : List Nat} {k : Nat} {w : CommandWord} {ws : List (Nat × CommandWord)}
    {b c : Block α} (h : runFrom P ports ((k, w) :: ws) b = .done c) :
    ∃ d, wordOnPort P k w b = .ok (.ok d) ∧ runFrom P (ports ++ [k]) ws d = .done c := by
  rw [runFrom] at h
  split at h
  case h_1 => cases h
  case h_2 => cases h
  case h_3 d hd => exact ⟨d, hd, h⟩

/-- The TICK words of a schedule on port `k`. -/
def ticksOn (ws : List (Nat × CommandWord)) (k : Nat) : Nat :=
  ws.countP fun x => decide (x.1 = k ∧ x.2.toNat / 2 ^ 32 = 6)

theorem ticksOn_cons (k : Nat) (w : CommandWord) (ws : List (Nat × CommandWord)) (j : Nat) :
    ticksOn ((k, w) :: ws) j = (if k = j then tickCount w else 0) + ticksOn ws j := by
  rw [ticksOn, List.countP_cons, Nat.add_comm, ticksOn, tickCount]
  by_cases hk : k = j <;> simp [hk]

theorem runFrom_outputs {ports : List Nat} {ws : List (Nat × CommandWord)} {b c : Block α}
    (h : runFrom P ports ws b = .done c) : PortsEmit P (ticksOn ws) b.outputs c.outputs := by
  induction ws generalizing ports b with
  | nil =>
    cases h
    exact PortsEmit.refl _
  | cons x ws ih =>
    obtain ⟨d, hd, hrest⟩ := runFrom_cons_eq_done h
    rw [show ticksOn (x :: ws) = _ from funext (ticksOn_cons x.1 x.2 ws)]
    exact (wordOnPort_outputs hd).trans (ih hrest)

/-- Settles O8: each word emits on its own port, one value for a TICK and none for another command, and what the words
of a run emit adds up. -/
theorem oneOutputPerTick : Obligations.OneOutputPerTick := by
  refine ⟨num32_toPort, numExact_toPort, fun α P ports ws b c h => ?_⟩
  obtain ⟨hlen, hports⟩ := runFrom_outputs h
  refine ⟨hlen, fun k before hk => ?_⟩
  obtain ⟨_, hafter, ys, rfl, hys⟩ := hports k before hk
  exact ⟨ys, hafter, hys⟩

end Sys2Proof.Machine
end

section
/-! What a binary32 pattern denotes, by its three fields (30_encoding.md R80). -/

namespace Sys2Proof.Binary32

/-- The sign bit decides the sign of the value. -/
theorem toRat_eq_sign_mul (x : F32) : toRat x = (-1 : ℚ) ^ (x.toNat / 2 ^ 31) * ((units x : ℚ) / 2 ^ 149) := by
  have hx := x.isLt
  cases hs : signBit x
  · have hlow : x.toNat / 2 ^ 31 = 0 := by
      rw [signBit_eq, decide_eq_false_iff_not] at hs
      omega
    rw [toRat_of_signBit_false hs, hlow, pow_zero, one_mul]
  · have hhigh : x.toNat / 2 ^ 31 = 1 := by
      rw [signBit_eq, decide_eq_true_iff] at hs
      omega
    rw [toRat_of_signBit_true hs, hhigh, pow_one, neg_one_mul]

theorem units_of_expField_zero {x : F32} (h : expField x = 0) : units x = fracField x := if_pos h

theorem units_of_expField_pos {x : F32} (h : 1 ≤ expField x) :
    units x = (fracField x + 2 ^ 23) * 2 ^ (expField x - 1) := if_neg (by omega)

/-- A fraction in units is a fraction of the smallest normal value. -/
theorem frac_div_units (f : Nat) : (f : ℚ) / 2 ^ 149 = 2 ^ (-126 : ℤ) * ((f : ℚ) / 2 ^ 23) := by
  norm_num
  ring

/-- A normal significand in units, scaled by its exponent. -/
theorem significand_div_units (f : Nat) {e : Nat} (he : 1 ≤ e) :
    (((f + 2 ^ 23) * 2 ^ (e - 1) : Nat) : ℚ) / 2 ^ 149 = 2 ^ ((e : ℤ) - 127) * (1 + (f : ℚ) / 2 ^ 23) := by
  obtain ⟨k, rfl⟩ := Nat.exists_eq_add_of_le' he
  have hpow : (2 : ℚ) ^ (((k + 1 : Nat) : ℤ) - 127) = 2 ^ k / 2 ^ 126 := by
    rw [show ((k + 1 : Nat) : ℤ) - 127 = (k : ℤ) - (126 : Nat) by push_cast; ring, zpow_sub₀ two_ne_zero,
      zpow_natCast, zpow_natCast]
  rw [hpow, Nat.add_sub_cancel]
  push_cast
  ring

theorem toRat_of_normal {x : F32} (h : 1 ≤ expField x) :
    toRat x = (-1 : ℚ) ^ (x.toNat / 2 ^ 31) * (2 : ℚ) ^ ((expField x : ℤ) - 127) *
      (1 + (fracField x : ℚ) / 2 ^ 23) := by
  rw [toRat_eq_sign_mul, units_of_expField_pos h, significand_div_units _ h, mul_assoc]

theorem toRat_of_expField_zero {x : F32} (h : expField x = 0) :
    toRat x = (-1 : ℚ) ^ (x.toNat / 2 ^ 31) * (2 : ℚ) ^ (-126 : ℤ) * ((fracField x : ℚ) / 2 ^ 23) := by
  rw [toRat_eq_sign_mul, units_of_expField_zero h, frac_div_units, mul_assoc]

theorem isFinite_eq_true_iff (x : F32) : isFinite x = true ↔ expField x ≠ 255 := by
  rw [isFinite, bne_iff_ne]

/-- Settles O52: the units of a pattern, by its exponent and fraction fields, over the `2^149` of a unit. -/
theorem patternDenotesValue : Obligations.PatternDenotesValue := by
  intro x
  dsimp only
  rw [← expField_eq, ← fracField_eq]
  refine ⟨fun he => ⟨(isFinite_eq_true_iff x).2 (by omega), toRat_of_normal he.1⟩,
    fun he => ⟨(isFinite_eq_true_iff x).2 (by omega), toRat_of_expField_zero he⟩, fun he => ⟨?_, ?_, ?_⟩, ?_⟩
  · simp [isFinite, he]
  · rw [Bool.eq_iff_iff]
    simp [isInf, he]
  · rw [Bool.eq_iff_iff]
    simp [isNaN, he]
  · rw [Bool.eq_iff_iff]
    simp [isSubnormal]

end Sys2Proof.Binary32
end

section
/-! What the pseudo-commands expand to (30_encoding.md R78). -/

namespace Sys2Proof.Machine

/-- The rounding of SETPHASE.R picks the integer that is nearest, ties upward. -/
theorem phaseOfFraction_eq {v : ℚ} {n : Nat} (hnear : |v * 2 ^ 32 - n| ≤ 1 / 2) (htie : v * 2 ^ 32 ≠ n + 1 / 2) :
    phaseOfFraction v = BitVec.ofNat 32 n := by
  obtain ⟨hlo, hhi⟩ := abs_le.1 hnear
  have hlt : v * 2 ^ 32 < n + 1 / 2 := lt_of_le_of_ne (by linarith) htie
  have hfloor : (v * 2 ^ 32 + 1 / 2).floor = (n : ℤ) := by
    change ⌊v * 2 ^ 32 + 1 / 2⌋ = (n : ℤ)
    rw [Int.floor_eq_iff, Int.cast_natCast]
    constructor <;> linarith
  rw [phaseOfFraction, hfloor, Int.toNat_natCast]

/-- Settles O59: the expansions are the definitions; the operand of SETPHASE.R is in range or refused, and its rounding
is the floor of the value half a count up. -/
theorem pseudoCommandsExpand : Obligations.PseudoCommandsExpand := by
  refine ⟨fun sr f fs => rfl, fun sr => rfl, fun f0 => rfl, fun v hv => ?_, fun v n h0 h1 hnear htie => ?_⟩
  · rw [setphasePseudo, if_neg]
    rintro ⟨h0, h1⟩
    obtain hv | hv := hv <;> linarith
  · rw [setphasePseudo, if_pos ⟨h0, h1⟩, phaseOfFraction_eq hnear htie]

end Sys2Proof.Machine
end

section
/-! BUILD (40_kernel_build.md section 2): the store it fills, and when. -/

namespace Sys2Proof.Machine

variable {α : Type}

theorem build_of_built (P : Params α) {b : Block α} (h : b.kernel.built = true) : build P b = .ok b := if_pos h

theorem build_of_not_built (P : Params α) {b : Block α} (h : b.kernel.built = false) :
    build P b = .ok (withKernel (builtStore P) b) := if_neg (by simp [h])

theorem memRead_builtStore_of_lt (P : Params α) {i : Nat} (h : i < 4096) :
    memRead (builtStore P).impulse i = some (P.kromImpulse i) ∧
    memRead (builtStore P).step i = some (P.kromStep i) := by
  rw [builtStore, memRead_filledSpace, memRead_filledSpace, if_pos h, if_pos h]
  exact ⟨rfl, rfl⟩

theorem memRead_builtStore_of_le (P : Params α) {i : Nat} (h : 4096 ≤ i) :
    memRead (builtStore P).impulse i = none ∧ memRead (builtStore P).step i = none := by
  rw [builtStore, memRead_filledSpace, memRead_filledSpace, if_neg h.not_gt, if_neg h.not_gt]
  exact ⟨rfl, rfl⟩

theorem exec_build_of_built {s : State} (h : s.kernel.built = true) : exec .build s = .next s :=
  exec_eq_next.2 ⟨s.toBlock, build_of_built params32 h, rfl⟩

theorem exec_build_of_not_built {s : State} (h : s.kernel.built = false) :
    exec .build s = .next { s with kernel := builtStore params32 } :=
  exec_eq_next.2 ⟨_, build_of_not_built params32 h, rfl⟩

/-- Settles O14: the one store is `builtStore`, whose two spaces are filled; with it, or any other built store, BUILD
keeps the state. -/
theorem buildFillsStoreOnce : Obligations.BuildFillsStoreOnce := by
  exact ⟨by decide, fun s => exec_build_of_built, builtStore params32, rfl, fun i => memRead_builtStore_of_lt params32,
    fun i => memRead_builtStore_of_le params32, fun s hs => ⟨exec_build_of_not_built hs, exec_build_of_built rfl⟩⟩

end Sys2Proof.Machine
end

section
/-! The reference sine is odd and the reference cosine is even (00_scope.md R11), as far as the builder needs it. -/

namespace Sys2Proof.Reference

@[simp] theorem cos_neg (x : ℚ) : cos (-x) = cos x := by
  simp only [cos, abs_neg]

@[simp] theorem ofFix_neg (a : Int) : ofFix (-a) = -ofFix a := by
  rw [ofFix, ofFix, Int.cast_neg, neg_div]

theorem sin_neg {x : ℚ} (hx : x ≠ 0) : sin (-x) = -sin x := by
  rw [sin, sin, abs_neg, ← ofFix_neg]
  obtain hneg | hpos := lt_or_gt_of_ne hx
  · rw [if_pos hneg, if_neg (by linarith), neg_neg]
  · rw [if_neg hpos.not_gt, if_pos (by linarith)]

/-- At 0 both quotients are by 0. -/
theorem sin_neg_div_neg (x : ℚ) : sin (-x) / -x = sin x / x := by
  obtain rfl | hx := eq_or_ne x 0
  · simp
  · rw [sin_neg hx, neg_div_neg_eq]

end Sys2Proof.Reference
end

section
/-! The builder's algorithm in exact arithmetic (40_kernel_build.md section 3), step by step. -/

namespace Sys2Proof.Machine

variable (fns : NumFns ℚ)

/-! ## Step 1 (R102) -/

/-- The wrapped half of the phase, with the index less `M` in place of the negation. -/
theorem builderTheta_numExact {m i : Nat} (hi : i < m) :
    builderTheta (numExact fns) m i =
      if i ≤ m / 2 then 2 * fns.pi * i / m else 2 * fns.pi * ((i : ℚ) - m) / m := by
  unfold builderTheta
  split
  · simp
  · simp only [numExact_neg, numExact_div, numExact_mul, numExact_ofNat, numExact_pi, Nat.cast_sub hi.le,
      Nat.cast_ofNat]
    ring

theorem builderT_numExact (m i : Nat) :
    builderT (numExact fns) m i = builderTheta (numExact fns) m i * (256 / 10) * m / ((m / 2 : Nat) : ℚ) := by
  simp only [builderT, numExact_div, numExact_mul, numExact_lit, numExact_ofNat, Nat.cast_ofNat]

theorem builderSinc_numExact (m i : Nat) :
    builderSinc (numExact fns) m i =
      if i = 0 then 1 else fns.sin (builderT (numExact fns) m i) / builderT (numExact fns) m i := by
  simp only [builderSinc, numExact_div, numExact_sin, numExact_ofNat, Nat.cast_one]

theorem builderWindow_numExact (m i : Nat) :
    builderWindow (numExact fns) m i =
      42 / 100 + 1 / 2 * fns.cos (builderTheta (numExact fns) m i) +
        8 / 100 * fns.cos (2 * builderTheta (numExact fns) m i) := by
  simp only [builderWindow, numExact_add, numExact_mul, numExact_lit, numExact_cos, numExact_ofNat, Nat.cast_ofNat,
    Nat.cast_one]

theorem getElem?_builderSource {m i : Nat} (hi : i < m) :
    (builderSource (numExact fns) m)[i]? =
      some { re := builderSinc (numExact fns) m i * builderWindow (numExact fns) m i, im := 0 } := by
  simp [builderSource, List.getElem?_range hi]

/-- The phase is odd about index 0 modulo `M`. -/
theorem builderTheta_sub {m i : Nat} (h1 : 1 ≤ i) (h2 : 2 * i < m) :
    builderTheta (numExact fns) m (m - i) = -builderTheta (numExact fns) m i := by
  rw [builderTheta, if_neg (by omega), builderTheta, if_pos (by omega), Nat.sub_sub_self (by omega), numExact_neg]

theorem builderT_sub {m i : Nat} (h1 : 1 ≤ i) (h2 : 2 * i < m) :
    builderT (numExact fns) m (m - i) = -builderT (numExact fns) m i := by
  rw [builderT_numExact, builderT_numExact, builderTheta_sub fns h1 h2]
  ring

/-- The sinc is even since the sine is odd. -/
theorem builderSinc_sub {m i : Nat} (h1 : 1 ≤ i) (h2 : 2 * i < m) :
    builderSinc numReference m (m - i) = builderSinc numReference m i := by
  rw [numReference, builderSinc_numExact, builderSinc_numExact, if_neg (by omega), if_neg (by omega),
    builderT_sub _ h1 h2]
  exact Reference.sin_neg_div_neg _

/-- The window is even since the cosine is. -/
theorem builderWindow_sub {m i : Nat} (h1 : 1 ≤ i) (h2 : 2 * i < m) :
    builderWindow numReference m (m - i) = builderWindow numReference m i := by
  rw [numReference, builderWindow_numExact, builderWindow_numExact, builderTheta_sub _ h1 h2, mul_neg]
  simp only [Reference.fns, Reference.cos_neg]

/-! ## Step 3 (R105) -/

theorem getElem?_dropAntiCausal (cs : List (Cx ℚ)) {k : Nat} (hk : k < cs.length) :
    (dropAntiCausal (numExact fns) cs)[k]? = if cs.length / 2 < k then some { re := 0, im := 0 } else cs[k]? := by
  have hlen : (cs.take (cs.length / 2 + 1)).length = cs.length / 2 + 1 := by
    rw [List.length_take]
    omega
  unfold dropAntiCausal
  split
  · rw [List.getElem?_append_right (by omega), hlen, List.getElem?_map, List.getElem?_drop,
      Nat.add_sub_cancel' (by omega), List.getElem?_eq_getElem hk]
    simp
  · rw [List.getElem?_append_left (by omega), List.getElem?_take_of_lt (by omega)]

/-! ## Step 5 (R107) -/

theorem kernelTotal_numExact (k : List ℚ) : kernelTotal (numExact fns) k = k.sum := by
  rw [kernelTotal, numExact_ofNat, Nat.cast_zero, List.sum_eq_foldl]
  rfl

theorem normalized_numExact (k : List ℚ) : normalized (numExact fns) k = k.map (· / k.sum) := by
  rw [normalized, kernelTotal_numExact]
  rfl

theorem sum_map_div_sum {k : List ℚ} (hk : k.sum ≠ 0) : (k.map (· / k.sum)).sum = 1 := by
  simp only [div_eq_mul_inv]
  rw [List.sum_map_mul_right, List.map_id', mul_inv_cancel₀ hk]

theorem impulseTable_numExact (kn : List ℚ) : impulseTable (numExact fns) kn = kn.map (64 * ·) := by
  refine List.map_congr_left fun x _ => ?_
  simp [mul_comm]

theorem getElem?_impulseTable (kn : List ℚ) {k : Nat} (hk : k < kn.length) :
    (impulseTable (numExact fns) kn)[k]? = some (64 * kn.getD k 0) := by
  simp [impulseTable_numExact, hk]

theorem sum_impulseTable (kn : List ℚ) : (impulseTable (numExact fns) kn).sum = 64 * kn.sum := by
  rw [impulseTable_numExact, List.sum_map_mul_left, List.map_id']

/-! ## Step 6 (R108) -/

/-- The accumulator holds the sum of the entries before. -/
theorem getElem?_stepTable (kn : List ℚ) (acc : ℚ) {k : Nat} (hk : k < kn.length) :
    (stepTable (numExact fns) kn acc)[k]? = some (1 - (acc + (kn.take (k + 1)).sum)) := by
  induction kn generalizing acc k with
  | nil => exact absurd hk (Nat.not_lt_zero k)
  | cons x xs ih =>
    cases k with
    | zero => simp [stepTable]
    | succ k =>
      rw [stepTable, List.getElem?_cons_succ, ih _ (Nat.lt_of_succ_lt_succ hk)]
      simp [add_assoc]

/-! ## Faults (93 entry U9) -/

theorem builtTables_of_zero_bin {m : Nat} {x : Cx ℚ} (hx : x ∈ builderSpectrum (numExact fns) m)
    (h : cxAbs (numExact fns) x = 0) : builtTables (numExact fns) m = .error .nonFinite :=
  if_pos (List.any_eq_true.2 ⟨x, hx, by simp [h]⟩)

theorem builtTables_of_zero_sum {m : Nat} (h : (retainedKernel (numExact fns) m).sum = 0) :
    builtTables (numExact fns) m = .error .nonFinite := by
  have hzero : isZero (numExact fns) (kernelTotal (numExact fns) (retainedKernel (numExact fns) m)) = true := by
    simp [kernelTotal_numExact, h]
  rw [builtTables, if_pos hzero, ite_self]

/-- Settles O60, step by step: each entry of the buffer and of the two tables is its line of the rule, the buffer is even
since its phase is odd about index 0, and each of the two zeros is tested before it is used. -/
theorem builderStepsAsWritten : Obligations.BuilderStepsAsWritten := by
  refine ⟨fun fns m i hi => ?_, fun m i h1 h2 => ?_, fun fns cs k hk => getElem?_dropAntiCausal fns cs hk,
    fun fns m => ⟨normalized_numExact fns _, fun hsum => ?_⟩,
    fun fns kn => ⟨fun k hk => getElem?_impulseTable fns kn hk, List.length_map _, sum_impulseTable fns kn⟩,
    fun fns kn k hk => ?_, fun fns m h => ?_⟩
  · rw [getElem?_builderSource fns hi, builderSinc_numExact, builderWindow_numExact, builderT_numExact,
      builderTheta_numExact fns hi]
  · rw [builderSinc_sub h1 h2, builderWindow_sub h1 h2]
  · rw [normalizedKernel, normalized_numExact]
    exact sum_map_div_sum hsum
  · rw [getElem?_stepTable fns kn 0 hk, zero_add]
  · obtain ⟨x, hx, hzero⟩ | hsum := h
    · exact builtTables_of_zero_bin fns hx hzero
    · exact builtTables_of_zero_sum fns hsum

end Sys2Proof.Machine
end

section
/-! Order and sign in binary32: the rounding is monotone, a finite product or quotient has the sign of its operands, and
`cvt_u32` is the saturated floor (41_phase_accumulator.md R123). -/

namespace Sys2Proof.Binary32

/-! ## The rounding is monotone -/

theorem roundShift_mono {m n : Nat} (h : m ≤ n) (d : Nat) : roundShift m d ≤ roundShift n d := by
  rw [roundShift, roundShift, Nat.log2_eq_log_two, Nat.log2_eq_log_two]
  exact Nat.sub_le_sub_right (Nat.log_mono_right (Nat.div_le_div_right h)) 23

/-- In one binade the rounded quotient grows with the truncated one, and where that stays, with the remainder. -/
theorem roundQuot_mono {m n d : Nat} (h : m ≤ n) (hs : roundShift m d = roundShift n d) :
    roundQuot m d ≤ roundQuot n d := by
  rw [roundQuot, roundQuot, hs]
  generalize d * 2 ^ roundShift n d = k
  obtain hlt | heq := (Nat.div_le_div_right (c := k) h).lt_or_eq
  · split <;> split <;> omega
  · have hm := Nat.div_add_mod m k
    have hn := Nat.div_add_mod n k
    rw [heq] at hm ⊢
    split <;> split <;> omega

/-- A higher binade starts where the lower one ends. -/
theorem roundUnits_mono {m n : Nat} (h : m ≤ n) (d : Nat) : roundUnits m d ≤ roundUnits n d := by
  rw [roundUnits_eq, roundUnits_eq]
  apply min_le_min_right
  obtain hlt | heq := (roundShift_mono h d).lt_or_eq
  · obtain ⟨hm, -⟩ := roundQuot_bounds m d
    obtain ⟨-, hn⟩ := roundQuot_bounds n d
    omega
  · rw [heq]
    exact Nat.add_le_add_left (roundQuot_mono h heq) _

/-- Magnitudes are ordered as their bits: the rounding, monotone, gives the bits back. -/
theorem unitsOfBits_mono {m n : Nat} (h : m ≤ n) (hn : n < 0x7F800000) : unitsOfBits m ≤ unitsOfBits n := by
  by_contra hlt
  have hround := roundUnits_mono (not_le.1 hlt).le 1
  rw [roundUnits_unitsOfBits hn, roundUnits_unitsOfBits (h.trans_lt hn)] at hround
  exact hlt (le_antisymm h hround ▸ le_rfl)

theorem units_ofNat_mono {m n : Nat} (h : m ≤ n) (hn : n < 2 ^ 127) : units (ofNat m) ≤ units (ofNat n) := by
  have hfin : isFinite (ofNat n) = true := isFinite_ofNat hn
  rw [ofNat, ofRatio, isFinite_pack _ (roundUnits_le _ _), decide_eq_true_eq] at hfin
  rw [ofNat, ofNat, ofRatio, ofRatio, units_pack _ (roundUnits_lt_pow _ _), units_pack _ (roundUnits_lt_pow _ _)]
  exact unitsOfBits_mono (roundUnits_mono (Nat.mul_le_mul_right _ h) 1) hfin

/-- A ratio of at most 1 rounds to at most 1. -/
theorem roundUnits_le_one {n d : Nat} (hd : 0 < d) (h : n ≤ d) : roundUnits (n * 2 ^ 149) d ≤ 0x3F800000 := by
  calc roundUnits (n * 2 ^ 149) d ≤ roundUnits (d * 2 ^ 149) d := roundUnits_mono (Nat.mul_le_mul_right _ h) d
    _ = roundUnits (unitsOfBits 0x3F800000) 1 :=
      roundUnits_congr hd Nat.one_pos (by rw [Nat.mul_one, Nat.mul_comm]; rfl)
    _ = 0x3F800000 := roundUnits_unitsOfBits (by decide)

/-! ## Signs -/

theorem toRat_nonneg_of_signBit_false {x : F32} (h : signBit x = false) : 0 ≤ toRat x := by
  rw [toRat_of_signBit_false h]
  positivity

theorem signBit_of_toRat_pos {x : F32} (h : 0 < toRat x) : signBit x = false := by
  rw [signBit_of_toRat_ne_zero h.ne']
  exact decide_eq_false h.not_gt

@[simp] theorem abs_neg_eq (x : F32) : abs (neg x) = abs x := by
  rw [abs_eq_pack, abs_eq_pack, neg, BitVec.toNat_xor, Nat.xor_mod_two_pow,
    show (0x80000000#32).toNat % 2 ^ 31 = 0 by decide, Nat.xor_zero]

@[simp] theorem signBit_abs (x : F32) : signBit (abs x) = false := by
  rw [abs_eq_pack]
  exact signBit_pack _ (Nat.mod_lt _ (by decide))

theorem isFinite_nan : isFinite nan = false := by decide

theorem isFinite_inf (s : Bool) : isFinite (inf s) = false := by cases s <;> decide

/-- A product is finite only of finite factors. -/
theorem isFinite_of_isFinite_mul {x y : F32} (h : isFinite (mul x y) = true) :
    isFinite x = true ∧ isFinite y = true := by
  by_contra hxy
  rw [← Bool.and_eq_true] at hxy
  rw [mul] at h
  rw [if_neg hxy] at h
  split at h
  · simp [isFinite_nan] at h
  · simp [isFinite_inf] at h

theorem signBit_mul {x y : F32} (h : isFinite (mul x y) = true) : signBit (mul x y) = (signBit x != signBit y) := by
  obtain ⟨hx, hy⟩ := isFinite_of_isFinite_mul h
  rw [mul_of_isFinite hx hy, signBit_pack _ (roundUnits_lt_pow _ _)]

theorem signBit_div {x y : F32} (hx : isFinite x = true) (hy : isFinite y = true) (h : toRat y ≠ 0) :
    signBit (div x y) = (signBit x != signBit y) := by
  rw [div_of_isFinite hx hy h, signBit_pack _ (roundUnits_lt_pow _ _)]

/-! ## The conversion and the quotient of two integers -/

/-- `cvt_u32` of a value that is not negative truncates, and saturates from 2^32 up (41_phase_accumulator.md R123). -/
theorem toNat_cvtU32 {x : F32} (h : signBit x = false) :
    (cvtU32 x).toNat = if 2 ^ 32 ≤ toRat x then 2 ^ 32 - 1 else (toRat x).floor.toNat := by
  have hfloor : (toRat x).floor.toNat = units x / 2 ^ 149 := by
    have hdiv := Rat.floor_natCast_div_natCast (units x) (2 ^ 149)
    rw [Nat.cast_pow, Nat.cast_ofNat] at hdiv
    rw [toRat_of_signBit_false h]
    exact (congrArg Int.toNat hdiv).trans (Int.toNat_natCast _)
  have hsat : (2 : ℚ) ^ 32 ≤ toRat x ↔ 2 ^ 32 * 2 ^ 149 ≤ units x := by
    rw [toRat_of_signBit_false h, le_div_iff₀ (by positivity)]
    exact_mod_cast Iff.rfl
  have hunits : signedUnits x = units x := by simp [signedUnits, h]
  rw [cvtU32, hfloor, hunits]
  by_cases hbig : 2 ^ 32 * 2 ^ 149 ≤ units x
  · rw [if_pos (by exact_mod_cast hbig), if_pos (hsat.2 hbig)]
    rfl
  · rw [if_neg (by exact_mod_cast hbig), if_neg (mt hsat.1 hbig), Int.toNat_natCast, BitVec.toNat_ofNat]
    exact Nat.mod_eq_of_lt (Nat.div_lt_of_lt_mul (by rw [Nat.mul_comm]; exact not_le.1 hbig))

/-- The quotient of two integers, each rounded, is between 0 and 1 where the dividend is at most the divisor. -/
theorem toRat_div_ofNat_mem_unit {n d : Nat} (h : n ≤ d) (hd : 1 ≤ d) (hd' : d < 2 ^ 127) :
    0 ≤ toRat (div (ofNat n) (ofNat d)) ∧ toRat (div (ofNat n) (ofNat d)) ≤ 1 := by
  have hpos : 0 < units (ofNat d) := (Nat.two_pow_pos 149).trans_le (le_units_ofNat hd hd')
  have hbits := roundUnits_le_one hpos (units_ofNat_mono h hd')
  have hu := unitsOfBits_mono hbits (by decide)
  rw [div_of_isFinite (isFinite_ofNat (h.trans_lt hd')) (isFinite_ofNat hd') (mt (toRat_eq_zero_iff _).1 hpos.ne'),
    signBit_ofNat, signBit_ofNat]
  have hsign : signBit (pack (false != false) (roundUnits (units (ofNat n) * 2 ^ 149) (units (ofNat d)))) = false :=
    signBit_pack _ (roundUnits_lt_pow _ _)
  refine ⟨toRat_nonneg_of_signBit_false hsign, ?_⟩
  rw [toRat_of_signBit_false hsign, units_pack _ (roundUnits_lt_pow _ _), div_le_one (by positivity)]
  exact_mod_cast hu.trans_eq (by rfl)

end Sys2Proof.Binary32
end

section
/-! The phase accumulator (41_phase_accumulator.md): which quantised increment a frequency gives, what ADV and a TICK do
with it, when the phase wraps, and what a wrap retargets. -/

namespace Sys2Proof.Machine

variable {α : Type} {N : Num α}

/-! ## Only the magnitude of the frequency enters -/

theorem increment_neg (sr : F32) (fscale : FScale) (f : F32) :
    increment num32 sr fscale (Binary32.neg f) = increment num32 sr fscale f := by
  rw [increment, increment, num32_abs, Binary32.abs_neg_eq]

theorem adv_neg (f : F32) (o : Oscillator F32) : adv num32 (Binary32.neg f) o = adv num32 f o := by
  have hq (sr : F32) (fscale : FScale) :
      quantizedIncrement num32 sr fscale (Binary32.neg f) = quantizedIncrement num32 sr fscale f := by
    rw [quantizedIncrement, increment_neg, quantizedIncrement]
  rw [adv, increment_neg, hq, adv]

/-- MIX and FILT do not see the frequency. -/
theorem renderSample_neg (m : Memory F32) (f : F32) (o : Oscillator F32) :
    renderSample num32 m (Binary32.neg f) o = renderSample num32 m f o := by
  simp only [renderSample, adv_neg]

/-- The operand's tests are of its magnitude as well. -/
theorem tick_neg (f : F32) {b : Block F32} (h : b.osc.cfg.noteMode = false) :
    tick params32 (Binary32.neg f) b = tick params32 f b := by
  have hhz (g : F32) : tickHz num32 b.osc.cfg g = g := by simp [tickHz, h]
  cases hf : Binary32.isFinite f with
  | false => simp [tick, realOperand, hf]
  | true => simp [tick, realOperand, finiteResult, hhz, hf, renderSample_neg]

theorem exec_tick_neg (f : F32) {s : State} (h : s.osc.cfg.noteMode = false) :
    exec (.tick (Binary32.neg f)) s = exec (.tick f) s :=
  congrArg (onBlock s) (tick_neg f h)

/-- Settles O30: the increment reads `|f|` only, the phase can only fall by the carry of the add, and MIX adds to an index
or leaves it. -/
theorem signOfFrequencyIrrelevant : Obligations.SignOfFrequencyIrrelevant := by
  refine ⟨adv_neg, fun f s h => exec_tick_neg f h, fun s h => exec_tick_neg 0#32 h, fun f o o' h hlt => ?_, fun v => ?_⟩
  · obtain ⟨-, -, -, rfl⟩ := adv_eq_ok.1 h
    rw [advanced_phase, BitVec.toNat_add] at hlt
    omega
  · rw [toNat_advanceVoice_idx]
    split <;> omega

/-! ## The add and its carry -/

theorem wraps_add_eq_true_iff {p q : U32} : wraps p (p + q) = true ↔ 2 ^ 32 ≤ p.toNat + q.toNat := by
  rw [wraps_add_eq, decide_eq_true_eq]

theorem wraps_add_eq_false_iff {p q : U32} : wraps p (p + q) = false ↔ p.toNat + q.toNat < 2 ^ 32 := by
  rw [wraps_add_eq, decide_eq_false_iff_not, not_le]

theorem wraps_add_zero (p : U32) : wraps p (p + 0#32) = false := wraps_add_eq_false_iff.2 p.isLt

/-- An increment of 0 changes nothing (41_phase_accumulator.md R130). -/
@[simp] theorem advanced_zero (o : Oscillator α) : advanced N 0#32 o = o := by
  rw [advanced_of_not_wraps (wraps_add_zero o.phase), BitVec.add_zero]

/-- Settles O31: ADV stores the sum of two words, and that sum is below its first term exactly when it carries. -/
theorem wrapIsCarry : Obligations.WrapIsCarry :=
  ⟨fun q o => by rw [advanced_phase, BitVec.toNat_add], fun _ _ => wraps_add_eq_true_iff, wraps_add_zero⟩

/-! ## The quantised increment -/

/-- The mask clears the low six bits and leaves the others (41_phase_accumulator.md R124). -/
theorem toNat_and_mask (x : U32) : (x &&& 0xFFFFFFC0#32).toNat = x.toNat - x.toNat % 64 := by
  have hlow := toNat_and_mask_mod x
  have hhigh : (x &&& 0xFFFFFFC0#32).extractLsb' 6 26 = x.extractLsb' 6 26 := by
    rw [BitVec.extractLsb'_and, show BitVec.extractLsb' 6 26 0xFFFFFFC0#32 = BitVec.allOnes 26 by decide,
      BitVec.and_allOnes]
  have hdiv := congrArg BitVec.toNat hhigh
  simp only [BitVec.extractLsb'_toNat, Nat.shiftRight_eq_div_pow] at hdiv
  have hx := x.isLt
  have hm := (x &&& 0xFFFFFFC0#32).isLt
  omega

theorem signBit_phaseIncScale {sr : F32} {fscale : FScale} (hsr : Binary32.isFinite sr = true)
    (hpos : 0 < Binary32.toRat sr) (h : Binary32.isFinite (phaseIncScale num32 sr fscale) = true) :
    Binary32.signBit (phaseIncScale num32 sr fscale) = false := by
  have hdiv : Binary32.signBit (num32.div (num32.ofNat (2 ^ 32)) sr) = false := by
    rw [num32_div, num32_ofNat, Binary32.signBit_div (Binary32.isFinite_ofNat (by decide)) hsr hpos.ne',
      Binary32.signBit_ofNat, Binary32.signBit_of_toRat_pos hpos]
    rfl
  cases fscale with
  | one => exact hdiv
  | two => exact (Binary32.signBit_mul h).trans (by rw [hdiv, num32_ofNat, Binary32.signBit_ofNat]; rfl)

/-- At a positive rate the increment is never negative. -/
theorem signBit_increment {sr f : F32} {fscale : FScale} (hsr : Binary32.isFinite sr = true)
    (hpos : 0 < Binary32.toRat sr) (h : Binary32.isFinite (increment num32 sr fscale f) = true) :
    Binary32.signBit (increment num32 sr fscale f) = false := by
  obtain ⟨-, hscale⟩ := Binary32.isFinite_of_isFinite_mul h
  exact (Binary32.signBit_mul h).trans
    (by rw [num32_abs, Binary32.signBit_abs, signBit_phaseIncScale hsr hpos hscale]; rfl)

/-- Settles O32: the increment's sign bit is 0, so its conversion is the saturated floor, which the mask rounds down. -/
theorem incrementTruncatedAndQuantized : Obligations.IncrementTruncatedAndQuantized := by
  intro sr f fscale hsr hpos x c hx
  have hsign : Binary32.signBit x = false := signBit_increment hsr hpos hx
  have hcvt : (Binary32.cvtU32 x).toNat = c := Binary32.toNat_cvtU32 hsign
  exact ⟨Binary32.toRat_nonneg_of_signBit_false hsign, hcvt, hcvt ▸ toNat_and_mask _⟩

/-- Settles O33: the multiple of 64 below the saturated floor is 0 exactly for an increment below 64, and an advance by 0
changes nothing. -/
theorem tinyFrequencyMovesNothing : Obligations.TinyFrequencyMovesNothing := by
  intro f o o' hsr hpos h
  obtain ⟨-, hfin, -, rfl⟩ := adv_eq_ok.1 h
  obtain ⟨-, -, hq⟩ := incrementTruncatedAndQuantized o.sr f o.cfg.fscale hsr hpos hfin
  have hzero : quantizedIncrement num32 o.sr o.cfg.fscale f = 0#32 ↔
      Binary32.toRat (increment num32 o.sr o.cfg.fscale f) < 64 := by
    rw [← BitVec.toNat_inj, hq]
    generalize Binary32.toRat (increment num32 o.sr o.cfg.fscale f) = r
    split
    next hbig => exact iff_of_false (by decide) (not_lt.2 (le_trans (by norm_num) hbig))
    next =>
      have hfloor : r.floor < 64 ↔ r < 64 := Rat.floor_lt_iff
      rw [← hfloor, BitVec.toNat_ofNat]
      omega
  refine ⟨hzero, fun hlt => ?_⟩
  rw [hzero.2 hlt, advanced_zero]

/-- At and above 2^32 the increment saturates at the largest multiple of 64 (41_phase_accumulator.md R132). -/
theorem quantizedIncrement_of_saturated {sr f : F32} {fscale : FScale}
    (h : (2 : ℚ) ^ 32 ≤ Binary32.toRat (increment num32 sr fscale f)) :
    quantizedIncrement num32 sr fscale f = 0xFFFFFFC0#32 := by
  have hcvt := Binary32.toNat_cvtU32 (Binary32.signBit_of_toRat_pos (lt_of_lt_of_le (by norm_num) h))
  rw [if_pos h] at hcvt
  apply BitVec.eq_of_toNat_eq
  rw [quantizedIncrement, num32_cvtU32, toNat_and_mask, hcvt]
  rfl

/-- Settles O34: the saturated increment is minus 64 modulo 2^32, which carries exactly from the phase 64 up. -/
theorem saturatedFrequencySteps : Obligations.SaturatedFrequencySteps := by
  intro f o o' h hsat
  obtain ⟨-, -, -, rfl⟩ := adv_eq_ok.1 h
  rw [quantizedIncrement_of_saturated hsat]
  have hq : (0xFFFFFFC0#32 : U32).toNat = 2 ^ 32 - 64 := by decide
  refine ⟨?_, fun hge => ?_, fun hlt => ?_⟩
  · rw [advanced_phase, BitVec.sub_eq_add_neg]
    rfl
  · rw [advanced_of_wraps (wraps_add_eq_true_iff.2 (by omega)), retarget_nextvoice]
  · rw [advanced_of_not_wraps (wraps_add_eq_false_iff.2 (by omega))]
    exact ⟨rfl, rfl⟩

/-! ## The retarget of a wrap -/

/-- With a carry ADV retargets the slot after `NEXTVOICE` of the voice file MIX left. -/
theorem rendered_of_carry (x : α) {q : U32} {o : Oscillator α} (h : 2 ^ 32 ≤ o.phase.toNat + q.toNat) :
    rendered N x q o = { retarget N (o.phase + q) q (mixFilt N x o) with phase := o.phase + q } :=
  advanced_of_wraps (o := mixFilt N x o) (wraps_add_eq_true_iff.2 h)

theorem getVoice_rendered_same (x : α) {q : U32} {o : Oscillator α} (h : 2 ^ 32 ≤ o.phase.toNat + q.toNat) :
    getVoice (rendered N x q o).voice (o.nextvoice + 1#3) =
      { idx := retargetIdx (o.phase + q) q, frac := retargetFrac N (o.phase + q) q, amp := o.polscale } :=
  getVoice_advanced_same (o := mixFilt N x o) (wraps_add_eq_true_iff.2 h)

/-- Settles O35: a TICK leaves the rendered oscillator, which a carry retargets in one slot and no carry retargets. -/
theorem tickRetargetsNextSlotOnWrap : Obligations.TickRetargetsNextSlotOnWrap := by
  intro f s t h q d p
  obtain ⟨c, hc, rfl⟩ := exec_eq_next.1 h
  obtain ⟨x, y, -, -, rfl⟩ := tick_ok_rendered hc
  simp only [withOsc_osc, emit_phase, emit_nextvoice, emit_voice, emit_polscale]
  have hp : (s.osc.phase + q).toNat = p := BitVec.toNat_add _ _
  refine ⟨(congrArg BitVec.toNat (advanced_phase _ _)).trans hp, fun hcarry => ?_, fun hsum => ?_⟩
  · have hnext : (rendered num32 x q s.osc).nextvoice = s.osc.nextvoice + 1#3 := by rw [rendered_of_carry x hcarry]; rfl
    rw [hnext]
    refine ⟨BitVec.toNat_add _ _, ?_, fun j hj => getVoice_rendered_other _ _ _ hj, ?_⟩
    · rw [getVoice_rendered_same x hcarry, retargetIdx, retargetFrac, hp]
      rfl
    · rw [rendered_of_carry x hcarry]
      rfl
  · rw [rendered_of_no_carry x hsum]
    exact ⟨rfl, rfl, getVoice_mixFilt (N := num32) x s.osc⟩

/-- The sum that carried is below the increment (41_phase_accumulator.md R127). -/
theorem toNat_add_lt_of_carry {p q : U32} (h : 2 ^ 32 ≤ p.toNat + q.toNat) : (p + q).toNat < q.toNat := by
  have hp := p.isLt
  rw [BitVec.toNat_add]
  omega

/-- Settles O36: the new phase is below `q = 64 · d`, so its quotient by `d` is below 64. -/
theorem retargetStaysInFirstSample : Obligations.RetargetStaysInFirstSample := by
  intro p q hq hcarry
  have hp := p.isLt
  have hd : decimatedIncrement q * 64 = q.toNat := Nat.div_mul_cancel (Nat.dvd_of_mod_eq_zero hq)
  have hlt := toNat_add_lt_of_carry hcarry
  have hpos : 0 < decimatedIncrement q := by omega
  have hquot : (p + q).toNat / decimatedIncrement q < 64 := Nat.div_lt_of_lt_mul (hd.symm ▸ hlt)
  refine ⟨by omega, hpos, hlt, Nat.le_of_lt_succ hquot, ?_, Nat.mod_lt _ hpos⟩
  rw [retargetIdx, BitVec.toNat_ofNat, Nat.mod_eq_of_lt (hquot.trans (by decide))]

/-- Settles O37: the remainder is below the divisor, and rounding keeps that order. -/
theorem retargetFractionInUnit : Obligations.RetargetFractionInUnit := by
  intro p q hq
  have hpos : 1 ≤ decimatedIncrement q := Nat.div_pos hq (by decide)
  have hlt : decimatedIncrement q < 2 ^ 127 := (Nat.div_le_self _ _).trans_lt (q.isLt.trans (by decide))
  exact ⟨isFinite_retargetFrac p hq, Binary32.toRat_div_ofNat_mem_unit (Nat.mod_lt _ hpos).le hpos hlt⟩

/-! ## The time between wraps -/

theorem toNat_add_mul_ofNat (r q : U32) (k : Nat) :
    (r + q * BitVec.ofNat 32 k).toNat = (r.toNat + q.toNat * k) % 2 ^ 32 := by
  simp

/-- Whether the sample after `k` adds that did not carry wraps. -/
theorem wraps_add_mul {r q : U32} {k : Nat} (h : r.toNat + q.toNat * k < 2 ^ 32) :
    wraps (r + q * BitVec.ofNat 32 k) (r + q * BitVec.ofNat 32 k + q) =
      decide (2 ^ 32 ≤ r.toNat + q.toNat * (k + 1)) := by
  rw [wraps_add_eq, toNat_add_mul_ofNat, Nat.mod_eq_of_lt h, Nat.mul_succ, Nat.add_assoc]

/-- The number of adds of `q` from a phase below `q` to the next carry (41_phase_accumulator.md R134). -/
theorem gap_eq_floor_or_ceil {r q : Nat} (hr : r < q) (hq : q < 2 ^ 32) :
    (2 ^ 32 - 1 - r) / q + 1 = 2 ^ 32 / q ∨ (2 ^ 32 - 1 - r) / q + 1 = (2 ^ 32 + q - 1) / q := by
  have hpos : 0 < q := by omega
  have hsucc : (2 ^ 32 - 1 - r) / q + 1 = (2 ^ 32 - 1 - r + q) / q := (Nat.add_div_right _ hpos).symm
  have hfloor : 2 ^ 32 / q ≤ (2 ^ 32 - 1 - r + q) / q := Nat.div_le_div_right (by omega)
  have hceil : (2 ^ 32 - 1 - r + q) / q ≤ (2 ^ 32 + q - 1) / q := Nat.div_le_div_right (by omega)
  have hbetween : (2 ^ 32 + q - 1) / q ≤ (2 ^ 32 + q) / q := Nat.div_le_div_right (by omega)
  rw [Nat.add_div_right _ hpos] at hbetween
  omega

/-- Settles O38: after a wrap the phase is some `r` below `q`, and the adds that do not carry are those that fit into
`2^32 - 1 - r`. -/
theorem wrapGapIsFloorOrCeil : Obligations.WrapGapIsFloorOrCeil := by
  intro p q hq hwrap phaseAfter
  have hr : (p + q).toNat < q.toNat := toNat_add_lt_of_carry (wraps_add_eq_true_iff.1 hwrap)
  have hlast := Nat.mul_div_le (2 ^ 32 - 1 - (p + q).toNat) q.toNat
  have hnext := Nat.lt_mul_div_succ (2 ^ 32 - 1 - (p + q).toNat) (Nat.zero_lt_of_lt hr)
  have hgap := gap_eq_floor_or_ceil hr q.isLt
  generalize (2 ^ 32 - 1 - (p + q).toNat) / q.toNat = n at hlast hnext hgap
  have hrlt := (p + q).isLt
  refine ⟨n + 1, by omega, hgap, ?_, fun j hj => ?_⟩
  · rw [Nat.add_sub_cancel]
    exact (wraps_add_mul (by omega)).trans (decide_eq_true (by omega))
  · have hstep : q.toNat * (j + 1) ≤ q.toNat * n := Nat.mul_le_mul_left _ (by omega)
    have hj' : q.toNat * j ≤ q.toNat * (j + 1) := Nat.mul_le_mul_left _ (by omega)
    exact (wraps_add_mul (by omega)).trans (decide_eq_false (by omega))

/-! ## Any number of retargets -/

/-- One retarget after the other, each with its new phase and its increment. -/
def retargets (N : Num α) (ws : List (U32 × U32)) (o : Oscillator α) : Oscillator α :=
  ws.foldl (fun o w => retarget N w.1 w.2 o) o

theorem retargets_concat (ws : List (U32 × U32)) (w : U32 × U32) (o : Oscillator α) :
    retargets N (ws ++ [w]) o = retarget N w.1 w.2 (retargets N ws o) :=
  List.foldl_concat ..

theorem retargets_alt (ws : List (U32 × U32)) (o : Oscillator α) : (retargets N ws o).alt = o.alt := by
  induction ws using List.reverseRecOn with
  | nil => rfl
  | append_singleton ws w ih => rw [retargets_concat, retarget_alt, ih]

/-- The slots are taken round-robin (41_phase_accumulator.md R126). -/
theorem toNat_retargets_nextvoice (ws : List (U32 × U32)) (o : Oscillator α) :
    (retargets N ws o).nextvoice.toNat = (o.nextvoice.toNat + ws.length) % 8 := by
  induction ws using List.reverseRecOn with
  | nil => exact (Nat.mod_eq_of_lt o.nextvoice.isLt).symm
  | append_singleton ws w ih =>
    rw [retargets_concat, retarget_nextvoice, BitVec.toNat_add, BitVec.toNat_ofNat, ih, List.length_append,
      List.length_singleton]
    omega

/-- Under a set `ALT` the polarity is that of the parity of the count (41_phase_accumulator.md R128). -/
theorem retargets_polscale (ws : List (U32 × U32)) (o : Oscillator F32) :
    (retargets num32 ws o).polscale =
      if o.alt = true ∧ ws.length % 2 = 1 then Binary32.neg o.polscale else o.polscale := by
  induction ws using List.reverseRecOn with
  | nil => simp [retargets]
  | append_singleton ws w ih =>
    rw [retargets_concat, retarget_polscale, retargets_alt, ih, num32_neg, List.length_append, List.length_singleton]
    cases o.alt with
    | false => simp
    | true =>
      obtain heven | hodd := Nat.mod_two_eq_zero_or_one ws.length
      · simp [heven, Nat.succ_mod_two_eq_one_iff.2 heven]
      · simp [hodd, Nat.succ_mod_two_eq_zero_iff.2 hodd]

/-- Settles O39: the slot and the polarity after `n + 1` retargets are those of the whole list, and the amplitude stored is
the polarity before the last. -/
theorem retargetsRoundRobinAlternating : Obligations.RetargetsRoundRobinAlternating := by
  intro ws w o before after
  have hafter : after = retargets num32 (ws ++ [w]) o := (retargets_concat ws w o).symm
  have hlen : (ws ++ [w]).length = ws.length + 1 := List.length_append
  refine ⟨?_, ?_, ?_⟩
  · rw [hafter, toNat_retargets_nextvoice, hlen, Nat.add_assoc]
  · exact (congrArg Voice.amp (getVoice_putVoice_same _ _ _)).trans (retargets_polscale ws o)
  · rw [hafter, retargets_polscale, hlen]

end Sys2Proof.Machine
end

section
/-! Playback and mixing (42_playback_mixer.md): what a silent voice adds in binary32, the mixer sum as a fold over the
slots, and how far any number of advances takes a voice. -/

namespace Sys2Proof.Binary32

/-- A zero of either sign is neutral on the right of `+0` (43_post_filter.md R174). -/
theorem zero_add_pack_zero (s : Bool) : add 0#32 (pack s 0) = 0#32 := by
  cases s <;> decide

/-- `+0` times a finite value is a zero with the sign of that value. -/
theorem zero_mul_of_isFinite {x : F32} (h : isFinite x = true) : mul 0#32 x = pack (signBit x) 0 := by
  have hunits : units 0#32 = 0 := by decide
  have hsign : signBit 0#32 = false := by decide
  rw [mul_of_isFinite (by decide) h, hunits, hsign, Nat.zero_mul, roundUnits_zero, Bool.false_bne]

end Sys2Proof.Binary32

namespace Sys2Proof.Machine

open Sys2Proof.Safety

variable {α : Type} {N : Num α}

/-! ## The two reads of a voice -/

theorem readImpulse_of_memRead {m : Memory α} {i : Nat} {a : α} (hi : i < 4096) (ha : memRead m i = some a) :
    readImpulse m i = .ok a := by
  rw [readImpulse, if_neg hi.not_ge, ha]

/-- A voice whose index is at most 4094 reads the entries there and one further on (42_playback_mixer.md R141). -/
theorem voiceReads_of_memRead {m : Memory α} {v : Voice α} {a b : α} (hv : v.idx.toNat ≤ 4094)
    (ha : memRead m v.idx.toNat = some a) (hb : memRead m (v.idx.toNat + 1) = some b) :
    voiceReads m v = .ok (a, b) := by
  simp only [voiceReads, readImpulse_of_memRead (by omega) ha, readImpulse_of_memRead (by omega) hb]

/-- A full space has an entry for both reads. -/
theorem exists_memRead_pair {m : Memory F32} (hm : SpaceFull m) {v : Voice F32} (hv : v.idx.toNat ≤ 4094) :
    ∃ a b, memRead m v.idx.toNat = some a ∧ memRead m (v.idx.toNat + 1) = some b := by
  obtain ⟨a, ha, -⟩ := hm v.idx.toNat (by omega)
  obtain ⟨b, hb, -⟩ := hm (v.idx.toNat + 1) (by omega)
  exact ⟨a, b, ha, hb⟩

/-! ## The mixer sum -/

theorem addVoice_of_voiceReads {m : Memory α} {v : Voice α} {ab : α × α} (h : voiceReads m v = .ok ab) (sum : α) :
    addVoice N m sum v = .ok (N.add sum (N.mul v.amp (interpolate N v.frac ab.1 ab.2))) := by
  simp only [addVoice, h]

/-- Where every voice adds what `f` says, the mixer sum is the fold of `f` in slot order (42_playback_mixer.md R142). -/
theorem sumVoices_eq_foldl {m : Memory α} {f : α → Voice α → α} {vs : List (Voice α)}
    (h : ∀ v ∈ vs, ∀ sum, addVoice N m sum v = .ok (f sum v)) (x : α) : sumVoices N m vs x = .ok (vs.foldl f x) := by
  induction vs generalizing x with
  | nil => rfl
  | cons v vs ih =>
    obtain ⟨hv, hvs⟩ := List.forall_mem_cons.1 h
    simp only [sumVoices, hv x]
    exact ih hvs _

/-- A sum to which no voice adds anything stays as it is. -/
theorem sumVoices_fixed {m : Memory α} {vs : List (Voice α)} {x : α} (h : ∀ v ∈ vs, addVoice N m x v = .ok x) :
    sumVoices N m vs x = .ok x := by
  induction vs with
  | nil => rfl
  | cons v vs ih =>
    obtain ⟨hv, hvs⟩ := List.forall_mem_cons.1 h
    simp only [sumVoices, hv]
    exact ih hvs

theorem mixerSum_eq (s : State) : mixerSum s = sumVoices num32 s.kernel.impulse s.osc.voice.toList 0#32 := by
  have h0 : num32.ofNat 0 = 0#32 := by decide
  rw [mixerSum, h0]

/-- Settles O40: over a full table every voice reads its two entries, so the sum is the fold of what each adds. -/
theorem mixerSumsInSlotOrder : Obligations.MixerSumsInSlotOrder := by
  intro s hfull hidx
  rw [mixerSum_eq]
  refine sumVoices_eq_foldl (fun v hv sum => ?_) _
  obtain ⟨a, b, ha, hb⟩ := exists_memRead_pair hfull (hidx v hv)
  rw [addVoice_of_voiceReads (voiceReads_of_memRead (hidx v hv) ha hb), ha, hb]
  rfl

/-- A voice of amplitude `+0` with a finite interpolated value leaves a sum of `+0` at `+0`. -/
theorem addVoice_silent {m : Memory F32} {v : Voice F32} {ab : F32 × F32} (h : voiceReads m v = .ok ab)
    (hamp : v.amp = 0#32) (hfin : Binary32.isFinite (interpolate num32 v.frac ab.1 ab.2) = true) :
    addVoice num32 m 0#32 v = .ok 0#32 := by
  rw [addVoice_of_voiceReads h, hamp, num32_add, num32_mul, Binary32.zero_mul_of_isFinite hfin,
    Binary32.zero_add_pack_zero]

/-- Settles O44: each voice's product is a zero of either sign, and `+0` plus either is `+0`. -/
theorem silentVoicesMixToZero : Obligations.SilentVoicesMixToZero := by
  intro s hfull hsilent
  rw [mixerSum_eq]
  refine sumVoices_fixed fun v hv => ?_
  obtain ⟨hidx, hamp, hfin⟩ := hsilent v hv
  obtain ⟨a, b, ha, hb⟩ := exists_memRead_pair hfull hidx
  exact addVoice_silent (voiceReads_of_memRead hidx ha hb) hamp (hfin a b ha hb)

/-! ## One advance -/

theorem advanceVoice_of_frozen {v : Voice α} (h : 4030 < v.idx.toNat) : advanceVoice v = v := by
  have hidx : (advanceVoice v).idx = v.idx :=
    BitVec.eq_of_toNat_eq ((toNat_advanceVoice_idx v).trans (if_neg h.not_ge))
  rw [advanceVoice_eq, hidx]

theorem toNat_advanceVoice_idx_le {v : Voice α} (h : v.idx.toNat ≤ 4094) : (advanceVoice v).idx.toNat ≤ 4094 := by
  rw [toNat_advanceVoice_idx]
  split <;> omega

/-- Settles O41: the test `IDX + 65 < 4096` is `IDX ≤ 4030`, and MIX maps the advance over the voice file. -/
theorem voiceAdvancesOrFreezes : Obligations.VoiceAdvancesOrFreezes := by
  refine ⟨fun v h => ⟨?_, advanceVoice_frac v, advanceVoice_amp v⟩, fun v h => advanceVoice_of_frozen (by omega),
    fun v h => toNat_advanceVoice_idx_le h, fun m vs vs' x h j => ?_⟩
  · rw [toNat_advanceVoice_idx, if_pos (by omega)]
  · obtain ⟨-, rfl⟩ := mix_eq_ok.1 h
    exact getVoice_mapVoices _ _ _

/-! ## Any number of advances -/

@[simp] theorem iterate_advanceVoice_frac (k : Nat) (v : Voice α) : (advanceVoice^[k] v).frac = v.frac :=
  Function.Iterate.rec (fun w => w.frac = v.frac) rfl (fun w h => (advanceVoice_frac w).trans h) k

@[simp] theorem iterate_advanceVoice_amp (k : Nat) (v : Voice α) : (advanceVoice^[k] v).amp = v.amp :=
  Function.Iterate.rec (fun w => w.amp = v.amp) rfl (fun w h => (advanceVoice_amp w).trans h) k

/-- From any start a voice advances as often as 64 goes into the distance to 4094, and then stays
(42_playback_mixer.md R146). -/
theorem toNat_iterate_advanceVoice_idx (k : Nat) (v : Voice α) :
    (advanceVoice^[k] v).idx.toNat = v.idx.toNat + 64 * min k ((4094 - v.idx.toNat) / 64) := by
  induction k with
  | zero => simp
  | succ k ih =>
    rw [Function.iterate_succ_apply', toNat_advanceVoice_idx, ih]
    split <;> omega

/-- Settles O42: 64 goes 63 times into 4094 less a start index up to 62, and 62 times into 4094 less 63. -/
theorem voiceLifetime : Obligations.VoiceLifetime := by
  intro v k hv
  refine ⟨?_, iterate_advanceVoice_frac k v, iterate_advanceVoice_amp k v⟩
  rw [toNat_iterate_advanceVoice_idx]
  split
  case isTrue h => rw [show (4094 - v.idx.toNat) / 64 = 63 by omega]
  case isFalse h => rw [show v.idx.toNat = 63 by omega]

theorem iterate_advanceVoice_eq (k : Nat) (v : Voice α) :
    advanceVoice^[k] v = { v with idx := (advanceVoice^[k] v).idx } := by
  rw [← iterate_advanceVoice_frac k v, ← iterate_advanceVoice_amp k v]

/-- No voice advances more than 63 times, wherever it starts. -/
theorem iterate_advanceVoice_of_le {k : Nat} (hk : 63 ≤ k) (v : Voice α) :
    advanceVoice^[k] v = advanceVoice^[63] v := by
  have hidx : (advanceVoice^[k] v).idx = (advanceVoice^[63] v).idx := by
    apply BitVec.eq_of_toNat_eq
    rw [toNat_iterate_advanceVoice_idx, toNat_iterate_advanceVoice_idx]
    omega
  rw [iterate_advanceVoice_eq k, hidx, ← iterate_advanceVoice_eq]

theorem getElem_iterate_mapVoices (f : Voice α → Voice α) (k : Nat) (vs : Vector (Voice α) 8) (i : Nat) (h : i < 8) :
    ((mapVoices f)^[k] vs)[i] = f^[k] vs[i] := by
  induction k with
  | zero => rfl
  | succ k ih => rw [Function.iterate_succ_apply', Function.iterate_succ_apply', getElem_mapVoices, ih]

/-- Settles O43: after 63 advances the voice file itself no longer changes. -/
theorem mixSettlesToConstant : Obligations.MixSettlesToConstant := by
  intro m vs k hk
  have hvs : (mapVoices advanceVoice)^[k] vs = (mapVoices advanceVoice)^[63] vs := by
    ext1 i hi
    rw [getElem_iterate_mapVoices, getElem_iterate_mapVoices, iterate_advanceVoice_of_le hk]
  rw [hvs]

end Sys2Proof.Machine
end

section
/-! FILT (43_post_filter.md section 3): a section line by line in binary32, and in exact arithmetic with constant
coefficients (section 4). -/

namespace Sys2Proof.Machine

variable (fns : NumFns ℚ)

/-! ## In binary32 -/

/-- The factor 0.05 of R166, rounded once. -/
theorem num32_lit_one_twentieth : num32.lit 1 20 = 0x3D4CCCCD#32 := by decide

theorem smooth_num32 (tgt cur : F32) :
    smooth num32 tgt cur = Binary32.add cur (Binary32.mul 0x3D4CCCCD#32 (Binary32.sub tgt cur)) := by
  rw [smooth, num32_lit_one_twentieth]
  rfl

/-- Settles O45: the lines of a section are those of its definition, once the factor 0.05 is its pattern. -/
theorem filterSectionEquations : Obligations.FilterSectionEquations := by
  refine ⟨fun x s => ?_, fun x v => rfl⟩
  simp only [← smooth_num32]
  rfl

/-! ## In exact arithmetic -/

theorem smooth_numExact (tgt cur : ℚ) : smooth (numExact fns) tgt cur = 19 / 20 * cur + 1 / 20 * tgt := by
  simp only [smooth, numExact_add, numExact_mul, numExact_lit, numExact_sub]
  push_cast
  ring

/-- Settles O48: each step multiplies the distance to the target by 19/20. -/
theorem smoothingIsGeometric : Obligations.SmoothingIsGeometric := by
  intro fns tgt cur k
  induction k with
  | zero => rw [Function.iterate_zero_apply, pow_zero, one_mul]
  | succ k ih =>
    rw [Function.iterate_succ_apply', smooth_numExact, pow_succ', mul_assoc, ← ih]
    ring

theorem smoothCoeffs_numExact_self (c : Coeffs ℚ) : smoothCoeffs (numExact fns) c c = c := by
  have hself (x : ℚ) : smooth (numExact fns) x x = x := by
    rw [smooth_numExact]
    ring
  simp only [smoothCoeffs, hself]

/-- One sample of a section whose current values have reached their targets (R167). -/
theorem filtSection_numExact_constant (c : Coeffs ℚ) (s1 s2 x : ℚ) :
    filtSection (numExact fns) x { tgt := c, cur := c, s1 := s1, s2 := s2 } =
      (c.c0 * x + c.c1 * s1 + c.c2 * s2,
        { tgt := c, cur := c, s1 := c.ar * s1 + c.ai * s2 + x, s2 := c.ar * s2 - c.ai * s1 }) := by
  rw [filtSection, smoothCoeffs_numExact_self]
  rfl

/-- Settles O46: the three samples written out are polynomials in the state and the inputs, and the equation is an
identity between them; so are the outputs of a section and of its conjugate. -/
theorem sectionDifferenceEquation : Obligations.SectionDifferenceEquation := by
  refine ⟨fun fns c s1 s2 x0 x1 x2 => ?_, fun fns c s1 s2 x => ?_⟩
  · simp only [filtSection_numExact_constant]
    ring
  · simp only [filtSection_numExact_constant]
    exact ⟨by ring, by ring, by ring⟩

/-- The squared modulus is convex: `|19/20 c + 1/20 t|² ≤ 19/20 |c|² + 1/20 |t|²`. -/
theorem normSq_smoothCoeffs_le (t c : Coeffs ℚ) :
    (smoothCoeffs (numExact fns) t c).ar * (smoothCoeffs (numExact fns) t c).ar +
        (smoothCoeffs (numExact fns) t c).ai * (smoothCoeffs (numExact fns) t c).ai ≤
      19 / 20 * (c.ar * c.ar + c.ai * c.ai) + 1 / 20 * (t.ar * t.ar + t.ai * t.ai) := by
  simp only [smoothCoeffs, smooth_numExact]
  linarith [mul_self_nonneg (t.ar - c.ar), mul_self_nonneg (t.ai - c.ai)]

/-- Settles O47: with input 0 the state is multiplied by the pole as a complex number, so its squared modulus by the
pole's; a smoothing step is a convex combination of the two poles. -/
theorem poleGovernsSectionState : Obligations.PoleGovernsSectionState := by
  refine ⟨fun fns c s1 s2 => ?_, fun fns t c ht hc => ?_⟩
  · simp only [filtSection_numExact_constant]
    ring
  · exact (normSq_smoothCoeffs_le fns t c).trans_lt (by linarith)

end Sys2Proof.Machine
end

section
/-! The lines of the design step (43_post_filter.md R157 to R162) in exact arithmetic. -/

namespace Sys2Proof.Machine

variable (fns : NumFns ℚ)

/-! ## The clamped fraction (R157) -/

theorem designFraction_numExact (sr g : ℚ) :
    designFraction (numExact fns) sr g =
      if 85 / 100 * g / sr < 1 / 10000 then 1 / 10000
      else if 1 / 2 - 1 / 10000 < 85 / 100 * g / sr then 1 / 2 - 1 / 10000 else 85 / 100 * g / sr := by
  simp [designFraction, clamp, designEps, designTop]

/-- Settles O21: the quotient `0.85 g / SR` is compared with the two ends of the interval. -/
theorem designFractionClamped : Obligations.DesignFractionClamped := by
  intro fns sr g hsr
  have hlow (h : g ≤ 0) : 85 / 100 * g / sr < 1 / 10000 := by
    rw [div_lt_iff₀ hsr]
    linarith
  have hhigh (h : sr / 2 / (85 / 100) ≤ g) : 1 / 2 ≤ 85 / 100 * g / sr := by
    rw [le_div_iff₀ hsr]
    linarith
  have hbetween (h : sr / 10000 ≤ 85 / 100 * g) : 1 / 10000 ≤ 85 / 100 * g / sr := by
    rw [le_div_iff₀ hsr]
    linarith
  have hbetween' (h : 85 / 100 * g ≤ 4999 / 10000 * sr) : 85 / 100 * g / sr ≤ 4999 / 10000 := by
    rwa [div_le_iff₀ hsr]
  rw [designFraction_numExact]
  generalize 85 / 100 * g / sr = x at *
  refine ⟨?_, fun h => if_pos (hlow h), fun h => ?_, fun h h' => ?_⟩
  · split
    · norm_num
    · split <;> constructor <;> linarith
  · have := hhigh h
    rw [if_neg (by linarith), if_pos (by linarith)]
    norm_num
  · have := hbetween h
    have := hbetween' h'
    rw [if_neg (by linarith), if_neg (by linarith)]

/-! ## The bilinear transform (R160) -/

/-- `|1 − s/2|²`, the divisor of the bilinear transform. -/
def bilinearDen (s : Cx ℚ) : ℚ := (1 - s.re / 2) * (1 - s.re / 2) + s.im / 2 * (s.im / 2)

theorem bilinearDen_pos {s : Cx ℚ} (h : ¬(s.re = 2 ∧ s.im = 0)) : 0 < bilinearDen s := by
  have hre := mul_self_nonneg (1 - s.re / 2)
  have him := mul_self_nonneg (s.im / 2)
  refine lt_of_le_of_ne (add_nonneg hre him) fun h0 => h ?_
  obtain ⟨hre0, him0⟩ := (add_eq_zero_iff_of_nonneg hre him).1 h0.symm
  exact ⟨by linarith [mul_self_eq_zero.1 hre0], by linarith [mul_self_eq_zero.1 him0]⟩

theorem bilinear_re (s : Cx ℚ) :
    (bilinear (numExact fns) s).re = ((1 + s.re / 2) * (1 - s.re / 2) - s.im / 2 * (s.im / 2)) / bilinearDen s := by
  simp [bilinear, cxDiv, bilinearDen, sub_eq_add_neg]

theorem bilinear_im (s : Cx ℚ) : (bilinear (numExact fns) s).im = s.im / bilinearDen s := by
  simp only [bilinear, cxDiv, bilinearDen, numExact_add, numExact_sub, numExact_mul, numExact_div, numExact_neg,
    numExact_ofNat]
  push_cast
  ring

/-- `|a|² = 1 + 2 s.re / |1 − s/2|²`. -/
theorem normSq_bilinear {s : Cx ℚ} (h : bilinearDen s ≠ 0) :
    (bilinear (numExact fns) s).re * (bilinear (numExact fns) s).re +
      (bilinear (numExact fns) s).im * (bilinear (numExact fns) s).im = 1 + 2 * s.re / bilinearDen s := by
  rw [bilinear_re, bilinear_im]
  field_simp
  rw [bilinearDen]
  ring

/-- Settles O22: over the positive `|1 − s/2|²`, the squared modulus less 1 is `2 s.re` and the imaginary part `s.im`. -/
theorem poleInsideCircleIffLeftHalf : Obligations.PoleInsideCircleIffLeftHalf := by
  intro fns s hs a
  have hden := bilinearDen_pos hs
  rw [normSq_bilinear fns hden.ne', bilinear_im]
  refine ⟨?_, div_pos_iff_of_pos_right hden, div_eq_zero_iff.trans (or_iff_left hden.ne')⟩
  rw [← lt_sub_iff_add_lt', sub_self, div_lt_iff₀ hden, zero_mul]
  constructor <;> intro h <;> linarith

/-! ## The gains (R161, R162) -/

theorem poleTargets_c0 (a : Cx ℚ) :
    (poleTargets (numExact fns) a).c0 = ((1 + a.re) * (1 + a.re) + a.im * a.im) / 4 := by
  simp [poleTargets, nyquistGain]

theorem poleTargets_c1 (a : Cx ℚ) :
    (poleTargets (numExact fns) a).c1 = 2 * (a.re - 1) * (poleTargets (numExact fns) a).c0 := by
  simp [poleTargets, gain1, div_eq_mul_inv]

theorem poleTargets_c2_mul_im {a : Cx ℚ} (h : a.im ≠ 0) :
    (poleTargets (numExact fns) a).c2 * a.im =
      (a.re * a.re + a.im * a.im - 1 - 2 * (a.re - 1) * a.re) * (poleTargets (numExact fns) a).c0 := by
  simp only [poleTargets, gain2, gain1, numExact_add, numExact_sub, numExact_mul, numExact_div, numExact_ofNat]
  push_cast
  field_simp

/-- Settles O23: `C1` and `C2 · AI` are multiples of `C0`, and the multiples make the numerator `C0 · (1, −2, 1)`; `C0`
is a quarter of the denominator at `z = −1`. -/
theorem sectionZeroAtDcUnityAtNyquist : Obligations.SectionZeroAtDcUnityAtNyquist := by
  intro fns a ha c n1 n2
  have har : c.ar = a.re := rfl
  have hai : c.ai = a.im := rfl
  have hc1 : c.c1 = 2 * (a.re - 1) * c.c0 := poleTargets_c1 fns a
  have hc2 : c.c2 * a.im = _ := poleTargets_c2_mul_im fns ha
  have hn1 : n1 = -2 * c.c0 := by
    simp only [n1, har, hc1]
    ring
  have hn2 : n2 = c.c0 := by
    simp only [n2, har, hai, hc1, hc2]
    ring
  refine ⟨har, hai, hn1, hn2, by rw [hn1, hn2]; ring, ?_⟩
  rw [hn1, hn2, har, hai, show c.c0 = _ from poleTargets_c0 fns a]
  ring

end Sys2Proof.Machine
end

section
/-! The one rounding (43_post_filter.md R174, 00_scope.md R13): magnitudes rise with their bits, a ratio rounds up or
down at the midpoint of the two magnitudes around it, and so to the nearest. -/

namespace Sys2Proof.Binary32

/-! ## Magnitudes rise with their bits -/

/-- A magnitude pattern is an exponent and a significand, of 24 bits above the smallest exponent. -/
theorem exists_shift_quot (m : Nat) : ∃ sh q, m = sh * 2 ^ 23 + q ∧ q < 2 ^ 24 ∧ (sh = 0 ∨ 2 ^ 23 ≤ q) := by
  rcases Nat.lt_or_ge m (2 ^ 23) with hm | hm
  · exact ⟨0, m, by omega, by omega, Or.inl rfl⟩
  · exact ⟨m / 2 ^ 23 - 1, m % 2 ^ 23 + 2 ^ 23, by omega, by omega, Or.inr (Nat.le_add_left _ _)⟩

/-- The next pattern has the next significand at the same exponent, carries included. -/
theorem unitsOfBits_succ {sh q : Nat} (hq : q < 2 ^ 24) (hsh : sh = 0 ∨ 2 ^ 23 ≤ q) :
    unitsOfBits (sh * 2 ^ 23 + q + 1) = (q + 1) * 2 ^ sh := by
  rw [add_assoc]
  exact unitsOfBits_combine hq (hsh.imp_right Nat.le_succ_of_le)

theorem unitsOfBits_strictMono : StrictMono unitsOfBits := by
  refine strictMono_nat_of_lt_succ fun m => ?_
  obtain ⟨sh, q, rfl, hq, hsh⟩ := exists_shift_quot m
  rw [unitsOfBits_combine hq.le hsh, unitsOfBits_succ hq hsh]
  exact Nat.mul_lt_mul_of_pos_right (Nat.lt_succ_self q) (Nat.two_pow_pos sh)

theorem unitsOfBits_cast_mono {i j : Nat} (h : i ≤ j) : (unitsOfBits i : ℚ) ≤ unitsOfBits j :=
  Nat.cast_le.2 (unitsOfBits_strictMono.monotone h)

/-! ## The two magnitudes around a ratio -/

/-- The midpoint of two neighbouring magnitudes. -/
def midUnits (k : Nat) : ℚ := (unitsOfBits k + unitsOfBits (k + 1)) / 2

/-- Of the two magnitudes around `t`, the upper one above their midpoint, and on it where the lower one is odd. -/
def roundBetween (k : Nat) (t : ℚ) : Nat := if midUnits k < t ∨ (midUnits k = t ∧ k % 2 = 1) then k + 1 else k

theorem roundBetween_cases (k : Nat) (t : ℚ) :
    (roundBetween k t = k ∧ t ≤ midUnits k ∧ (midUnits k = t → k % 2 = 0)) ∨
    (roundBetween k t = k + 1 ∧ midUnits k ≤ t ∧ (midUnits k = t → k % 2 = 1)) := by
  unfold roundBetween
  split
  case isTrue h =>
    rcases h with hlt | ⟨he, hodd⟩
    · exact Or.inr ⟨rfl, hlt.le, fun he => absurd he hlt.ne⟩
    · exact Or.inr ⟨rfl, he.le, fun _ => hodd⟩
  case isFalse h =>
    obtain ⟨hlt, heven⟩ := not_or.1 h
    exact Or.inl ⟨rfl, not_lt.1 hlt, fun he => Nat.mod_two_ne_one.1 fun hodd => heven ⟨he, hodd⟩⟩

/-- For a ratio the comparison with the midpoint is one of integers. -/
theorem roundBetween_div (k n : Nat) {d : Nat} (hd : 0 < d) :
    roundBetween k (n / d) =
      if (unitsOfBits k + unitsOfBits (k + 1)) * d < 2 * n ∨
        ((unitsOfBits k + unitsOfBits (k + 1)) * d = 2 * n ∧ k % 2 = 1) then k + 1 else k := by
  have hd0 : (0 : ℚ) < d := Nat.cast_pos.2 hd
  refine if_congr (or_congr ?_ (and_congr_left' ?_)) rfl rfl
  · rw [midUnits, div_lt_div_iff₀ two_pos hd0, mul_comm (n : ℚ)]
    exact_mod_cast Iff.rfl
  · rw [midUnits, div_eq_div_iff two_ne_zero hd0.ne', mul_comm (n : ℚ)]
    exact_mod_cast Iff.rfl

/-- The rounding picks one of the two magnitudes around the ratio, and the infinity from there up. -/
theorem roundUnits_eq_roundBetween (n : Nat) {d : Nat} (hd : 0 < d) :
    ∃ k, (unitsOfBits k : ℚ) ≤ n / d ∧ (n : ℚ) / d < unitsOfBits (k + 1) ∧
      roundUnits n d = min (roundBetween k (n / d)) 0x7F800000 := by
  obtain ⟨hq, hsh⟩ := quot_bounds n d
  have hd0 : (0 : ℚ) < d := Nat.cast_pos.2 hd
  have hdiv := Nat.div_add_mod n (d * 2 ^ roundShift n d)
  have hmod := Nat.mod_lt n (Nat.mul_pos hd (Nat.two_pow_pos (roundShift n d)))
  refine ⟨roundShift n d * 2 ^ 23 + n / (d * 2 ^ roundShift n d), ?_⟩
  rw [roundUnits_eq, roundQuot, roundBetween_div _ _ hd, le_div_iff₀ hd0, div_lt_iff₀ hd0,
    unitsOfBits_combine hq.le hsh, unitsOfBits_succ hq hsh]
  generalize roundShift n d = sh at *
  generalize n / (d * 2 ^ sh) = q at *
  generalize n % (d * 2 ^ sh) = r at *
  have hlow : q * 2 ^ sh * d = d * 2 ^ sh * q := by ring
  have hhigh : (q + 1) * 2 ^ sh * d = d * 2 ^ sh * q + d * 2 ^ sh := by ring
  have hmid : (q * 2 ^ sh + (q + 1) * 2 ^ sh) * d = 2 * (d * 2 ^ sh * q) + d * 2 ^ sh := by ring
  rw [hmid]
  norm_cast
  rw [hlow, hhigh]
  generalize d * 2 ^ sh * q = a at *
  generalize d * 2 ^ sh = b at *
  refine ⟨by omega, by omega, ?_⟩
  congr 1
  split <;> split <;> omega

/-! ## Nearest, ties to even -/

/-- Of two neighbours `a ≤ t ≤ b` the one on `t`'s side of their midpoint is nearer than all that lie outside them. -/
theorem abs_sub_le_of_le_mid {a b t v : ℚ} (ha : a ≤ t) (hmid : t ≤ (a + b) / 2) (hv : v ≤ a ∨ b ≤ v) :
    |a - t| ≤ |v - t| ∧ (|a - t| = |v - t| → v ≠ a → (a + b) / 2 = t) := by
  rw [abs_sub_comm a, abs_of_nonneg (sub_nonneg.2 ha)]
  rcases hv with hv | hv
  · rw [abs_sub_comm v, abs_of_nonneg (by linarith)]
    exact ⟨by linarith, fun h hne => absurd (by linarith) hne⟩
  · rw [abs_of_nonneg (by linarith)]
    exact ⟨by linarith, fun h _ => by linarith⟩

theorem abs_sub_le_of_mid_le {a b t v : ℚ} (hb : t ≤ b) (hmid : (a + b) / 2 ≤ t) (hv : v ≤ a ∨ b ≤ v) :
    |b - t| ≤ |v - t| ∧ (|b - t| = |v - t| → v ≠ b → (a + b) / 2 = t) := by
  rw [abs_of_nonneg (sub_nonneg.2 hb)]
  rcases hv with hv | hv
  · rw [abs_sub_comm v, abs_of_nonneg (by linarith)]
    exact ⟨by linarith, fun h _ => by linarith⟩
  · rw [abs_of_nonneg (by linarith)]
    exact ⟨by linarith, fun h hne => absurd (by linarith) hne⟩

/-- No magnitude up to the infinity's is nearer to a ratio than its rounding, and where another is as near the rounding
is even. -/
theorem roundUnits_nearest (n : Nat) {d m : Nat} (hd : 0 < d) (hm : m ≤ 0x7F800000) :
    |(unitsOfBits (roundUnits n d) : ℚ) - n / d| ≤ |(unitsOfBits m : ℚ) - n / d| ∧
    (|(unitsOfBits (roundUnits n d) : ℚ) - n / d| = |(unitsOfBits m : ℚ) - n / d| →
      (unitsOfBits m : ℚ) ≠ unitsOfBits (roundUnits n d) → roundUnits n d % 2 = 0) := by
  obtain ⟨k, hlow, hhigh, hround⟩ := roundUnits_eq_roundBetween n hd
  rw [hround]
  generalize (n : ℚ) / d = t at *
  rcases Nat.lt_or_ge k 0x7F800000 with hk | hk
  · have hout : (unitsOfBits m : ℚ) ≤ unitsOfBits k ∨ (unitsOfBits (k + 1) : ℚ) ≤ unitsOfBits m :=
      (Nat.lt_or_ge k m).symm.imp unitsOfBits_cast_mono unitsOfBits_cast_mono
    rcases roundBetween_cases k t with ⟨hr, hmid, heven⟩ | ⟨hr, hmid, hodd⟩
    · rw [hr, min_eq_left hk.le]
      obtain ⟨hnear, htie⟩ := abs_sub_le_of_le_mid hlow hmid hout
      exact ⟨hnear, fun h hne => heven (htie h hne)⟩
    · rw [hr, min_eq_left hk]
      obtain ⟨hnear, htie⟩ := abs_sub_le_of_mid_le hhigh.le hmid hout
      exact ⟨hnear, fun h hne => Nat.succ_mod_two_eq_zero_iff.2 (hodd (htie h hne))⟩
  · have hr : min (roundBetween k t) 0x7F800000 = 0x7F800000 := by
      have := roundBetween_cases k t
      omega
    have hinf := (unitsOfBits_cast_mono hk).trans hlow
    have hle := unitsOfBits_cast_mono hm
    rw [hr, abs_of_nonpos (sub_nonpos.2 hinf), abs_of_nonpos (sub_nonpos.2 (hle.trans hinf))]
    exact ⟨neg_le_neg (sub_le_sub_right hle t), fun _ _ => rfl⟩

/-- A ratio rounds to the infinity from the midpoint of the largest finite magnitude and the infinity's up. -/
theorem roundUnits_lt_iff (n : Nat) {d : Nat} (hd : 0 < d) :
    roundUnits n d < 0x7F800000 ↔ (n : ℚ) / d < midUnits 0x7F7FFFFF := by
  obtain ⟨k, hlow, hhigh, hround⟩ := roundUnits_eq_roundBetween n hd
  rw [hround, min_lt_iff, or_iff_left (lt_irrefl _)]
  generalize (n : ℚ) / d = t at *
  have hmax : (unitsOfBits 0x7F7FFFFF : ℚ) < unitsOfBits 0x7F800000 := Nat.cast_lt.2 (unitsOfBits_strictMono (by decide))
  have hcases := roundBetween_cases k t
  have hmid : midUnits 0x7F7FFFFF = (unitsOfBits 0x7F7FFFFF + unitsOfBits 0x7F800000) / 2 := rfl
  rcases lt_trichotomy k 0x7F7FFFFF with hk | rfl | hk
  · have hle := unitsOfBits_cast_mono (show k + 1 ≤ 0x7F7FFFFF from hk)
    exact iff_of_true (by omega) (by linarith)
  · rcases hcases with ⟨hr, hmid, heven⟩ | ⟨hr, hmid, -⟩
    · rw [hr]
      exact iff_of_true (by decide) (lt_of_le_of_ne hmid fun he => absurd (heven he.symm) (by decide))
    · rw [hr]
      exact iff_of_false (by decide) hmid.not_gt
  · have hle := unitsOfBits_cast_mono (show 0x7F800000 ≤ k from hk)
    exact iff_of_false (by omega) (by linarith)

/-! ## The rounding of a rational -/

theorem natAbs_num_div_den (q : ℚ) : (q.num.natAbs : ℚ) / q.den = |q| := by
  rw [Rat.abs_def, Rat.divInt_eq_div, Int.cast_natCast, Int.cast_natCast]

/-- The pattern of a rational: its sign, and the rounding of its magnitude in units. -/
theorem exists_ofRat_eq_pack (q : ℚ) :
    ∃ n d : Nat, 0 < d ∧ |q| = (n : ℚ) / d / 2 ^ 149 ∧ ofRat q = pack (decide (q < 0)) (roundUnits n d) := by
  have habs : |q| = ((q.num.natAbs * 2 ^ 149 : Nat) : ℚ) / q.den / 2 ^ 149 := by
    rw [div_right_comm, Nat.cast_mul, Nat.cast_pow, Nat.cast_ofNat, mul_div_cancel_right₀ _ (by positivity),
      natAbs_num_div_den]
  exact ⟨_, _, q.den_pos, habs, ofRat_eq_pack q.den_pos habs⟩

theorem eq_pack_zero_of_toRat_eq_zero {x : F32} (h : isFinite x = true) (h0 : toRat x = 0) :
    x = pack (signBit x) 0 := by
  have hm := roundUnits_units h
  rw [(toRat_eq_zero_iff x).1 h0, roundUnits_zero] at hm
  rw [hm, pack_signBit]

/-- A representable value rounds to its own pattern, the zero to `+0`. -/
theorem ofRat_toRat {x : F32} (h : isFinite x = true) :
    ofRat (toRat x) = if x = 0x80000000#32 then 0x00000000#32 else x := by
  by_cases h0 : toRat x = 0
  · rw [h0, eq_pack_zero_of_toRat_eq_zero h h0]
    cases signBit x <;> decide
  · have hne : x ≠ 0x80000000#32 := by
      rintro rfl
      exact h0 (toRat_pack_zero true)
    have habs : |toRat x| = (units x : ℚ) / (1 : Nat) / 2 ^ 149 := by rw [abs_toRat, Nat.cast_one, div_one]
    rw [if_neg hne, ofRat_eq_pack Nat.one_pos habs, roundUnits_units h, ← signBit_of_toRat_ne_zero h0, pack_signBit]

/-- A rational rounds to a finite value exactly below the midpoint of the largest one and `2^128`. -/
theorem isFinite_ofRat_iff (q : ℚ) : isFinite (ofRat q) = true ↔ |q| < 2 ^ 128 - 2 ^ 103 := by
  obtain ⟨n, d, hd, habs, hpack⟩ := exists_ofRat_eq_pack q
  have hmax : unitsOfBits 0x7F7FFFFF = (2 ^ 24 - 1) * 2 ^ 253 :=
    unitsOfBits_combine (sh := 253) (q := 2 ^ 24 - 1) (by decide) (Or.inr (by decide))
  have hinf : unitsOfBits (0x7F7FFFFF + 1) = 2 ^ 23 * 2 ^ 254 :=
    unitsOfBits_combine (sh := 254) (q := 2 ^ 23) (by decide) (Or.inr (by decide))
  have hmid : midUnits 0x7F7FFFFF / 2 ^ 149 = 2 ^ 128 - 2 ^ 103 := by
    rw [midUnits, hmax, hinf]
    norm_num
  rw [hpack, isFinite_pack _ (roundUnits_le n d), decide_eq_true_iff, roundUnits_lt_iff n hd, habs, ← hmid,
    div_lt_div_iff_of_pos_right (by positivity)]

theorem signBit_ofRat (q : ℚ) : signBit (ofRat q) = decide (q < 0) := by
  obtain ⟨n, d, -, -, hpack⟩ := exists_ofRat_eq_pack q
  rw [hpack, signBit_pack _ (roundUnits_lt_pow n d)]

theorem toRat_nonpos_of_signBit_true {x : F32} (h : signBit x = true) : toRat x ≤ 0 := by
  rw [toRat_of_signBit_true h, neg_nonpos]
  positivity

/-- A rational and its rounding have one sign, so that their distance is that of their magnitudes. -/
theorem abs_toRat_ofRat_sub (q : ℚ) : |toRat (ofRat q) - q| = |(|toRat (ofRat q)| - |q|)| := by
  have hsign := signBit_ofRat q
  rcases le_or_gt 0 q with hq | hq
  · rw [decide_eq_false hq.not_gt] at hsign
    rw [abs_of_nonneg hq, abs_of_nonneg (toRat_nonneg_of_signBit_false hsign)]
  · rw [decide_eq_true hq] at hsign
    rw [abs_of_neg hq, abs_of_nonpos (toRat_nonpos_of_signBit_true hsign), neg_sub_neg, abs_sub_comm]

theorem toRat_ofRat_zero : toRat (ofRat 0) = 0 := by
  rw [show ofRat 0 = pack false 0 by decide, toRat_pack_zero]

theorem getLsbD_zero_pack (s : Bool) {m : Nat} (h : m < 2 ^ 31) : (pack s m).getLsbD 0 = decide (m % 2 = 1) := by
  rw [BitVec.getLsbD, Nat.testBit_zero, toNat_pack s h, decide_eq_decide]
  split <;> omega

/-- The nearest magnitude, ties to even, of a finite pattern beside the rounded one. -/
theorem abs_ofRat_nearest (q : ℚ) {y : F32} (hy : isFinite y = true) :
    |(|toRat (ofRat q)| - |q|)| ≤ |(|toRat y| - |q|)| ∧
    (|(|toRat (ofRat q)| - |q|)| = |(|toRat y| - |q|)| → |toRat y| ≠ |toRat (ofRat q)| →
      (ofRat q).getLsbD 0 = false) := by
  obtain ⟨n, d, hd, habs, hpack⟩ := exists_ofRat_eq_pack q
  have hr := roundUnits_lt_pow n d
  have hm : y.toNat % 2 ^ 31 < 0x7F800000 := by rwa [isFinite_eq, decide_eq_true_iff] at hy
  have hdist (u : Nat) : |((u : ℚ) / 2 ^ 149 - |q|)| = |(u : ℚ) - n / d| / 2 ^ 149 := by
    rw [habs, ← sub_div, abs_div, abs_of_pos (show (0 : ℚ) < 2 ^ 149 by positivity)]
  obtain ⟨hnear, htie⟩ := roundUnits_nearest n hd hm.le
  rw [abs_toRat, abs_toRat, hpack, units_pack _ hr, units_eq y, hdist, hdist, getLsbD_zero_pack _ hr,
    div_le_div_iff_of_pos_right (by positivity), div_left_inj' (by positivity)]
  refine ⟨hnear, fun heq hne => decide_eq_false ?_⟩
  have := htie heq fun h => hne (by rw [h])
  omega

/-- Settles O53: the distance to the rounded value is that of the magnitudes, which the rounding makes least, and no
value is nearer than its magnitude. A value as near as the rounded one is of another magnitude, which the even last bit
decides, since the two values of one magnitude are equally near only to 0. -/
theorem roundingIsNearestEven : Obligations.RoundingIsNearestEven := by
  refine ⟨fun x hx hne => by rw [ofRat_toRat hx, if_neg hne], isFinite_ofRat_iff, fun q y _ hy => ?_⟩
  obtain ⟨hnear, htie⟩ := abs_ofRat_nearest q hy
  have hmag := abs_abs_sub_abs_le (toRat y) q
  rw [abs_toRat_ofRat_sub]
  refine ⟨hnear.trans hmag, fun heq hne => htie (hnear.antisymm (hmag.trans_eq heq.symm)) fun habs => hne ?_⟩
  rw [← abs_toRat_ofRat_sub] at heq
  rcases abs_eq_abs.1 habs with hsame | hopp
  · exact hsame
  · rw [hopp] at heq ⊢
    rcases abs_eq_abs.1 heq with h | h
    · linarith
    · obtain rfl : q = 0 := by linarith
      rw [toRat_ofRat_zero, neg_zero]

end Sys2Proof.Binary32
end

section
/-! The denormal guard and the smoothing step in binary32 (43_post_filter.md R166, R168). -/

namespace Sys2Proof.Binary32

/-! ## The guard -/

/-- The smallest normal value has `2^23` units. -/
theorem isSubnormal_iff_units (x : F32) : isSubnormal x = true ↔ units x ≠ 0 ∧ units x < 2 ^ 23 := by
  have hfrac : fracField x < 2 ^ 23 := by
    rw [fracField_eq]
    exact Nat.mod_lt _ (by decide)
  rw [isSubnormal, Bool.and_eq_true, beq_iff_eq, bne_iff_ne]
  rcases Nat.eq_zero_or_pos (expField x) with he | he
  · rw [units_of_expField_zero he]
    simp only [he, hfrac, true_and, and_true]
  · rw [units_of_expField_pos he]
    have := Nat.mul_le_mul (Nat.le_add_left (2 ^ 23) (fracField x)) (Nat.two_pow_pos (expField x - 1))
    omega

theorem isSubnormal_iff_toRat (x : F32) : isSubnormal x = true ↔ toRat x ≠ 0 ∧ |toRat x| < 1 / 2 ^ 126 := by
  have hbound : |toRat x| < 1 / 2 ^ 126 ↔ units x < 2 ^ 23 := by
    rw [abs_toRat, div_lt_iff₀ (by positivity), ← Nat.cast_lt (α := ℚ)]
    norm_num
  rw [isSubnormal_iff_units, hbound, ne_eq, ne_eq, toRat_eq_zero_iff]

@[simp] theorem isSubnormal_ftz (x : F32) : isSubnormal (ftz x) = false := by
  unfold ftz
  split
  · rfl
  · exact Bool.eq_false_of_not_eq_true ‹_›

/-! ## A value at its target -/

theorem sub_self_of_isFinite {x : F32} (h : isFinite x = true) : sub x x = 0#32 := by
  have hz : signedUnits x + signedUnits (neg x) = 0 := by rw [signedUnits_neg, add_neg_cancel]
  rw [sub, add_of_isFinite h ((isFinite_neg x).trans h), addFinite, if_pos hz, signBit_neg, Bool.and_not_self]
  rfl

/-- Adding `+0` changes no finite value but `-0`, whose sum with `+0` is `+0`. -/
theorem add_zero_of_isFinite {x : F32} (h : isFinite x = true) :
    add x 0#32 = if x = 0x80000000#32 then 0x00000000#32 else x := by
  have hzero : toRat 0#32 = 0 := toRat_pack_zero false
  by_cases h0 : toRat x = 0
  · rw [eq_pack_zero_of_toRat_eq_zero h h0]
    cases signBit x <;> decide
  · have hsum : toRat x + toRat 0#32 = toRat x := by rw [hzero, add_zero]
    rw [add_eq_ofRat h (by decide) (hsum.trans_ne h0), hsum, ofRat_toRat h]

end Sys2Proof.Binary32

namespace Sys2Proof.Machine

/-- Settles O49: at the target the difference is `+0`, so its product with 0.05 is, and adding that changes `-0` only. -/
theorem smoothingKeepsReachedTarget : Obligations.SmoothingKeepsReachedTarget := by
  intro c hc
  have hstep : Binary32.mul 0x3D4CCCCD#32 0#32 = 0#32 := by decide
  rw [smooth_num32, Binary32.sub_self_of_isFinite hc, hstep, Binary32.add_zero_of_isFinite hc]

/-- What a section outputs and stores has passed the guard. -/
theorem isSubnormal_filtSection (x : F32) (s : FilterSection F32) :
    Binary32.isSubnormal (filtSection num32 x s).1 = false ∧
      Binary32.isSubnormal (filtSection num32 x s).2.s1 = false ∧
      Binary32.isSubnormal (filtSection num32 x s).2.s2 = false :=
  ⟨Binary32.isSubnormal_ftz _, Binary32.isSubnormal_ftz _, Binary32.isSubnormal_ftz _⟩

/-- What FILT leaves in a section is what the section computes on some input. -/
theorem exists_getElem_filt {α : Type} (N : Num α) (x : α) (v : Vector (FilterSection α) 3) (k : Nat) (hk : k < 3) :
    ∃ y, (filt N x v).2[k] = (filtSection N y v[k]).2 := by
  match k, hk with
  | 0, _ => exact ⟨_, rfl⟩
  | 1, _ => exact ⟨_, rfl⟩
  | 2, _ => exact ⟨_, rfl⟩

/-- Settles O50: the guard tests for a subnormal, which is a nonzero magnitude below `2^-126`; every output and every
stored state of FILT is one that a section has guarded. -/
theorem filterNeverStoresDenormal : Obligations.FilterNeverStoresDenormal := by
  refine ⟨fun v _ => if_congr (Binary32.isSubnormal_iff_toRat v) rfl rfl, isSubnormal_filtSection, fun x v =>
    ⟨(isSubnormal_filtSection _ _).1, fun k hk => ?_⟩, numExact_ftz⟩
  obtain ⟨y, hy⟩ := exists_getElem_filt num32 x v k hk
  rw [hy]
  exact (isSubnormal_filtSection y v[k]).2

end Sys2Proof.Machine
end

section
/-! DESIGN (43_post_filter.md section 2): when it stores its targets, the formulas they come from, and the parameters
that are refused (R173 (a), 40_kernel_build.md R109 P6). -/

namespace Sys2Proof.Machine

open Sys2Proof.Safety

variable {α : Type} {N : Num α} {P : Params α}

/-! ## What is stored -/

/-- Settles O18: the finite operand and targets are what DESIGN needs, and its end is the oscillator with the targets
put. -/
theorem designWritesTargets : Obligations.DesignWritesTargets := by
  intro f0 s tg hset _ _ hf ht
  rw [exec_eq_command, onBlock_eq_next]
  exact ⟨_, design_eq_ok.2 ⟨hset, hf, hf, tg, ht, rfl⟩, rfl⟩

/-! ## The formulas -/

theorem getElem_designTargets (theta : Vector Angle 3) (sr g : α) (k : Nat) (hk : k < 3) :
    (designTargets N (angleValues N theta) sr g)[k] =
      sectionTargets N (prewarp N (designFraction N sr g)) (angleValue N theta[k]) := by
  match k, hk with
  | 0, _ => rfl
  | 1, _ => rfl
  | 2, _ => rfl

/-- Where the formulas in `NUM` have a value, section `k` has that of prototype angle `k`, with a pole off the real axis. -/
theorem getElem_of_designInNum_eq_ok {theta : Vector Angle 3} {mapped : Bool} {sr f0 : α} {t : Vector (Coeffs α) 3}
    (h : designInNum N theta mapped sr f0 = .ok t) (k : Nat) (hk : k < 3) :
    t[k] = sectionTargets N (prewarp N (designFraction N sr (designHz N mapped f0))) (angleValue N theta[k]) ∧
      isZero N t[k].ai = false := by
  unfold designInNum at h
  split at h
  · cases h
  · obtain ⟨rfl, h0, h1, h2⟩ := dividedTargets_eq_ok.1 h
    refine ⟨getElem_designTargets theta sr _ k hk, ?_⟩
    match k, hk with
    | 0, _ => exact h0
    | 1, _ => exact h1
    | 2, _ => exact h2

theorem getElem_roundedTargets (u : Vector (Coeffs ℚ) 3) (k : Nat) (hk : k < 3) :
    #v[roundCoeffs u[0], roundCoeffs u[1], roundCoeffs u[2]][k] = roundCoeffs u[k] := by
  match k, hk with
  | 0, _ => rfl
  | 1, _ => rfl
  | 2, _ => rfl

/-- The exact targets of section `k` of a DESIGN. -/
def exactTargets (f0 : F32) (s : State) (k : Nat) (hk : k < 3) : Coeffs ℚ :=
  sectionTargets numReference
    (prewarp numReference (designFraction numReference (Binary32.toRat s.osc.sr)
      (designHz numReference (designMaps s.osc.cfg) (Binary32.toRat f0))))
    (angleValue numReference s.theta[k])

/-- Stored targets are finite, and are the exact ones rounded once, which exist only with a pole off the real axis. -/
theorem getElem_designedTargets {f0 : F32} {s : State} {tg : Vector (Coeffs F32) 3} (h : designedTargets f0 s = .ok tg)
    (k : Nat) (hk : k < 3) :
    (exactTargets f0 s k hk).ai ≠ 0 ∧ coeffsFinite num32 tg[k] = true ∧ tg[k] = roundCoeffs (exactTargets f0 s k hk) := by
  obtain ⟨hmap, -⟩ := targets_eq_ok.1 h
  obtain ⟨-, -, u, hu, rfl⟩ := designReference_eq_ok.1 hmap
  have hfin : coeffsFinite num32 _ = true := coeffsFinite_of_targets h k hk
  obtain ⟨hexact, hai⟩ := getElem_of_designInNum_eq_ok hu k hk
  rw [numReference, isZero_numExact] at hai
  rw [exactTargets, ← hexact]
  exact ⟨of_decide_eq_false hai, hfin, getElem_roundedTargets u k hk⟩

theorem designHz_numExact (fns : NumFns ℚ) (cfg : OscParams) (f0 : ℚ) :
    designHz (numExact fns) (designMaps cfg) f0 =
      if cfg.noteMode = true ∧ cfg.designMapped = true then 440 * fns.exp2 ((f0 - 69) / 12) else f0 := by
  simp [designHz, designMaps, mapNote]

/-- The magnitude is computed first, and the sign put on it afterwards. -/
theorem angleValue_numExact (fns : NumFns ℚ) (a : Angle) :
    angleValue (numExact fns) a = match a with
      | .piMultiple num den => (num : ℚ) * fns.pi / den
      | .value x => x := by
  cases a with
  | piMultiple num den =>
    simp only [angleValue, numExact_div, numExact_mul, numExact_ofNat, numExact_pi, numExact_neg, Nat.cast_natAbs]
    split
    · rw [abs_of_neg ‹_›, Int.cast_neg, neg_mul, neg_div, neg_neg]
    · rw [abs_of_nonneg (not_lt.1 ‹_›)]
  | value x =>
    simp only [angleValue, numExact_lit, numExact_neg, Binary32.natAbs_num_div_den]
    split
    · rw [abs_of_neg ‹_›, neg_neg]
    · exact abs_of_nonneg (not_lt.1 ‹_›)

/-- Settles O20: the exact targets, unfolded, are the rule's lines. -/
theorem designTargetsFollowFormula : Obligations.DesignTargetsFollowFormula := by
  intro f0 s tg h k hk rate raw g x fc w theta sr si nr ni dr di den ar ai c1 c2 gain
  obtain ⟨hai, hfin, hround⟩ := getElem_designedTargets h k hk
  have hexact : exactTargets f0 s k hk =
      { ar := ar, ai := ai, c0 := 1 / gain, c1 := c1 / gain, c2 := c2 / gain } := by
    rw [exactTargets, numReference, designHz_numExact, designFraction_numExact, angleValue_numExact]
    simp only [prewarp, sectionTargets, scaledPole, cxUnit, bilinear, cxDiv, poleTargets, nyquistGain, gain1, gain2,
      numExact_add, numExact_sub, numExact_mul, numExact_div, numExact_neg, numExact_ofNat, numExact_pi,
      numExact_tan, numExact_sin, numExact_cos, Nat.cast_one, Nat.cast_ofNat]
    rfl
  rw [hexact] at hai hround
  exact ⟨hai, hfin, hround⟩

/-! ## Illegal angles and tables -/

/-- An angle `n π / d` is legal exactly where its sine is not 0: the sine's zeros are the multiples of `π`. -/
theorem legalAngle_piMultiple_iff (n : Int) (d : Nat) :
    legalAngle (.piMultiple n d) = true ↔ Real.sin ((n : ℝ) * Real.pi / (d : ℝ)) ≠ 0 := by
  rw [legalAngle, Bool.and_eq_true, bne_iff_ne, bne_iff_ne, ← not_or]
  refine not_congr ?_
  rw [Real.sin_eq_zero_iff]
  rcases eq_or_ne d 0 with rfl | hd
  · simp only [true_or, true_iff]
    exact ⟨0, by simp⟩
  · rw [or_iff_right hd, ← Int.dvd_iff_emod_eq_zero]
    have hd' : (d : ℝ) ≠ 0 := Nat.cast_ne_zero.2 hd
    refine exists_congr fun k => ?_
    rw [eq_div_iff hd', mul_right_comm, mul_left_inj' Real.pi_ne_zero, mul_comm]
    exact_mod_cast eq_comm

/-- Of the rational angles only 0 has sine 0, since no other multiple of `π` is rational. -/
theorem legalAngle_value_iff (x : ℚ) : legalAngle (.value x) = true ↔ Real.sin (x : ℝ) ≠ 0 := by
  rw [legalAngle, bne_iff_ne]
  refine not_congr ⟨fun h => by rw [h, Rat.cast_zero, Real.sin_zero], fun h => ?_⟩
  obtain ⟨k, hk⟩ := Real.sin_eq_zero_iff.1 h
  rcases eq_or_ne k 0 with rfl | hk0
  · rw [Int.cast_zero, zero_mul] at hk
    exact_mod_cast hk.symm
  · exact absurd hk ((irrational_pi.intCast_mul hk0).ne_rat x)

theorem legalTheta_of_illegal_angle {theta : Vector Angle 3} {k : Nat} (hk : k < 3)
    (h : legalAngle theta[k] = false) : legalTheta theta = false := by
  rw [legalTheta]
  match k, hk with
  | 0, _ => rw [h, Bool.false_and, Bool.false_and]
  | 1, _ => rw [h, Bool.and_false, Bool.false_and]
  | 2, _ => rw [h, Bool.and_false]

theorem legalKrom_of_nonFinite {i : Nat} (hi : i < Config.tableLen)
    (h : P.isFinite (P.kromImpulse i) = false ∨ P.isFinite (P.kromStep i) = false) : legalKrom P = false := by
  refine Bool.eq_false_of_not_eq_true fun hl => ?_
  obtain ⟨h1, h2⟩ := legalKrom_eq_true.1 hl i hi
  rw [h1, h2] at h
  exact h.elim nofun nofun

/-- A block that is not constructed runs nothing. -/
theorem run_of_construct_error {theta : Vector Angle 3} {cfg : OscParams} {cfgs : List OscParams} {r : Refusal}
    (h : construct P theta cfg cfgs = .error r) (ws : List (Nat × CommandWord)) :
    run P theta cfg cfgs ws = .refused r := by
  rw [run, h]

/-- With a reference sine of 0 the pole of the section lies on the real axis. -/
theorem exactTargets_ai_of_sin_eq_zero {f0 : F32} {s : State} {k : Nat} (hk : k < 3)
    (h : Reference.sin (angleValue numReference s.theta[k]) = 0) : (exactTargets f0 s k hk).ai = 0 := by
  rw [exactTargets]
  generalize prewarp numReference _ = w
  have hpole : (scaledPole numReference w (angleValue numReference s.theta[k])).im = 0 :=
    (congrArg (w * ·) h).trans (mul_zero w)
  exact (bilinear_im Reference.fns _).trans (by rw [hpole, zero_div])

/-- Settles O24: the sine's zeros are the multiples of `π`; an illegal angle or entry fails the test that construction,
and each step, makes first; and a DESIGN that answers has a pole off the real axis. -/
theorem illegalParametersAreRefused : Obligations.IllegalParametersAreRefused := by
  refine ⟨legalAngle_piMultiple_iff, legalAngle_value_iff, fun theta k hk h => ?_, fun f0 s t k hk h hexec => ?_,
    fun i => ⟨Binary32.isFinite_pattern _, Binary32.isFinite_pattern _⟩, fun α P theta cfg cfgs ws i htheta hi h => ?_⟩
  · have htheta := legalTheta_of_illegal_angle hk h
    refine ⟨fun α P cfg cfgs ws => ?_, fun s hs => step_of_illegal (hs ▸ htheta)⟩
    have hc := construct_eq_error (P := P) (cfg := cfg) (cfgs := cfgs).2 (Or.inl ⟨htheta, rfl⟩)
    exact ⟨hc, run_of_construct_error hc ws⟩
  · rw [exec_eq_command, onBlock_eq_next] at hexec
    obtain ⟨b, hb, -⟩ := hexec
    obtain ⟨-, -, -, tg, htg, -⟩ := design_eq_ok.1 hb
    exact (getElem_designedTargets htg k hk).1 (exactTargets_ai_of_sin_eq_zero hk h)
  · have hc := construct_eq_error (cfg := cfg) (cfgs := cfgs).2 (Or.inr ⟨htheta, legalKrom_of_nonFinite hi h, rfl⟩)
    exact ⟨hc, run_of_construct_error hc ws⟩

end Sys2Proof.Machine
end

section
/-! The reference `exp2` is exact on whole octaves (44_render_and_control.md R183; log entry 2). -/

namespace Sys2Proof.Reference

theorem fixOne_pos : 0 < fixOne := by
  rw [fixOne]
  exact pow_pos two_pos _

theorem toFix_intCast (k : ℤ) : toFix k = k * (fixOne : ℤ) := by
  rw [toFix, Rat.num_intCast, Rat.den_intCast, Nat.cast_one, Int.ediv_one]

theorem expSeries_of_zero_term (r fuel k : Nat) : expSeries r fuel k 0 = 0 := by
  induction fuel generalizing k with
  | zero => rfl
  | succ fuel ih => simp [expSeries, ih]

/-- At an exponent of 0 every term of the series after the first is 0. -/
theorem expSeries_of_zero_exponent (fuel k t : Nat) : expSeries 0 (fuel + 1) k t = t := by
  simp [expSeries, expSeries_of_zero_term]

theorem scaleExp_fixOne {k : ℤ} (hlo : -4096 ≤ k) (hhi : k ≤ 4096) : scaleExp k fixOne = (2 : ℚ) ^ k := by
  have hone : (fixOne : ℚ) ≠ 0 := Nat.cast_ne_zero.2 fixOne_pos.ne'
  rw [scaleExp]
  split
  case isTrue hk =>
    rw [min_eq_left hhi, mul_div_cancel_left₀ _ hone, ← zpow_natCast, Int.toNat_of_nonneg hk]
  case isFalse hk =>
    rw [min_eq_left (by omega), div_mul_cancel_left₀ hone, ← zpow_natCast, Int.toNat_of_nonneg (by omega), zpow_neg,
      inv_inv]

/-- The fraction part of an integer is 0, so that only the shift is left. -/
theorem exp2_intCast {k : ℤ} (hlo : -4096 ≤ k) (hhi : k ≤ 4096) : exp2 k = (2 : ℚ) ^ k := by
  have hone : (fixOne : ℤ) ≠ 0 := Nat.cast_ne_zero.2 fixOne_pos.ne'
  rw [exp2, toFix_intCast, Int.mul_ediv_cancel _ hone, Int.mul_emod_left, Int.toNat_zero, Nat.zero_mul, Nat.zero_div,
    expSeries_of_zero_exponent, scaleExp_fixOne hlo hhi]

end Sys2Proof.Reference

namespace Sys2Proof.Machine

/-- MAP in exact arithmetic is its formula. -/
theorem mapNote_numExact (fns : NumFns ℚ) (note : ℚ) :
    mapNote (numExact fns) note = 440 * fns.exp2 ((note - 69) / 12) := by
  simp [mapNote]

/-- Settles O58: twelve notes to the octave leave `exp2` an integer. -/
theorem mapExactOnOctaves : Obligations.MapExactOnOctaves := by
  refine ⟨mapNote_numExact, fun k hlo hhi => ?_⟩
  have hoctave : ((69 + 12 * k : ℚ) - 69) / 12 = k := by ring
  rw [numReference, mapNote_numExact, hoctave]
  exact congrArg (440 * ·) (Reference.exp2_intCast hlo hhi)

end Sys2Proof.Machine
end

section
/-! SETSR, SETALT and SETPHASE (44_render_and_control.md R180 to R182): what each answers, and that `ALT` is read by the
polarity flip of a retarget only. -/

namespace Sys2Proof.Machine

variable {α : Type} {N : Num α} {P : Params α}

/-! ## SETSR -/

/-- The rate test of R180, on the pattern, is a test of the value it denotes. -/
theorem zero_lt_iff_toRat_pos {x : F32} (h : Binary32.isFinite x = true) :
    Binary32.lt (Binary32.ofNat 0) x = true ↔ 0 < Binary32.toRat x := by
  rw [show Binary32.ofNat 0 = 0#32 by decide, Binary32.lt_iff_toRat_lt (by decide) h,
    show Binary32.toRat 0#32 = 0 from Binary32.toRat_pack_zero false]

theorem setsr_of_not_finite {sr : F32} (h : Binary32.isFinite sr = false) (b : Block α) :
    setsr P sr b = .error .nonFinite := by
  simp [setsr, rateOperand, realOperand, h]

theorem setsr_of_not_pos {sr : F32} (hf : Binary32.isFinite sr = true) (hle : Binary32.toRat sr ≤ 0) (b : Block F32) :
    setsr params32 sr b = .error .badSr := by
  have hlt : ¬ Binary32.lt (Binary32.ofNat 0) sr = true := mt (zero_lt_iff_toRat_pos hf).1 hle.not_gt
  simp [setsr, rateOperand, realOperand, finiteResult, hf, hlt]

/-- Settles O15: the operand is tested to be finite, then to be above 0, and is then stored. -/
theorem setsrLoadsRateOrFaults : Obligations.SetsrLoadsRateOrFaults := by
  intro sr s
  refine ⟨rfl, fun hf => ?_, fun hf hle => ?_, fun hf hpos => ?_⟩
  · exact exec_eq_fault.2 (setsr_of_not_finite hf _)
  · exact exec_eq_fault.2 (setsr_of_not_pos hf hle _)
  · exact exec_eq_next.2 ⟨_, setsr_eq_ok.2 ⟨hf, hf, (zero_lt_iff_toRat_pos hf).2 hpos, rfl⟩, rfl⟩

/-! ## SETPHASE -/

/-- Settles O17: the mask takes the remainder by 64 off the operand, and the phase is all that is written. -/
theorem setphaseClearsLowSixBits : Obligations.SetphaseClearsLowSixBits :=
  fun p _ => ⟨rfl, _, rfl, rfl, toNat_and_mask p⟩

/-! ## SETALT -/

/-- The block with another `ALT`, as `SETALT` leaves it. -/
def withAlt (v : Bool) (b : Block α) : Block α := withOsc (setAlt v b.osc) b

/-- The oscillator a command that began at `o` would have left in place of `o'` with another `ALT`: the polarity is
flipped exactly on a wrap with `ALT` 1. -/
def leftWithAlt (N : Num α) (v : Bool) (o o' : Oscillator α) : Oscillator α :=
  { o' with
    alt := v
    polscale := if v = true ∧ wraps o.phase o'.phase = true then N.neg o.polscale else o.polscale }

theorem setalt_eq (v : Bool) (b : Block α) : setalt v b = .ok (withAlt v b) := rfl

theorem retarget_setAlt (v : Bool) (p q : U32) (o : Oscillator α) :
    retarget N p q (setAlt v o) =
      { retarget N p q o with alt := v, polscale := if v then N.neg o.polscale else o.polscale } := rfl

theorem advanced_setAlt (v : Bool) (q : U32) (o : Oscillator α) :
    advanced N q (setAlt v o) = leftWithAlt N v o (advanced N q o) := by
  cases hw : wraps o.phase (o.phase + q)
  · rw [advanced_of_not_wraps (o := setAlt v o) hw, advanced_of_not_wraps hw]
    simp [leftWithAlt, hw, setAlt]
  · rw [advanced_of_wraps (o := setAlt v o) hw, advanced_of_wraps hw, retarget_setAlt]
    simp [leftWithAlt, hw]

/-- ADV tests the polarity it stores, not the one it leaves. -/
theorem advWritesFinite_setAlt (v : Bool) (q : U32) (o : Oscillator α) :
    advWritesFinite N q (setAlt v o) = advWritesFinite N q o := rfl

theorem adv_setAlt (v : Bool) (f : α) (o : Oscillator α) :
    adv N f (setAlt v o) = (adv N f o).map (leftWithAlt N v o) := by
  rw [adv, adv, setAlt_sr, setAlt_cfg, advWritesFinite_setAlt, advanced_setAlt]
  split
  · split
    · split <;> rfl
    · rfl
  · rfl

theorem filtOsc_setAlt (v : Bool) (x : α) (o : Oscillator α) :
    filtOsc N x (setAlt v o) = (filtOsc N x o).map (Prod.map id (setAlt v)) := by
  unfold filtOsc
  dsimp only
  rw [setAlt_sec]
  split <;> rfl

/-- MIX and FILT do not read `ALT`, and leave the phase and the polarity ADV starts from. -/
theorem renderSample_setAlt (v : Bool) (m : Memory α) (hz : α) (o : Oscillator α) :
    renderSample N m hz (setAlt v o) = (renderSample N m hz o).map (leftWithAlt N v o) := by
  unfold renderSample
  rw [setAlt_voice]
  cases mix N m o.voice with
  | error e => rfl
  | ok mv =>
    have hvoice : ({ setAlt v o with voice := mv.2 } : Oscillator α) = setAlt v { o with voice := mv.2 } := rfl
    dsimp only
    rw [hvoice, filtOsc_setAlt]
    cases hfilt : filtOsc N mv.1 { o with voice := mv.2 } with
    | error e => rfl
    | ok yo =>
      obtain ⟨y, o1⟩ := yo
      obtain ⟨-, -, rfl⟩ := filtOsc_eq_ok.1 hfilt
      dsimp only [Except.map, Prod.map]
      rw [adv_setAlt]
      cases adv N hz { o with voice := mv.2, sec := (filt N mv.1 o.sec).2 } with
      | error e => rfl
      | ok o' =>
        dsimp only [Except.map, id]
        cases portValue N (N.mul (N.ofNat 2) y) <;> rfl

/-- A TICK from the block with another `ALT`: the same fault, or the same block but for `ALT` and the polarity. -/
theorem tick_withAlt (v : Bool) (f : F32) (b : Block α) :
    tick P f (withAlt v b) = (tick P f b).map fun c => withOsc (leftWithAlt P.toNum v b.osc c.osc) c := by
  unfold tick
  rw [withAlt, withOsc_kernel, withOsc_osc, setAlt_srset, setAlt_cfg]
  split
  case isFalse => rfl
  split
  case isFalse => rfl
  split
  case h_1 => rfl
  split
  case h_1 => rfl
  rw [renderSample_setAlt]
  cases renderSample P.toNum b.kernel.impulse _ b.osc <;> rfl

/-- A command other than TICK and SETALT carries `ALT` along unread. -/
theorem command_withAlt (v : Bool) {i : Instr} (htick : ∀ f, i ≠ .tick f) (halt : ∀ c, i ≠ .setalt c)
    (b : Block α) :
    command P i (withAlt v b) = (command P i b).map (withAlt v) := by
  cases i with
  | build =>
    rw [command, command, build, build, withAlt, withOsc_kernel]
    split <;> rfl
  | setsr sr =>
    rw [command, command, setsr, setsr]
    cases rateOperand P.toNum sr <;> rfl
  | setalt c => exact absurd rfl (halt c)
  | setphase p => rfl
  | design f0 =>
    rw [command, command, design, design, withAlt, withOsc_osc, setAlt_srset, setAlt_cfg, setAlt_sr, withOsc_theta]
    split
    case isFalse => rfl
    split
    case h_1 => rfl
    cases targets P b.theta b.osc.cfg b.osc.sr _ <;> rfl
  | tick f => exact absurd rfl (htick f)

/-- A command that faults gives the same fault with another `ALT`. -/
theorem command_withAlt_error (v : Bool) {i : Instr} {b : Block α} {e : Fault} (h : command P i b = .error e) :
    command P i (withAlt v b) = .error e := by
  by_cases halt : ∃ c, i = .setalt c
  · obtain ⟨c, rfl⟩ := halt
    cases h
  by_cases htick : ∃ f, i = .tick f
  · obtain ⟨f, rfl⟩ := htick
    rw [command] at h ⊢
    rw [tick_withAlt, h]
    rfl
  · rw [command_withAlt v (not_exists.1 htick) (not_exists.1 halt), h]
    rfl

/-- Settles O16: `ALT` is read in a retarget only, so each command from the state with another `ALT` is that command
from the state itself, mapped. -/
theorem setaltWritesFlagOnly : Obligations.SetaltWritesFlagOnly := by
  refine ⟨fun b s => ⟨rfl, exec_eq_next.2 ⟨_, setalt_eq b _, rfl⟩⟩, fun b p q o => retarget_setAlt b p q o,
    fun b f s t h => ?_, fun b i s t htick halt h => ?_, fun b i s e h => ?_, fun _ _ _ _ => rfl⟩
  · obtain ⟨c, hc, rfl⟩ := exec_eq_next.1 h
    exact exec_eq_next.2 ⟨_, (tick_withAlt b f s.toBlock).trans (congrArg _ hc), rfl⟩
  · obtain ⟨c, hc, rfl⟩ := exec_eq_next.1 h
    exact exec_eq_next.2 ⟨_, (command_withAlt b htick halt s.toBlock).trans (congrArg _ hc), rfl⟩
  · exact exec_eq_fault.2 (command_withAlt_error b (exec_eq_fault.1 h))

end Sys2Proof.Machine
end

section
/-! TICK inside its domain (44_render_and_control.md R184), and the domain of every command (R186). -/

namespace Sys2Proof.Machine

open Sys2Proof.Safety

/-! ## One sample of the machine -/

theorem num32_ofNat_two : num32.ofNat 2 = 0x40000000#32 := by decide

theorem emit_advanced {α : Type} {N : Num α} (q : U32) (o : Oscillator α) (v : PortValue α) :
    emit v (advanced N q o) = { advanced N q o with output := o.output ++ [v] } := by
  rw [emit, advanced_output]

/-- ADV writes finite values where the polarity is finite. -/
theorem advWritesFinite_of_polscale (q : U32) {o : Oscillator F32} (h : Binary32.isFinite o.polscale = true) :
    advWritesFinite num32 q o = true :=
  (congrArg (_ || ·) h).trans (Bool.or_true _)

/-- Settles O25: with a finite polarity, the conditions are all a sample's rendering asks. -/
theorem tickRendersSample : Obligations.TickRendersSample := by
  intro f m s hz q r y hbuilt hset hf hhz hscale hinc hpol hsum hfilt hy
  have hrender : renderSample num32 s.kernel.impulse hz s.osc = .ok (emit (.pattern y)
      (advanced num32 q { s.osc with voice := mapVoices advanceVoice s.osc.voice, sec := r.2 })) :=
    renderSample_eq_ok.2 ⟨m, hsum, hfilt, hscale, hinc, advWritesFinite_of_polscale q hpol,
      num32_ofNat_two ▸ hy, num32_ofNat_two ▸ hy, num32_ofNat_two ▸ rfl⟩
  rw [emit_advanced] at hrender
  exact exec_eq_next.2 ⟨_, tick_eq_ok.2 ⟨hbuilt, hset, hf, hf, hhz, _, hrender, rfl⟩, rfl⟩

/-- The output and the filter file of a TICK come from the mixer sum of the state it starts from. -/
theorem tick_ok_output {f : F32} {s t : State} (h : exec (.tick f) s = .next t) :
    ∃ x, mixerSum s = .ok x ∧ t.osc.sec = (filtered s x).2 ∧
      t.osc.output = s.osc.output ++ [.pattern (num32.mul (num32.ofNat 2) (filtered s x).1)] := by
  obtain ⟨c, hc, rfl⟩ := exec_eq_next.1 h
  obtain ⟨-, -, -, -, -, o, ho, rfl⟩ := tick_eq_ok.1 hc
  obtain ⟨x, hx, -, -, -, -, -, -, rfl⟩ := renderSample_eq_ok.1 ho
  exact ⟨x, hx, advanced_sec _ _, congrArg (· ++ _) (advanced_output _ _)⟩

/-- Settles O29: both TICKs filter the one mixer sum of the state they start from. -/
theorem tickOutputIgnoresItsOperand : Obligations.TickOutputIgnoresItsOperand := by
  intro f g s t u ht hu
  obtain ⟨x, hx, hsect, houtt⟩ := tick_ok_output ht
  obtain ⟨y, hy, hsecu, houtu⟩ := tick_ok_output hu
  obtain rfl : x = y := Except.ok.inj (hx.symm.trans hy)
  exact ⟨houtt.trans houtu.symm, hsect.trans hsecu.symm⟩

/-! ## Domains -/

theorem isFinite_of_polarityOne {x : F32} (h : PolarityOne x) : Binary32.isFinite x = true := by
  obtain rfl | rfl := h
  · decide
  · decide

/-- Inside the domain a command answers; a TICK because the invariant has the polarity finite. -/
theorem exec_next_of_inDomain {i : Instr} {s : State} (hs : Inv s) (h : InDomain i s) : ∃ t, exec i s = .next t := by
  cases i with
  | build =>
    cases hb : s.kernel.built with
    | true => exact ⟨_, exec_build_of_built hb⟩
    | false => exact ⟨_, exec_build_of_not_built hb⟩
  | setsr sr =>
    obtain ⟨hf, hpos⟩ := h
    exact ⟨_, exec_eq_next.2 ⟨_, setsr_eq_ok.2 ⟨hf, hf, hpos, rfl⟩, rfl⟩⟩
  | setalt v => exact ⟨_, rfl⟩
  | setphase p => exact ⟨_, rfl⟩
  | design f0 =>
    obtain ⟨hset, hf, t, ht⟩ := h
    exact ⟨_, exec_eq_next.2 ⟨_, design_eq_ok.2 ⟨hset, hf, hf, t, ht, rfl⟩, rfl⟩⟩
  | tick f =>
    obtain ⟨hbuilt, hset, hf, hhz, hscale, hinc, m, hsum, hfilt, hy⟩ := h
    have hpol := isFinite_of_polarityOne hs.osc.polscale_one
    rw [num32_ofNat_two] at hy
    exact ⟨_, tickRendersSample f m s hbuilt hset hf hhz hscale hinc hpol hsum hfilt hy⟩

/-- What a command tests before it answers puts the pair inside the domain, in every state. -/
theorem inDomain_of_exec_next {i : Instr} {s t : State} (h : exec i s = .next t) : InDomain i s := by
  obtain ⟨c, hc, -⟩ := exec_eq_next.1 h
  cases i with
  | build => trivial
  | setsr sr =>
    obtain ⟨hf, -, hpos, -⟩ := setsr_eq_ok.1 hc
    exact ⟨hf, hpos⟩
  | setalt v => trivial
  | setphase p => trivial
  | design f0 =>
    obtain ⟨hset, hf, -, t, ht, -⟩ := design_eq_ok.1 hc
    exact ⟨hset, hf, t, ht⟩
  | tick f =>
    obtain ⟨hbuilt, hset, hf, -, hhz, o, ho, -⟩ := tick_eq_ok.1 hc
    obtain ⟨m, hsum, hfilt, hscale, hinc, -, hy, -⟩ := renderSample_eq_ok.1 ho
    exact ⟨hbuilt, hset, hf, hhz, hscale, hinc, m, hsum, hfilt, hy⟩

/-- Under the invariant no table read of a TICK leaves the table. -/
theorem tick_error_of_inv {f : F32} {s : State} {e : Fault} (hs : Inv s) (h : tick params32 f s.toBlock = .error e) :
    e = .noKernel ∨ e = .noSr ∨ e = .nonFinite := by
  obtain ⟨-, he⟩ | ⟨-, -, he⟩ | ⟨-, -, -, he⟩ | ⟨hbuilt, hset, -⟩ := tick_eq_error.1 h
  · exact Or.inl he
  · exact Or.inr (Or.inl he)
  · exact Or.inr (Or.inr he)
  · exact Or.inr (Or.inr ((tableReadsStayInBounds s hs hbuilt).2 f e hset (exec_eq_fault.2 h)))

/-- Settles O55: inside its domain a command answers; outside it does not, and its fault is one of its row's. -/
theorem commandDomains : Obligations.CommandDomains := by
  intro i s hs
  refine ⟨⟨exec_next_of_inDomain hs, fun ⟨t, ht⟩ => inDomain_of_exec_next ht⟩, fun hout => ?_⟩
  cases hc : command params32 i s.toBlock with
  | ok c => exact absurd (inDomain_of_exec_next (exec_eq_next.2 ⟨c, hc, rfl⟩)) hout
  | error e =>
    refine ⟨e, exec_eq_fault.2 hc, ?_⟩
    cases i with
    | build => exact build_ne_error hc
    | setsr sr => exact setsr_error hc
    | setalt v => cases hc
    | setphase p => cases hc
    | design f0 => exact design_params32_error hc
    | tick f => exact tick_error_of_inv hs hc

end Sys2Proof.Machine
end

section
/-! Exceptions (60_exceptions.md): which faults a command can raise (R202), which of those before execution is reported
(R203), and the steps that run no command (R204, R209, R210; 70_reset_and_hazards.md R221). -/

namespace Sys2Proof.Machine

variable {α : Type} {N : Num α} {P : Params α}

/-! ## Faults by command (R202) -/

theorem exec_ne_refused (i : Instr) (s : State) (r : Refusal) : exec i s ≠ .refused r := by
  rw [exec_eq_command]
  exact onBlock_ne_refused

/-- Settles O56: no command is refused, and each faults as its own spec lemma says. -/
theorem faultsByCommand : Obligations.FaultsByCommand := by
  intro i s
  refine ⟨exec_ne_refused i s, fun e h => ?_⟩
  have hc := exec_eq_fault.1 h
  cases i with
  | build => exact build_ne_error hc
  | setsr sr => exact setsr_error hc
  | setalt v => cases hc
  | setphase p => cases hc
  | design f0 => exact design_params32_error hc
  | tick f => exact tick_error hc

/-! ## The order of the preconditions (R203) -/

theorem realOperand_of_not_finite {f : F32} (h : Binary32.isFinite f = false) :
    realOperand N f = .error .nonFinite := by
  simp [realOperand, h]

theorem design_of_not_srset (f0 : F32) {b : Block α} (h : b.osc.srset = false) : design P f0 b = .error .noSr :=
  if_neg (by simp [h])

theorem design_of_not_finite {f0 : F32} {b : Block α} (hset : b.osc.srset = true) (hf : Binary32.isFinite f0 = false) :
    design P f0 b = .error .nonFinite := by
  rw [design, if_pos hset, realOperand_of_not_finite hf]

theorem not_tickOperandFinite_of_not_finite {f : F32} (hf : Binary32.isFinite f = false) (cfg : OscParams) :
    ¬ TickOperandFinite P cfg f := by
  rintro ⟨hfin, -⟩
  rw [hf] at hfin
  cases hfin

/-- Settles O19: a TICK by the order of its preconditions, a DESIGN by the rate flag and then its operand. -/
theorem preconditionFaultOrder : Obligations.PreconditionFaultOrder := by
  refine ⟨fun f s hb => ?_, fun f s hb hset => ?_, fun f s hb hset hf => ?_, fun f0 s hset => ?_,
    fun f0 s hset hf => ?_⟩
  · exact exec_eq_fault.2 (tick_eq_error.2 (Or.inl ⟨hb, rfl⟩))
  · exact exec_eq_fault.2 (tick_eq_error.2 (Or.inr (Or.inl ⟨hb, hset, rfl⟩)))
  · have hop := not_tickOperandFinite_of_not_finite (P := params32) hf s.osc.cfg
    exact exec_eq_fault.2 (tick_eq_error.2 (Or.inr (Or.inr (Or.inl ⟨hb, hset, hop, rfl⟩))))
  · exact exec_eq_fault.2 (design_of_not_srset f0 hset)
  · exact exec_eq_fault.2 (design_of_not_finite hset hf)

/-! ## Steps that run no command -/

theorem takeInput_of_idle {s : State} (h : s.inputs = []) : takeInput s = .next s := by
  simp only [takeInput, h]

theorem takeInput_of_oscReset {s : State} {rest : List Input} (h : s.inputs = .oscReset :: rest) :
    takeInput s = .next { s with toBlock := oscReset num32 s.toBlock, inputs := rest } := by
  simp only [takeInput, h]

theorem takeInput_of_globalReset {s : State} {rest : List Input} (h : s.inputs = .globalReset :: rest) :
    takeInput s = .next { s with toBlock := globalReset num32 s.toBlock, inputs := rest } := by
  simp only [takeInput, h]

theorem takeInput_of_select {s : State} {n : Nat} {rest : List Input} (h : s.inputs = .select n :: rest) :
    takeInput s = selectPort n { s with inputs := rest } := by
  simp only [takeInput, h]

/-- A port past the end of the bank does not exist (log entry 11). -/
theorem selectPort_of_length_le {n : Nat} {s : State} (h : s.bank.length ≤ n) :
    selectPort n s = .refused .noSuchPort := by
  have hport : choosePort n s.toBlock = .error .noSuchPort :=
    choosePort_eq_error.2 ⟨List.getElem?_eq_none h, rfl⟩
  rw [selectPort, hport]

/-- Settles O6: under legal angles a step takes the item at the head of the stream, whichever it is. -/
theorem idleResetAndSelectSteps : Obligations.IdleResetAndSelectSteps := by
  refine ⟨fun s hlegal hin => ?_, fun s rest hlegal hin => ?_, fun s rest hlegal hin => ?_,
    fun s n rest o hlegal hin ho => ?_, fun s n rest hlegal hin hle => ?_⟩
  · rw [step_of_legal hlegal, takeInput_of_idle hin]
  · rw [step_of_legal hlegal, takeInput_of_oscReset hin]
  · rw [step_of_legal hlegal, takeInput_of_globalReset hin]
  · rw [step_of_legal hlegal, takeInput_of_select hin]
    exact selectPort_eq_next.2 ⟨o, ho, rfl⟩
  · rw [step_of_legal hlegal, takeInput_of_select hin]
    exact selectPort_of_length_le hle

end Sys2Proof.Machine
end

section
/-! The two resets (70_reset_and_hazards.md R221), and how a run over several ports goes on and how it ends (R225;
60_exceptions.md R209). -/

namespace Sys2Proof.Machine

open Sys2Proof.Safety

variable {α : Type} {P : Params α}

/-! ## The two resets (R221) -/

theorem atReset_resetOsc (o : Oscillator F32) : AtReset (resetOsc num32 o) := by
  rw [resetOsc_num32]
  exact atReset_reset _ _

/-- Settles O10: either reset puts an oscillator at its reset values; the global one resets each oscillator of the bank,
and each keeps its construction parameters. -/
theorem resetScopes : Obligations.ResetScopes := by
  refine ⟨fun b => ⟨atReset_resetOsc b.osc, rfl, rfl, rfl, rfl⟩,
    fun b => ⟨atReset_resetOsc b.osc, storeAtReset_reset, ?_, rfl, ?_, rfl⟩⟩
  · exact List.forall_mem_map.2 fun o _ => atReset_resetOsc o
  · exact List.map_map

/-! ## Runs (R225) -/

theorem runFrom_cons_of_answered {k : Nat} {w : CommandWord} {b d : Block α} (h : wordOnPort P k w b = .ok (.ok d))
    (ports : List Nat) (ws : List (Nat × CommandWord)) :
    runFrom P ports ((k, w) :: ws) b = runFrom P (ports ++ [k]) ws d := by
  simp only [runFrom, h]

/-- A run that faults with its first word faulting, or with that word answered and the rest faulting. -/
theorem runFrom_cons_eq_faulted {ports : List Nat} {k : Nat} {w : CommandWord} {ws : List (Nat × CommandWord)}
    {b : Block α} {f : Fault} {p n : Nat} {out : List (List (PortValue α))}
    (h : runFrom P ports ((k, w) :: ws) b = .faulted f p n out) :
    (wordOnPort P k w b = .ok (.error f) ∧ p = k ∧ n = ports.count k ∧ out = b.outputs) ∨
    ∃ d, wordOnPort P k w b = .ok (.ok d) ∧ runFrom P (ports ++ [k]) ws d = .faulted f p n out := by
  rw [runFrom] at h
  split at h
  case h_1 => cases h
  case h_2 e he =>
    cases h
    exact Or.inl ⟨he, rfl, rfl, rfl⟩
  case h_3 d hd => exact Or.inr ⟨d, hd, h⟩

/-- A run that ends goes on with what is appended to its schedule. -/
theorem runFrom_append {ports : List Nat} {ws : List (Nat × CommandWord)} {b c : Block α}
    (h : runFrom P ports ws b = .done c) (vs : List (Nat × CommandWord)) :
    runFrom P ports (ws ++ vs) b = runFrom P (ports ++ ws.map Prod.fst) vs c := by
  induction ws generalizing ports b with
  | nil =>
    cases h
    rw [List.map_nil, List.append_nil, List.nil_append]
  | cons x ws ih =>
    obtain ⟨k, w⟩ := x
    obtain ⟨d, hd, hrest⟩ := runFrom_cons_eq_done h
    rw [List.cons_append, runFrom_cons_of_answered hd, ih hrest, List.map_cons, ← List.append_cons]

/-- The report of a run that faults: the words before some word complete, and that word faults. -/
theorem runFrom_faulted {ports : List Nat} {ws : List (Nat × CommandWord)} {b : Block α} {f : Fault} {p n : Nat}
    {out : List (List (PortValue α))} (h : runFrom P ports ws b = .faulted f p n out) :
    ∃ j w c, ws[j]? = some (p, w) ∧ runFrom P ports (ws.take j) b = .done c ∧
      wordOnPort P p w c = .ok (.error f) ∧ n = (ports ++ (ws.take j).map Prod.fst).count p ∧ out = c.outputs := by
  induction ws generalizing ports b with
  | nil => cases h
  | cons x ws ih =>
    obtain ⟨k, w⟩ := x
    obtain ⟨hw, rfl, rfl, rfl⟩ | ⟨d, hd, hrest⟩ := runFrom_cons_eq_faulted h
    · refine ⟨0, w, b, rfl, rfl, hw, ?_, rfl⟩
      rw [List.take_zero, List.map_nil, List.append_nil]
    · obtain ⟨j, w', c, hj, hdone, hfault, hn, hout⟩ := ih hrest
      refine ⟨j + 1, w', c, hj, ?_, hfault, ?_, hout⟩
      · rw [List.take_succ_cons, runFrom_cons_of_answered hd, hdone]
      · rw [List.take_succ_cons, List.map_cons, hn, ← List.append_cons]

/-- A port past the end of the bank does not exist (log entry 11). -/
theorem wordOnPort_of_length_lt {k : Nat} (w : CommandWord) {b : Block α} (h : b.bank.length < k) :
    wordOnPort P k w b = .error .noSuchPort := by
  cases k with
  | zero => exact absurd h (Nat.not_lt_zero _)
  | succ n =>
    have hport : choosePort n b = .error .noSuchPort :=
      choosePort_eq_error.2 ⟨List.getElem?_eq_none (Nat.le_of_lt_succ h), rfl⟩
    simp only [wordOnPort, hport]

/-- Settles O7, by induction on the schedule: what comes first is answered, faults or is refused. -/
theorem runStopsAtFirstFault : Obligations.RunStopsAtFirstFault := by
  intro α P ports b
  refine ⟨fun ws vs c h => runFrom_append h vs, fun ws f k n out h => runFrom_faulted h, fun ws k w h => ?_⟩
  simp only [runFrom, wordOnPort_of_length_lt w h]

end Sys2Proof.Machine
end

section
/-! The filter before any DESIGN (70_reset_and_hazards.md R222): with every coefficient 0 each section outputs a zero of
either sign on a finite input, and the first section's state shows that the mixer sum was finite. -/

namespace Sys2Proof.Binary32

theorem isFinite_pack_zero (s : Bool) : isFinite (pack s 0) = true := by
  cases s <;> decide

theorem add_pack_zero_pack_zero (s t : Bool) : add (pack s 0) (pack t 0) = pack (s && t) 0 := by
  cases s <;> cases t <;> decide

theorem two_mul_pack_zero (s : Bool) : mul 0x40000000#32 (pack s 0) = pack s 0 := by
  cases s <;> decide

theorem ftz_pack_zero (s : Bool) : ftz (pack s 0) = pack s 0 := by
  cases s <;> decide

theorem isFinite_of_isFinite_ftz {x : F32} (h : isFinite (ftz x) = true) : isFinite x = true := by
  unfold ftz at h
  split at h
  case isTrue hsub =>
    have hexp : expField x = 0 := by
      rw [isSubnormal, Bool.and_eq_true, beq_iff_eq] at hsub
      exact hsub.1
    rw [isFinite, hexp]
    rfl
  case isFalse => exact h

/-- A sum with a finite left operand is finite only where the right one is. -/
theorem isFinite_of_isFinite_add_right {x y : F32} (hx : isFinite x = true) (h : isFinite (add x y) = true) :
    isFinite y = true := by
  by_contra hy
  rw [add, if_pos hx, if_neg hy] at h
  split at h
  · simp [isFinite_nan] at h
  · exact hy h

end Sys2Proof.Binary32

namespace Sys2Proof.Machine

open Sys2Proof.Safety

/-! ## One section -/

/-- `+0` times one finite value plus `+0` times another is a zero. -/
theorem exists_zero_combination {x y : F32} (hx : Binary32.isFinite x = true) (hy : Binary32.isFinite y = true) :
    ∃ s, Binary32.add (Binary32.mul 0#32 x) (Binary32.mul 0#32 y) = Binary32.pack s 0 := by
  rw [Binary32.zero_mul_of_isFinite hx, Binary32.zero_mul_of_isFinite hy, Binary32.add_pack_zero_pack_zero]
  exact ⟨_, rfl⟩

theorem smoothCoeffs_reset : smoothCoeffs num32 (Coeffs.reset 0#32) (Coeffs.reset 0#32) = Coeffs.reset 0#32 := by
  decide

/-- A section whose targets and current values are 0 (R222). -/
def SectionUndesigned (c : FilterSection F32) : Prop := c.tgt = Coeffs.reset 0#32 ∧ c.cur = Coeffs.reset 0#32

theorem filtSection_keeps_undesigned (x : F32) {c : FilterSection F32} (h : SectionUndesigned c) :
    SectionUndesigned (filtSection num32 x c).2 := by
  obtain ⟨htgt, hcur⟩ := h
  refine ⟨htgt, ?_⟩
  rw [filtSection, htgt, hcur]
  exact smoothCoeffs_reset

/-- An undesigned section with a finite state outputs a zero on a finite input. -/
theorem filtSection_undesigned_out {x : F32} {c : FilterSection F32} (h : SectionUndesigned c)
    (h1 : Binary32.isFinite c.s1 = true) (h2 : Binary32.isFinite c.s2 = true) (hx : Binary32.isFinite x = true) :
    ∃ s, (filtSection num32 x c).1 = Binary32.pack s 0 := by
  obtain ⟨htgt, hcur⟩ := h
  obtain ⟨s, hs⟩ := exists_zero_combination hx h1
  have hout : sectionOut num32 (Coeffs.reset 0#32) c.s1 c.s2 x = Binary32.pack (s && Binary32.signBit c.s2) 0 := by
    simp only [sectionOut, Coeffs.reset, num32_add, num32_mul]
    rw [hs, Binary32.zero_mul_of_isFinite h2, Binary32.add_pack_zero_pack_zero]
  refine ⟨s && Binary32.signBit c.s2, ?_⟩
  rw [filtSection, htgt, hcur, smoothCoeffs_reset, hout]
  exact Binary32.ftz_pack_zero _

/-- The input of an undesigned section enters its new state as it is, so it is finite where that state is. -/
theorem isFinite_filtSection_input {x : F32} {c : FilterSection F32} (h : SectionUndesigned c)
    (h1 : Binary32.isFinite c.s1 = true) (h2 : Binary32.isFinite c.s2 = true)
    (hn : Binary32.isFinite (filtSection num32 x c).2.s1 = true) : Binary32.isFinite x = true := by
  obtain ⟨htgt, hcur⟩ := h
  obtain ⟨s, hs⟩ := exists_zero_combination h1 h2
  have hstate : sectionState1 num32 (Coeffs.reset 0#32) c.s1 c.s2 x = Binary32.add (Binary32.pack s 0) x :=
    congrArg (Binary32.add · x) hs
  rw [filtSection, htgt, hcur, smoothCoeffs_reset, hstate] at hn
  exact Binary32.isFinite_of_isFinite_add_right (Binary32.isFinite_pack_zero s)
    (Binary32.isFinite_of_isFinite_ftz hn)

/-! ## The filter file -/

theorem undesigned_iff (o : Oscillator F32) : Undesigned o ↔ ∀ (k : Nat) (hk : k < 3), SectionUndesigned o.sec[k] :=
  forall_mem_sections SectionUndesigned o.sec

theorem filt_keeps_undesigned (x : F32) {v : Vector (FilterSection F32) 3}
    (h : ∀ (k : Nat) (hk : k < 3), SectionUndesigned v[k]) (k : Nat) (hk : k < 3) :
    SectionUndesigned (filt num32 x v).2[k] := by
  obtain ⟨y, hy⟩ := exists_getElem_filt num32 x v k hk
  rw [hy]
  exact filtSection_keeps_undesigned y (h k hk)

/-- A FILT that writes finite values to an undesigned filter file outputs a zero. -/
theorem filt_undesigned_out {x : F32} {v : Vector (FilterSection F32) 3}
    (h : ∀ (k : Nat) (hk : k < 3), SectionUndesigned v[k])
    (hstate : ∀ (k : Nat) (hk : k < 3), Binary32.isFinite v[k].s1 = true ∧ Binary32.isFinite v[k].s2 = true)
    (hfin : sectionsFinite num32 (filt num32 x v).2 = true) :
    ∃ s, (filt num32 x v).1 = Binary32.pack s 0 := by
  have hzero {y : F32} (k : Nat) (hk : k < 3) (hy : Binary32.isFinite y = true) :
      ∃ s, (filtSection num32 y v[k]).1 = Binary32.pack s 0 :=
    filtSection_undesigned_out (h k hk) (hstate k hk).1 (hstate k hk).2 hy
  have hx : Binary32.isFinite x = true := by
    have hwritten := sectionsFinite_eq_true.1 hfin 0 (by decide)
    simp only [sectionFinite, Bool.and_eq_true] at hwritten
    obtain ⟨⟨-, hs1⟩, -⟩ := hwritten
    exact isFinite_filtSection_input (h 0 _) (hstate 0 _).1 (hstate 0 _).2 hs1
  obtain ⟨s0, hs0⟩ := hzero 0 (by decide) hx
  obtain ⟨s1, hs1⟩ := hzero 1 (by decide) (Binary32.isFinite_pack_zero s0)
  obtain ⟨s2, hs2⟩ := hzero 2 (by decide) (Binary32.isFinite_pack_zero s1)
  refine ⟨s2, ?_⟩
  simp only [filt]
  rw [hs0, hs1, hs2]

/-! ## The commands (R222) -/

/-- The invariant has the state of every section finite. -/
theorem section_state_finite_of_oscInv {o : Oscillator F32} (h : OscInv o) (k : Nat) (hk : k < 3) :
    Binary32.isFinite o.sec[k].s1 = true ∧ Binary32.isFinite o.sec[k].s2 = true := by
  have hwritten := ((forall_mem_sections SectionInv o.sec).1 h.filter k hk).written_finite
  simp only [sectionFinite, Bool.and_eq_true] at hwritten
  obtain ⟨⟨-, h1⟩, h2⟩ := hwritten
  exact ⟨h1, h2⟩

/-- A TICK before any DESIGN leaves the filter undesigned and puts out a zero. -/
theorem tick_undesigned {f : F32} {s t : State} (hs : OscInv s.osc) (hund : Undesigned s.osc)
    (h : exec (.tick f) s = .next t) :
    Undesigned t.osc ∧ ∃ y, t.osc.output = s.osc.output ++ [.pattern y] ∧ Binary32.toRat y = 0 := by
  obtain ⟨x, hx, hsec, hout⟩ := tick_ok_output h
  obtain ⟨-, -, -, -, -, -, m, hm, hfin, -⟩ := inDomain_of_exec_next h
  obtain rfl : m = x := Except.ok.inj (hm.symm.trans hx)
  rw [undesigned_iff] at hund ⊢
  obtain ⟨z, hz⟩ := filt_undesigned_out hund (section_state_finite_of_oscInv hs) hfin
  refine ⟨hsec ▸ filt_keeps_undesigned m hund, _, hout, ?_⟩
  rw [filtered, hz, num32_ofNat_two, num32_mul, Binary32.two_mul_pack_zero, Binary32.toRat_pack_zero]

/-- Settles O51: BUILD, SETSR, SETALT and SETPHASE write neither the filter file nor the port; a TICK's filter
multiplies by 0 throughout. -/
theorem undesignedFilterIsSilent : Obligations.UndesignedFilterIsSilent := by
  intro i s t hs hund hdesign h
  have silent {o : Oscillator F32} (hosc : t.osc = o) (hsec : o.sec = s.osc.sec) (hout : o.output = s.osc.output) :
      Undesigned t.osc ∧ (t.osc.output = s.osc.output ∨
        ∃ y, t.osc.output = s.osc.output ++ [.pattern y] ∧ Binary32.toRat y = 0) := by
    rw [hosc, Undesigned, hsec]
    exact ⟨hund, Or.inl hout⟩
  obtain ⟨-, -, -, -, hwrites⟩ := commandWriteSets i s t h
  cases i with
  | build => exact silent hwrites.1 rfl rfl
  | setsr sr => exact silent hwrites.2 rfl rfl
  | setalt v => exact silent hwrites.2 rfl rfl
  | setphase p => exact silent hwrites.2 rfl rfl
  | design f0 => exact absurd rfl (hdesign f0)
  | tick f =>
    obtain ⟨hkept, hzero⟩ := tick_undesigned hs.osc hund h
    exact ⟨hkept, Or.inr hzero⟩

end Sys2Proof.Machine
end

section
/-! The encoding vectors (95_test_vectors.md V2): a listed command's word is that command's encoding, so it decodes to the
command; an illegal word is rejected by the branch of its opcode. -/

namespace Sys2Proof

/-- Settles O4: the round trip at the seven commands, and the decoder's three refusals at the illegal words. -/
theorem specWordsDecode : Obligations.SpecWordsDecode := by
  refine ⟨?build, ?setsr, ?setalt0, ?setalt1, ?setphase, ?design, ?tick, ?buildOperand, ?setaltOperand, ?reserved⟩
  case build => exact decode_encode .build
  case setsr => exact decode_encode (.setsr 0x473B8000#32)
  case setalt0 => exact decode_encode (.setalt false)
  case setalt1 => exact decode_encode (.setalt true)
  case setphase => exact decode_encode (.setphase 0xFFFFFF00#32)
  case design => exact decode_encode (.design 0x42C80000#32)
  case tick => exact decode_encode (.tick 0xC3DC0000#32)
  case buildOperand => exact (decode_of_op_build (by decide)).trans (if_neg (by decide))
  case setaltOperand => exact (decode_of_op_setalt (by decide)).trans (if_neg (by decide))
  case reserved =>
    exact decode_of_op_reserved (by decide) (by decide) (by decide) (by decide) (by decide) (by decide)

end Sys2Proof
end
